-- ==== Sys2Proof/Word.lean ====
section
/-! DEFINITION. The word types of the CRA frame codec (00_scope.md R7: bytes are 8 bits, the CRC
accumulator 16, command words and read results 32, a read index 9). -/

namespace Sys2Proof

/-- A byte on the RX or TX port, or a byte operand field (R7, R21). -/
abbrev Byte := BitVec 8

/-- A 16-bit CRC accumulator (R7). -/
abbrev Half := BitVec 16

/-- A command word, or the value an RD read returns (R7, R71). -/
abbrev Word := BitVec 32

/-- The 9-bit word index of the RD port (R29). -/
abbrev RegIndex := BitVec 9

end Sys2Proof
end

