-- ==== Sys2Proof/Config.lean ====
section
/-! DEFINITION. The fixed parameters of the block (00_scope.md R5, R6) and the two parameters the
spec leaves open to the platform (20_memory.md R57, 60_exceptions.md R191). -/

namespace Sys2Proof.Config

/-- `CRC_SEED`, the initial accumulator (R5, R6; UNVERIFIED against a device, log entry 12). -/
abbrev crcSeed : Half := 0xFFFF

/-- `CRC_POLY`, the reflected polynomial constant (R5, R6; log entry 12). -/
abbrev crcPoly : Half := 0x8408

/-- The largest payload, in bytes (R5). -/
abbrev maxPayload : Nat := 251

/-- The number of bytes of the decoder payload buffer (R5, R22). -/
abbrev bufSize : Nat := 251

/-- The length byte counts the address, the command and the two CRC bytes beside the payload
(R72: `len = n + 4`). -/
abbrev lenOverhead : Nat := 4

/-- `CRA_BASE`, OPEN (R57, 92_eei_decisions.md D33): where, if anywhere, the platform maps the block's
ports. No body, so nothing can be proved of its value; the block itself never reads it (log entry 9). -/
opaque craBase : Option Nat

/-- `CRA_IRQ`, OPEN (R191, D21): whether the platform derives an interrupt from the decoder's
completion. No body; the block itself has no interrupt (log entry 9). -/
opaque craIrq : Bool

end Sys2Proof.Config
end

