-- ==== Sys2Proof/Syntax.lean ====
section
/-! DEFINITION. The operations of the block: one constructor per row of spec/opcode_table.json
(30_encoding.md R75). The first eight are command words of the CMD port; the last two are the
events of the RX port (R78). -/

namespace Sys2Proof

/-- One operation of the block, with its operands as R76 assembles them: every operand is an 8-bit
field taken as is, but for the validator kind, which is `B[1:0]`. -/
inductive Instr where
  /-- NOP (R155). -/
  | nop
  /-- CRC_INIT (R102). -/
  | crcInit
  /-- CRC_BYTE `d` (R103). -/
  | crcByte (d : Byte)
  /-- ENC_START `a, c, n` (R120). -/
  | encStart (a c n : Byte)
  /-- ENC_BYTE `d` (R121). -/
  | encByte (d : Byte)
  /-- DEC_SETV `vk, vs` (R141); the kind is the raw field `B[1:0]`, in which 3 is illegal (R77(c)). -/
  | decSetv (vk : BitVec 2) (vs : Byte)
  /-- DEC_ARM `ea, ec` (R143). -/
  | decArm (ea ec : Byte)
  /-- DEC_CANCEL (R144). -/
  | decCancel
  /-- RX_BYTE `d`, an RX-port event (R145, R78). -/
  | rxByte (d : Byte)
  /-- RX_EOS, an RX-port event (R151, R78). -/
  | rxEos
  deriving DecidableEq, Repr

/-- Whether the operation is an event of the RX port and no command word (R77(a), R78). -/
def Instr.isRx : Instr → Bool
  | .nop => false
  | .crcInit => false
  | .crcByte _ => false
  | .encStart _ _ _ => false
  | .encByte _ => false
  | .decSetv _ _ => false
  | .decArm _ _ => false
  | .decCancel => false
  | .rxByte _ => true
  | .rxEos => true

/-- The encoder's two command words (R120, R121). -/
def Instr.isEnc : Instr → Bool
  | .nop => false
  | .crcInit => false
  | .crcByte _ => false
  | .encStart _ _ _ => true
  | .encByte _ => true
  | .decSetv _ _ => false
  | .decArm _ _ => false
  | .decCancel => false
  | .rxByte _ => false
  | .rxEos => false

/-- The CRC generator's two command words (R102, R103). -/
def Instr.isCrc : Instr → Bool
  | .nop => false
  | .crcInit => true
  | .crcByte _ => true
  | .encStart _ _ _ => false
  | .encByte _ => false
  | .decSetv _ _ => false
  | .decArm _ _ => false
  | .decCancel => false
  | .rxByte _ => false
  | .rxEos => false

/-- The decoder's command words and RX events (R141 to R151). -/
def Instr.isDec : Instr → Bool
  | .nop => false
  | .crcInit => false
  | .crcByte _ => false
  | .encStart _ _ _ => false
  | .encByte _ => false
  | .decSetv _ _ => true
  | .decArm _ _ => true
  | .decCancel => true
  | .rxByte _ => true
  | .rxEos => true

/-- The assembler's pseudo-instructions (R81). -/
inductive Pseudo where
  /-- `CRC_SEQ b0, ..., bk-1`. -/
  | crcSeq (bs : List Byte)
  /-- `SEND a, c, p0, ..., pn-1` (0 <= n <= 251). -/
  | send (a c : Byte) (p : List Byte)
  /-- `RECV ea, ec, vk, vs`. -/
  | recv (ea ec : Byte) (vk : BitVec 2) (vs : Byte)
  /-- `RECV_NEXT ea, ec`. -/
  | recvNext (ea ec : Byte)
  deriving DecidableEq, Repr

end Sys2Proof
end

