-- ==== Sys2Proof/WellFormed.lean ====
section
/-! DEFINITION. Which operations an encoding of the block can name (30_encoding.md R75, R76, R81). -/

namespace Sys2Proof

/-- The only operand restriction of the opcode map: DEC_SETV's kind is 0, 1 or 2 (R75, R77(c)).
Every other operand takes every value of its field (R76; a count of 252 to 255 is a legal word that
answers OVERFLOW, R120). -/
def Instr.wf : Instr → Bool
  | .nop => true
  | .crcInit => true
  | .crcByte _ => true
  | .encStart _ _ _ => true
  | .encByte _ => true
  | .decSetv vk _ => vk != 3
  | .decArm _ _ => true
  | .decCancel => true
  | .rxByte _ => true
  | .rxEos => true

/-- A pseudo-instruction the assembler can expand: SEND carries at most 251 payload bytes, and RECV
a kind DEC_SETV takes (R81, R75). -/
def Pseudo.wf : Pseudo → Bool
  | .crcSeq _ => true
  | .send _ _ p => p.length ≤ Config.maxPayload
  | .recv _ _ vk _ => vk != 3
  | .recvNext _ _ => true

end Sys2Proof
end

