-- ==== Sys2Proof/Decode.lean ====
section
/-! DEFINITION. The decoder of 32-bit command words (30_encoding.md R71, R75, R77), the encoder
written from the same opcode map, the expansion of the pseudo-instructions (R81) and the assembler
spelling (R80).

The decoder is total: every 32-bit word is an operation or is rejected by name. It reads a whole
word, not bytes: byte order does not arise at the CMD port (20_memory.md R52). -/

namespace Sys2Proof

/-- Field OP, bits [31:24] (R71). -/
def fieldOP (w : Word) : Byte := w.extractLsb' 24 8

/-- Field A, bits [23:16] (R71). -/
def fieldA (w : Word) : Byte := w.extractLsb' 16 8

/-- Field B, bits [15:8] (R71). -/
def fieldB (w : Word) : Byte := w.extractLsb' 8 8

/-- Field C, bits [7:0] (R71). -/
def fieldC (w : Word) : Byte := w.extractLsb' 0 8

/-- The word whose fields are `op`, `a`, `b`, `c` (R71). -/
def mkWord (op a b c : Byte) : Word := ((op ++ a) ++ b) ++ c

/-- The upper six bits of field B, which DEC_SETV requires to be zero: `B[7:2]` (R75). -/
def highB (b : Byte) : BitVec 6 := b.extractLsb' 2 6

/-- DEC_SETV's kind `B[1:0]` (R75, R76). -/
def kindB (b : Byte) : BitVec 2 := b.extractLsb' 0 2

/-- Why a 32-bit word names no operation (R77). -/
inductive DecodeReject where
  /-- OP is not in the opcode map (R77(a)). -/
  | reservedOp
  /-- A field or bit marked `=0` is nonzero (R77(b)). -/
  | nonzeroField
  /-- DEC_SETV with kind 3 (R77(c)). -/
  | kindThree
  /-- An RX-port code on the CMD port (R77(a)). -/
  | rxCode
  deriving DecidableEq, Repr

/-- What the decoder makes of a word: an operation, or a rejection by name. -/
inductive Decoded where
  | instr (i : Instr)
  | reject (r : DecodeReject)
  deriving DecidableEq, Repr

/-- The operation, where there is one. -/
def Decoded.instr? : Decoded → Option Instr
  | .instr i => some i
  | .reject _ => none

/-- A row whose `=0` fields are checked: the operation when `zero` holds, else the rejection (R77(b)). -/
def onlyIf (zero : Bool) (i : Instr) : Decoded :=
  if zero then .instr i else .reject .nonzeroField

/-- The opcode map over the four fields, the two RX spellings included (R75). -/
def decodeFields (op a b c : Byte) : Decoded :=
  match op.toNat with
  | 0x00 => onlyIf (a == 0 && b == 0 && c == 0) .nop
  | 0x01 => onlyIf (a == 0 && b == 0 && c == 0) .crcInit
  | 0x02 => onlyIf (a == 0 && b == 0) (.crcByte c)
  | 0x10 => .instr (.encStart a b c)
  | 0x11 => onlyIf (a == 0 && b == 0) (.encByte c)
  | 0x20 =>
    if a == 0 && highB b == 0 && kindB b == 3 then .reject .kindThree
    else onlyIf (a == 0 && highB b == 0) (.decSetv (kindB b) c)
  | 0x21 => onlyIf (c == 0) (.decArm a b)
  | 0x22 => onlyIf (a == 0 && b == 0 && c == 0) .decCancel
  | 0x30 => onlyIf (a == 0 && b == 0) (.rxByte c)
  | 0x31 => onlyIf (a == 0 && b == 0 && c == 0) .rxEos
  | _ => .reject .reservedOp

/-- The decoder over the whole opcode table (R75). -/
def decode (w : Word) : Decoded := decodeFields (fieldOP w) (fieldA w) (fieldB w) (fieldC w)

/-- The decoder of the CMD port: the two RX codes are not commands there (R77(a)). -/
def decodeCmd (w : Word) : Decoded :=
  if fieldOP w == 0x30 || fieldOP w == 0x31 then .reject .rxCode else decode w

/-- The word of an operation (R75, R76). -/
def encode : Instr → Word
  | .nop => mkWord 0x00 0 0 0
  | .crcInit => mkWord 0x01 0 0 0
  | .crcByte d => mkWord 0x02 0 0 d
  | .encStart a c n => mkWord 0x10 a c n
  | .encByte d => mkWord 0x11 0 0 d
  | .decSetv vk vs => mkWord 0x20 0 ((0 : BitVec 6) ++ vk) vs
  | .decArm ea ec => mkWord 0x21 ea ec 0
  | .decCancel => mkWord 0x22 0 0 0
  | .rxByte d => mkWord 0x30 0 0 d
  | .rxEos => mkWord 0x31 0 0 0

/-- A row's `match` value in spec/opcode_table.json (R75). -/
def rowMatch : Instr → Word
  | .nop => 0x00000000
  | .crcInit => 0x01000000
  | .crcByte _ => 0x02000000
  | .encStart _ _ _ => 0x10000000
  | .encByte _ => 0x11000000
  | .decSetv _ _ => 0x20000000
  | .decArm _ _ => 0x21000000
  | .decCancel => 0x22000000
  | .rxByte _ => 0x30000000
  | .rxEos => 0x31000000

/-- A row's `mask` value in spec/opcode_table.json (R75). -/
def rowMask : Instr → Word
  | .nop => 0xFFFFFFFF
  | .crcInit => 0xFFFFFFFF
  | .crcByte _ => 0xFFFFFF00
  | .encStart _ _ _ => 0xFF000000
  | .encByte _ => 0xFFFFFF00
  | .decSetv _ _ => 0xFFFFFC00
  | .decArm _ _ => 0xFF0000FF
  | .decCancel => 0xFFFFFFFF
  | .rxByte _ => 0xFFFFFF00
  | .rxEos => 0xFFFFFFFF

/-- The operation of a word given as a number, bit 0 its least significant bit. Every row of the
table is one word of 32 bits (R79). DESIGN CHOICE (log entry 17): a longer number names none. -/
def decodeTableWord (nbits w : Nat) : Option Instr :=
  if nbits ≤ 32 ∧ w < 2 ^ 32 then (decode (BitVec.ofNat 32 w)).instr? else none

/-- The expansion of a pseudo-instruction (R81). -/
def Pseudo.expand : Pseudo → List Instr
  | .crcSeq bs => .crcInit :: bs.map .crcByte
  | .send a c p => .encStart a c (BitVec.ofNat 8 p.length) :: p.map .encByte
  | .recv ea ec vk vs => [.decSetv vk vs, .decArm ea ec]
  | .recvNext ea ec => [.decArm ea ec]

/-- One hexadecimal digit. -/
def hexDigit (n : Nat) : String :=
  String.singleton (Nat.digitChar n).toUpper

/-- A byte as the assembler writes it, for example `0x1F` (R80). -/
def hexByte (b : Byte) : String :=
  "0x" ++ hexDigit (b.toNat / 16) ++ hexDigit (b.toNat % 16)

/-- The validator kind as the assembler may write it (R80); kind 3 has no name and is written as its
number. -/
def kindName (vk : BitVec 2) : String :=
  if vk = 0 then "ANY" else if vk = 1 then "EXACT" else if vk = 2 then "MIN" else "0x03"

/-- The assembler spelling of an operation: the mnemonic and the operands in field order (R80). -/
def Instr.asm : Instr → String
  | .nop => "NOP"
  | .crcInit => "CRC_INIT"
  | .crcByte d => "CRC_BYTE " ++ hexByte d
  | .encStart a c n => "ENC_START " ++ hexByte a ++ ", " ++ hexByte c ++ ", " ++ hexByte n
  | .encByte d => "ENC_BYTE " ++ hexByte d
  | .decSetv vk vs => "DEC_SETV " ++ kindName vk ++ ", " ++ hexByte vs
  | .decArm ea ec => "DEC_ARM " ++ hexByte ea ++ ", " ++ hexByte ec
  | .decCancel => "DEC_CANCEL"
  | .rxByte d => "RX_BYTE " ++ hexByte d
  | .rxEos => "RX_EOS"

/-- The assembler spelling of a host read of index `ri` (R80: `RD ri`). -/
def readAsm (ri : RegIndex) : String :=
  "RD 0x" ++ hexDigit (ri.toNat / 256) ++ hexDigit (ri.toNat / 16 % 16) ++ hexDigit (ri.toNat % 16)

end Sys2Proof
end

