-- ==== Sys2Proof/Machine/State.lean ====
section
/-! DEFINITION. The state of the CRA frame codec: the fields of 10_state.md R24 to R27 and the
payload buffer, with the reset values of R45, and beside them what the model needs to run the block
as one machine: the two output histories, the bytes the link holds, and the events still to come. -/

namespace Sys2Proof.Machine

/-- `enc_mode` (R25): 0 IDLE, 1 BODY. -/
inductive EncMode where
  | idle
  | body
  deriving DecidableEq, Repr

/-- `dec_mode` (R26): 0 IDLE, 1 HDR, 2 BODY, 3 DONE, 4 ERROR; 5 to 7 are never held (R47(g); log
entry 8). -/
inductive DecMode where
  | idle
  | hdr
  | body
  | done
  | error
  deriving DecidableEq, Repr

/-- `dec_err` (R26), the codes of R183. -/
inductive DecErr where
  /-- 0 NONE. -/
  | noError
  /-- 1 ADDR. -/
  | addr
  /-- 2 CMD. -/
  | cmd
  /-- 3 LEN. -/
  | len
  /-- 4 SIZE. -/
  | size
  /-- 5 CHECKSUM. -/
  | checksum
  /-- 6 TRANSPORT. -/
  | transport
  /-- 7 CANCELLED. -/
  | cancelled
  deriving DecidableEq, Repr

/-- `vkind` (R26): 0 ANY, 1 EXACT, 2 MIN; 3 is never held (R47(g)). -/
inductive ValKind where
  | any
  | exact
  | min
  deriving DecidableEq, Repr

/-- `result` (R27, R181): 0 OK, 1 ILLEGAL, 2 SEQUENCE, 3 OVERFLOW. -/
inductive Result where
  | ok
  | illegal
  | sequence
  | overflow
  deriving DecidableEq, Repr

/-- An addressed byte store in one canonical form: the cells listed are exactly those that do not
read as the reset content, in rising order of address. The block's only such store is the decoder's
payload buffer (R22). -/
abbrev Memory := List Host.Cell

/-- The encoder's state (R25). -/
structure Enc where
  /-- `enc_mode`, 1 bit. -/
  mode : EncMode
  /-- `enc_addr`, 8 bits. -/
  addr : Byte
  /-- `enc_cmd`, 8 bits. -/
  cmd : Byte
  /-- `enc_len`, 8 bits. -/
  len : Byte
  /-- `enc_rem`, 8 bits (0..251). -/
  rem : Byte
  /-- `enc_crc`, 16 bits. -/
  crc : Half
  deriving DecidableEq, Repr

/-- The decoder's state (R26). -/
structure Dec where
  /-- `dec_mode`, 3 bits. -/
  mode : DecMode
  /-- `dec_err`, 3 bits. -/
  err : DecErr
  /-- `dec_hcnt`, 2 bits. -/
  hcnt : BitVec 2
  /-- `exp_addr`, 8 bits. -/
  expAddr : Byte
  /-- `exp_cmd`, 8 bits. -/
  expCmd : Byte
  /-- `vkind`, 2 bits. -/
  vkind : ValKind
  /-- `vsize`, 8 bits. -/
  vsize : Byte
  /-- `obs_len`, 8 bits. -/
  obsLen : Byte
  /-- `obs_addr`, 8 bits. -/
  obsAddr : Byte
  /-- `obs_cmd`, 8 bits. -/
  obsCmd : Byte
  /-- `plen`, 8 bits (0..251). -/
  plen : Byte
  /-- `dec_rem`, 8 bits (0..253). -/
  rem : Byte
  /-- `dec_crc`, 16 bits. -/
  crc : Half
  /-- `rxcrc`, 16 bits. -/
  rxcrc : Half
  /-- `buf[0..250]`, 251 bytes. -/
  buf : Memory
  /-- `rx_closed`, 1 bit. -/
  rxClosed : Bool
  deriving DecidableEq, Repr

/-- One event of the total order in which the block takes them (R10, R20), and the one act of the
link that is no event of the block but changes what the link offers (R212). -/
inductive Event where
  /-- The host issues a command word on the CMD port. -/
  | cmd (w : Word)
  /-- The host reads index `ri` on the RD port. -/
  | rd (ri : RegIndex)
  /-- The link offers the oldest byte it holds on the RX port (RX_BYTE, R61, R150). -/
  | rxOffer
  /-- The link signals the end of the RX stream (RX_EOS, R151). -/
  | rxEos
  /-- The reset source drives the reset input (RST, R210). -/
  | rst
  /-- The host reopens the link, which from then on holds a fresh RX stream (R212; log entry 7). -/
  | reopen (stream : List Byte)
  deriving DecidableEq, Repr

/-- The named stops of the model. The block itself has none: it has no trap, and every event is
answered (R180). Each names a count that the pseudocode of a rule would take out of its range, which
R13 says never happens; no state that meets the invariant of R47 raises one, so each is safe: in the
states where it is raised the spec gives no meaning (R46; log entry 5). -/
inductive Fault where
  /-- Raised by ENC_BYTE in BODY with `enc_rem = 0`, which R47(a) excludes (R121: `enc_rem - 1`
  never goes below 0). Safe. -/
  | encRemBelowZero
  /-- Raised by RX_BYTE in HDR with `dec_hcnt = 3`, which R47(c) excludes. Safe. -/
  | decHcntFull
  /-- Raised by RX_BYTE in BODY with `dec_rem` outside 1 .. `plen + 2`, which R47(d) excludes. Safe. -/
  | decRemOutOfRange
  /-- Raised by RX_BYTE in BODY for a payload byte past `buf[250]`, which R47(d) excludes. Safe. -/
  | bufIndexOutOfRange
  deriving DecidableEq, Repr

/-- The refusals of the model. -/
inductive Refusal where
  /-- Raised by `exec` for an operation that has no meaning yet, by its mnemonic; no arm of this model
  raises it. Safe. -/
  | notModelled (mnemonic : String)
  deriving DecidableEq, Repr

/-- The whole machine. `crcAcc`, `enc`, `dec` and `result` are the block (R22, R24 to R27); the other
fields are the model's record of what surrounds it. -/
structure State where
  /-- `crc_acc`, 16 bits (R24). -/
  crcAcc : Half
  /-- The encoder (R25). -/
  enc : Enc
  /-- The decoder (R26). -/
  dec : Dec
  /-- `result`, 2 bits (R27). -/
  result : Result
  /-- The TX output history, oldest byte first (R28): an observation, never read by the block. -/
  tx : List Byte
  /-- The RD port's answers, oldest first: an observation (log entry 3). -/
  rdLog : List (RegIndex × Word)
  /-- The received bytes the link still holds, oldest first (R61, R150). -/
  link : List Byte
  /-- The events still to come, in the order the block takes them (R10; log entry 1). -/
  events : List Event
  deriving DecidableEq, Repr

/-- The encoder after reset (R45). -/
def Enc.reset : Enc :=
  { mode := .idle, addr := 0, cmd := 0, len := 0, rem := 0, crc := 0xFFFF }

/-- The decoder after reset (R45). The buffer's 251 bytes are 0x00: no cell is listed. -/
def Dec.reset : Dec :=
  { mode := .idle, err := .noError, hcnt := 0, expAddr := 0, expCmd := 0, vkind := .any, vsize := 0,
    obsLen := 0, obsAddr := 0, obsCmd := 0, plen := 0, rem := 0, crc := 0xFFFF, rxcrc := 0x0000,
    buf := [], rxClosed := false }

/-- The launch state: every field at its reset value (R45), an empty TX history (R213), no read made,
nothing held by the link and no event to come (log entry 15). -/
def State.reset : State :=
  { crcAcc := 0xFFFF, enc := Enc.reset, dec := Dec.reset, result := .ok,
    tx := [], rdLog := [], link := [], events := [] }

end Sys2Proof.Machine
end

