-- ==== Sys2Proof/Machine/Operands.lean ====
section
/-! DEFINITION. Operand forms: zero extension and the two halves of a CRC (00_scope.md R8), DEC_SETV's
kind (30_encoding.md R76), and the length arithmetic of the frame (R72, 42_decoder.md R145). -/

namespace Sys2Proof.Machine

/-- `zext_16(b)` (R8). -/
def zext16 (b : Byte) : Half := b.setWidth 16

/-- `zext_32(v)` of a byte (R8). -/
def zext32 (b : Byte) : Word := b.setWidth 32

/-- `lo8(c) = c[7:0]` (R8). -/
def lo8 (c : Half) : Byte := c.extractLsb' 0 8

/-- `hi8(c) = c[15:8]` (R8). -/
def hi8 (c : Half) : Byte := c.extractLsb' 8 8

/-- The validator kind DEC_SETV's operand names (R75); 3 names none. -/
def ValKind.ofBits (vk : BitVec 2) : Option ValKind :=
  if vk = 0 then some .any else if vk = 1 then some .exact else if vk = 2 then some .min else none

/-- The length byte of a frame with `n` payload bytes, `len = n + 4` (R72, R120). -/
def lenByte (n : Byte) : Byte := n + 4

/-- `len - 4`, the payload size (R145). -/
def payloadSize (len : Byte) : Byte := len - 4

/-- `len - 2`, the payload and the two CRC bytes (R145). -/
def bodySize (len : Byte) : Byte := len - 2

/-- `rxcrc` with bits [7:0] written (R145). -/
def setLo8 (c : Half) (d : Byte) : Half := hi8 c ++ d

/-- `rxcrc` with bits [15:8] written (R145). -/
def setHi8 (c : Half) (d : Byte) : Half := d ++ lo8 c

/-- The size validator `V(vk, vs, ps)` (R140). -/
def acceptsSize (vk : ValKind) (vs : Byte) (ps : Nat) : Bool :=
  match vk with
  | .any => true
  | .exact => ps == vs.toNat
  | .min => vs.toNat ≤ ps

end Sys2Proof.Machine
end

