-- ==== Sys2Proof/Machine/Flags.lean ====
section
/-! DEFINITION. The status computations: the numeric codes of the modes, errors and results, the
computed bit `rx_ready`, and the packing of the RD port's registers (10_state.md R25 to R42). -/

namespace Sys2Proof.Machine

/-- `enc_mode`'s code (R25). -/
def EncMode.code : EncMode → BitVec 1
  | .idle => 0
  | .body => 1

/-- `dec_mode`'s code (R26). -/
def DecMode.code : DecMode → BitVec 3
  | .idle => 0
  | .hdr => 1
  | .body => 2
  | .done => 3
  | .error => 4

/-- `dec_err`'s code (R183). -/
def DecErr.code : DecErr → BitVec 3
  | .noError => 0
  | .addr => 1
  | .cmd => 2
  | .len => 3
  | .size => 4
  | .checksum => 5
  | .transport => 6
  | .cancelled => 7

/-- `vkind`'s code (R26). -/
def ValKind.code : ValKind → BitVec 2
  | .any => 0
  | .exact => 1
  | .min => 2

/-- `result`'s code (R181). -/
def Result.code : Result → BitVec 2
  | .ok => 0
  | .illegal => 1
  | .sequence => 2
  | .overflow => 3

/-- One bit as a field. -/
def bit (b : Bool) : BitVec 1 := BitVec.ofBool b

/-- `rx_ready = (dec_mode in HDR, BODY, ERROR)`, computed and not stored (R33, R150). -/
def rxReady (d : Dec) : Bool :=
  match d.mode with
  | .idle => false
  | .hdr => true
  | .body => true
  | .done => false
  | .error => true

/-- Whether a read of the RX stream is pending: `dec_mode in HDR, BODY` (R141, R144, R151). -/
def readPending (d : Dec) : Bool :=
  match d.mode with
  | .idle => false
  | .hdr => true
  | .body => true
  | .done => false
  | .error => false

/-- A 16-bit register value, bits [31:16] zero (R30, R35, R39, R40). -/
def packHalf (c : Half) : Word := (0 : BitVec 16) ++ c

/-- CRC_VALUE (R30). -/
def regCrcValue (s : State) : Word := packHalf s.crcAcc

/-- CMD_RESULT (R31). -/
def regCmdResult (s : State) : Word := (0 : BitVec 30) ++ s.result.code

/-- ENC_STATUS (R32). -/
def regEncStatus (s : State) : Word :=
  ((((0 : BitVec 8) ++ s.enc.len) ++ s.enc.rem) ++ (0 : BitVec 7)) ++ s.enc.mode.code

/-- ENC_HDR (R34). -/
def regEncHdr (s : State) : Word := ((0 : BitVec 16) ++ s.enc.cmd) ++ s.enc.addr

/-- ENC_CRC (R35). -/
def regEncCrc (s : State) : Word := packHalf s.enc.crc

/-- DEC_STATUS (R33). -/
def regDecStatus (s : State) : Word :=
  (((((((0 : BitVec 20) ++ bit (rxReady s.dec)) ++ s.dec.hcnt) ++ bit s.dec.rxClosed) ++ (0 : BitVec 1))
    ++ s.dec.err.code) ++ (0 : BitVec 1)) ++ s.dec.mode.code

/-- DEC_EXP (R36). -/
def regDecExp (s : State) : Word :=
  (((s.dec.vsize ++ (0 : BitVec 6)) ++ s.dec.vkind.code) ++ s.dec.expCmd) ++ s.dec.expAddr

/-- DEC_OBS (R37). -/
def regDecObs (s : State) : Word :=
  (((0 : BitVec 8) ++ s.dec.obsCmd) ++ s.dec.obsAddr) ++ s.dec.obsLen

/-- DEC_PLEN (R38). -/
def regDecPlen (s : State) : Word := ((0 : BitVec 16) ++ s.dec.rem) ++ s.dec.plen

/-- DEC_CRC (R39). -/
def regDecCrc (s : State) : Word := packHalf s.dec.crc

/-- DEC_RXCRC (R40). -/
def regDecRxcrc (s : State) : Word := packHalf s.dec.rxcrc

/-- The interrupt a platform may derive outside the block (R191): nothing but the OPEN parameter
`CRA_IRQ` and the decoder's completion. The block's own rules never read it. -/
def platformIrq (s : State) : Bool :=
  Config.craIrq && (s.dec.mode == .done || s.dec.mode == .error)

end Sys2Proof.Machine
end

