-- ==== Sys2Proof/Machine/Ops.lean ====
section
/-! DEFINITION. The named operations every meaning is written over: the payload buffer, the CRC update
(40_crc.md R100, R101), the TX port, the command result, error entry and its only exit
(60_exceptions.md R185, R189), the register map (10_state.md R29), and the steps of the encoder and of
the decoder (41_encoder.md, 42_decoder.md). -/

namespace Sys2Proof.Machine

/-! ### The payload buffer -/

/-- What a byte of the buffer that no cell lists reads as: its reset content 0x00 (R45). -/
def Memory.blank : Byte := 0

/-- `buf[i]` (R9). -/
def Memory.read : Memory → Nat → Byte
  | [], _ => Memory.blank
  | (k, v) :: rest, i => if k = i then v else Memory.read rest i

/-- A cell put in front, unless it holds what an unlisted cell reads as. -/
def Memory.cons (i : Nat) (v : Byte) (m : Memory) : Memory :=
  if v = Memory.blank then m else (i, v) :: m

/-- `buf[i] <- v` (R9), kept in canonical form. -/
def Memory.write : Memory → Nat → Byte → Memory
  | [], i, v => Memory.cons i v []
  | (k, x) :: rest, i, v =>
    if i < k then Memory.cons i v ((k, x) :: rest)
    else if i = k then Memory.cons i v rest
    else (k, x) :: Memory.write rest i v

/-- The cells listed from address `lo` on rise strictly, lie inside the buffer and hold nothing an
unlisted cell reads as. -/
def Memory.wfFrom (lo : Nat) : Memory → Bool
  | [] => true
  | (k, v) :: rest =>
    decide (lo ≤ k) && decide (k < Config.bufSize) && decide (v ≠ Memory.blank) &&
      Memory.wfFrom (k + 1) rest

/-- The canonical form. -/
def Memory.wf (m : Memory) : Bool := Memory.wfFrom 0 m

/-- `buf[i], buf[i+1], ...`, `n` bytes. -/
def Memory.slice (m : Memory) : Nat → Nat → List Byte
  | _, 0 => []
  | i, n + 1 => m.read i :: Memory.slice m (i + 1) n

/-! ### The CRC -/

/-- One of the eight shift steps of R100: the low bit is tested before the shift, and the constant is
XORed in after it. -/
def crcShift (a : Half) : Half :=
  if a.getLsbD 0 then (a >>> 1) ^^^ Config.crcPoly else a >>> 1

/-- `n` shift steps. -/
def crcSteps : Nat → Half → Half
  | 0, a => a
  | n + 1, a => crcSteps n (crcShift a)

/-- `crc_byte(acc, b)` (R100). -/
def crcByte (acc : Half) (b : Byte) : Half := crcSteps 8 (acc ^^^ zext16 b)

/-- The CRC of `bs` continued from `acc` (R107). -/
def crcFold (acc : Half) (bs : List Byte) : Half := bs.foldl crcByte acc

/-- `crc16(s)` (R101). -/
def crc16 (bs : List Byte) : Half := crcFold Config.crcSeed bs

/-! ### Results, errors, reset -/

/-- `result <- r` (R9, R181). -/
def answer (r : Result) (s : State) : State := { s with result := r }

/-- The effect of an illegal command word: `result <- ILLEGAL` and nothing else (R77, R182). -/
def illegalWord (s : State) : State := answer .illegal s

/-- `raise DecError(code)`: entering the decoder's ERROR mode, the block's one form of taking an
exception. Nothing is saved and nothing else changes (R9, R185). -/
def raiseDecError (e : DecErr) (s : State) : State :=
  { s with dec := { s.dec with mode := .error, err := e } }

/-- The RST event, the only return from ERROR (R189, R210): every field of the block takes its reset
value. The histories, the bytes at the link and the events to come are not the block's and stay
(R28, R211, R212). -/
def resetBlock (s : State) : State :=
  { s with crcAcc := State.reset.crcAcc, enc := State.reset.enc, dec := State.reset.dec,
           result := State.reset.result }

/-! ### The TX port -/

/-- `emit(b)` for each byte of `bs`, in order (R9, R28). -/
def emit (bs : List Byte) (s : State) : State := { s with tx := s.tx ++ bs }

/-! ### The register map -/

/-- DEC_DATA[i] (R42). -/
def decData (s : State) (i : Nat) : Word :=
  if s.dec.mode = .done ∧ i < s.dec.plen.toNat then zext32 (s.dec.buf.read i) else 0

/-- `map(ri)`, the value the RD port returns (R29 to R44). -/
def readReg (s : State) (ri : RegIndex) : Word :=
  match ri.toNat with
  | 0x000 => regCrcValue s
  | 0x001 => regCmdResult s
  | 0x002 => regEncStatus s
  | 0x003 => regEncHdr s
  | 0x004 => regEncCrc s
  | 0x008 => regDecStatus s
  | 0x009 => regDecExp s
  | 0x00A => regDecObs s
  | 0x00B => regDecPlen s
  | 0x00C => regDecCrc s
  | 0x00D => regDecRxcrc s
  | k => if 0x100 ≤ k ∧ k ≤ 0x1FA then decData s (k - 0x100) else 0

/-- The payload of the frame a DONE decoder holds, `buf[0..plen-1]` (R149). -/
def donePayload (s : State) : List Byte := s.dec.buf.slice 0 s.dec.plen.toNat

/-! ### The encoder -/

/-- The tail of ENC_START and ENC_BYTE: with no payload byte owed the two CRC bytes are emitted, low
byte first, and the frame is complete; else it stays open (R50, R120, R121). -/
def closeFrame (s : State) : State :=
  if s.enc.rem = 0 then
    emit [lo8 s.enc.crc, hi8 s.enc.crc] { s with enc := { s.enc with mode := .idle } }
  else { s with enc := { s.enc with mode := .body } }

/-- ENC_START's effect once both checks have passed (R120). -/
def openFrame (a c n : Byte) (s : State) : State :=
  closeFrame (emit [lenByte n, a, c]
    { s with enc := { s.enc with addr := a, cmd := c, len := lenByte n, rem := n,
                                 crc := crcFold Config.crcSeed [lenByte n, a, c] } })

/-- ENC_BYTE's effect in BODY (R121). -/
def sendPayload (d : Byte) (s : State) : State :=
  closeFrame (emit [d]
    { s with enc := { s.enc with crc := crcByte s.enc.crc d, rem := s.enc.rem - 1 } })

/-! ### The decoder -/

/-- DEC_SETV's effect (R141). -/
def loadValidator (vk : ValKind) (vs : Byte) (s : State) : State :=
  { s with dec := { s.dec with vkind := vk, vsize := vs } }

/-- DEC_ARM's writes before its last line (R143); `vkind`, `vsize`, `rx_closed` and `buf` stay. -/
def armDecoder (ea ec : Byte) (s : State) : State :=
  { s with dec := { s.dec with
      expAddr := ea, expCmd := ec, mode := .hdr, err := .noError, hcnt := 0,
      obsLen := 0, obsAddr := 0, obsCmd := 0, plen := 0, rem := 0, crc := 0xFFFF, rxcrc := 0x0000 } }

/-- The byte goes back to the link, in front of the later ones: with `rx_ready = 0` the RX_BYTE event
does not happen and the link holds the byte (R61, R150). -/
def linkHolds (d : Byte) (s : State) : State := { s with link := d :: s.link }

/-- The first half of RX_BYTE in HDR: the CRC, the header field and the count (R145). -/
def recordHeader (d : Byte) (s : State) : State :=
  { s with dec := { s.dec with
      crc := crcByte s.dec.crc d,
      obsLen := if s.dec.hcnt = 0 then d else s.dec.obsLen,
      obsAddr := if s.dec.hcnt = 1 then d else s.dec.obsAddr,
      obsCmd := if s.dec.hcnt = 2 then d else s.dec.obsCmd,
      hcnt := s.dec.hcnt + 1 } }

/-- The four header checks, in the order of R147, and the entry to BODY (R145). -/
def checkHeader (s : State) : State :=
  if s.dec.obsAddr ≠ s.dec.expAddr then raiseDecError .addr s
  else if s.dec.obsCmd ≠ s.dec.expCmd then raiseDecError .cmd s
  else if s.dec.obsLen.toNat < 4 then raiseDecError .len s
  else if ¬ acceptsSize s.dec.vkind s.dec.vsize (payloadSize s.dec.obsLen).toNat then
    raiseDecError .size s
  else
    { s with dec := { s.dec with
        plen := payloadSize s.dec.obsLen, rem := bodySize s.dec.obsLen, mode := .body } }

/-- RX_BYTE in HDR (R145). -/
def rxHeader (d : Byte) (s : State) : Host.Outcome State Fault Refusal :=
  if s.dec.hcnt = 3 then .fault .decHcntFull
  else if s.dec.hcnt = 2 then .next (checkHeader (recordHeader d s))
  else .next (recordHeader d s)

/-- The position after the header of the byte being received, 0-based: `plen + 2 - dec_rem` (R145). -/
def bodyIndex (d : Dec) : Nat := d.plen.toNat + 2 - d.rem.toNat

/-- The first half of RX_BYTE in BODY: the CRC, the payload or CRC byte and the count (R145). -/
def recordBody (d : Byte) (s : State) : State :=
  { s with dec := { s.dec with
      crc := crcByte s.dec.crc d,
      buf := if 2 < s.dec.rem.toNat then s.dec.buf.write (bodyIndex s.dec) d else s.dec.buf,
      rxcrc := if 2 < s.dec.rem.toNat then s.dec.rxcrc
               else if s.dec.rem.toNat = 2 then setLo8 s.dec.rxcrc d else setHi8 s.dec.rxcrc d,
      rem := s.dec.rem - 1 } }

/-- The check on the frame's last byte (R145, R146). -/
def checkFrame (s : State) : State :=
  if s.dec.rem = 0 then
    if s.dec.crc = 0x0000 then { s with dec := { s.dec with mode := .done } }
    else raiseDecError .checksum s
  else s

/-- RX_BYTE in BODY (R145). The two faults are counts outside the ranges R13 and R47(d) give. -/
def rxBody (d : Byte) (s : State) : Host.Outcome State Fault Refusal :=
  if s.dec.rem.toNat = 0 ∨ s.dec.plen.toNat + 2 < s.dec.rem.toNat then .fault .decRemOutOfRange
  else if 2 < s.dec.rem.toNat ∧ Config.bufSize ≤ bodyIndex s.dec then .fault .bufIndexOutOfRange
  else .next (checkFrame (recordBody d s))

end Sys2Proof.Machine
end

