-- ==== Sys2Proof/Machine/Control.lean ====
section
/-! DEFINITION. The meaning of NOP (42_decoder.md R155). -/

namespace Sys2Proof.Machine

/-- NOP: `result <- OK` (R155). -/
def execNop (s : State) : Host.Outcome State Fault Refusal :=
  .next (answer .ok s)

end Sys2Proof.Machine
end

