-- ==== Sys2Proof/Machine/CrcGen.lean ====
section
/-! DEFINITION. The meanings of the CRC generator's words (40_crc.md R102, R103). -/

namespace Sys2Proof.Machine

/-- CRC_INIT: `crc_acc <- 0xFFFF; result <- OK` (R102). -/
def execCrcInit (s : State) : Host.Outcome State Fault Refusal :=
  .next (answer .ok { s with crcAcc := Config.crcSeed })

/-- CRC_BYTE: `crc_acc <- crc_byte(crc_acc, d); result <- OK` (R103). -/
def execCrcByte (d : Byte) (s : State) : Host.Outcome State Fault Refusal :=
  .next (answer .ok { s with crcAcc := crcByte s.crcAcc d })

end Sys2Proof.Machine
end

