-- ==== Sys2Proof/Machine/Decoder.lean ====
section
/-! DEFINITION. The meanings of the frame decoder's words (42_decoder.md R141, R143, R144). -/

namespace Sys2Proof.Machine

/-- DEC_SETV: ILLEGAL for kind 3, SEQUENCE while a frame is being read, else the validator is loaded
(R141, R187). -/
def execDecSetv (vk : BitVec 2) (vs : Byte) (s : State) : Host.Outcome State Fault Refusal :=
  match ValKind.ofBits vk with
  | none => .next (illegalWord s)
  | some k =>
    match s.dec.mode with
    | .hdr => .next (answer .sequence s)
    | .body => .next (answer .sequence s)
    | .idle => .next (answer .ok (loadValidator k vs s))
    | .done => .next (answer .ok (loadValidator k vs s))
    | .error => .next (answer .ok (loadValidator k vs s))

/-- DEC_ARM: SEQUENCE while a frame is being read and in ERROR; else the decoder is armed, and enters
ERROR with TRANSPORT at once when the RX stream has ended (R143). -/
def execDecArm (ea ec : Byte) (s : State) : Host.Outcome State Fault Refusal :=
  match s.dec.mode with
  | .hdr => .next (answer .sequence s)
  | .body => .next (answer .sequence s)
  | .error => .next (answer .sequence s)
  | .idle =>
    if s.dec.rxClosed then .next (raiseDecError .transport (answer .ok (armDecoder ea ec s)))
    else .next (answer .ok (armDecoder ea ec s))
  | .done =>
    if s.dec.rxClosed then .next (raiseDecError .transport (answer .ok (armDecoder ea ec s)))
    else .next (answer .ok (armDecoder ea ec s))

/-- DEC_CANCEL: OK, and CANCELLED when a read is pending (R144). -/
def execDecCancel (s : State) : Host.Outcome State Fault Refusal :=
  if readPending s.dec then .next (raiseDecError .cancelled (answer .ok s))
  else .next (answer .ok s)

end Sys2Proof.Machine
end

