-- ==== Sys2Proof/Machine/Encoder.lean ====
section
/-! DEFINITION. The meanings of the frame encoder's words (41_encoder.md R120, R121). -/

namespace Sys2Proof.Machine

/-- ENC_START: SEQUENCE with a frame open, then OVERFLOW for more than 251 bytes, else the header is
emitted, and the CRC with it when there is no payload (R120, R187). -/
def execEncStart (a c n : Byte) (s : State) : Host.Outcome State Fault Refusal :=
  match s.enc.mode with
  | .body => .next (answer .sequence s)
  | .idle =>
    if Config.maxPayload < n.toNat then .next (answer .overflow s)
    else .next (answer .ok (openFrame a c n s))

/-- ENC_BYTE: SEQUENCE with no frame open, else the byte is emitted, and the CRC after the last one
(R121). A frame that owes no byte is open in no reachable state (R47(a)); there it faults. -/
def execEncByte (d : Byte) (s : State) : Host.Outcome State Fault Refusal :=
  match s.enc.mode with
  | .idle => .next (answer .sequence s)
  | .body =>
    if s.enc.rem = 0 then .fault .encRemBelowZero
    else .next (answer .ok (sendPayload d s))

end Sys2Proof.Machine
end

