-- ==== Sys2Proof/Machine/Receive.lean ====
section
/-! DEFINITION. The meanings of the two RX-port events (42_decoder.md R145, R151). -/

namespace Sys2Proof.Machine

/-- RX_BYTE: with `rx_ready = 0` the event does not happen and the link holds the byte (R150; log entry 2); in ERROR
the byte is discarded; in HDR and BODY it is taken (R145). -/
def execRxByte (d : Byte) (s : State) : Host.Outcome State Fault Refusal :=
  match s.dec.mode with
  | .idle => .next (linkHolds d s)
  | .done => .next (linkHolds d s)
  | .error => .next s
  | .hdr => rxHeader d s
  | .body => rxBody d s

/-- RX_EOS: `rx_closed <- 1`, and TRANSPORT when a read is pending (R151). -/
def execRxEos (s : State) : Host.Outcome State Fault Refusal :=
  if readPending s.dec then
    .next (raiseDecError .transport { s with dec := { s.dec with rxClosed := true } })
  else .next { s with dec := { s.dec with rxClosed := true } }

end Sys2Proof.Machine
end

