-- ==== Sys2Proof/Machine/Dispatch.lean ====
section
/-! DEFINITION. The dispatch: one arm per operation of the opcode table (30_encoding.md R75). -/

namespace Sys2Proof.Machine

def exec (i : Instr) (s : State) : Host.Outcome State Fault Refusal :=
  match i with
  | .nop => Sys2Proof.Machine.execNop s
  | .crcInit => Sys2Proof.Machine.execCrcInit s
  | .crcByte d => Sys2Proof.Machine.execCrcByte d s
  | .encStart a c n => Sys2Proof.Machine.execEncStart a c n s
  | .encByte d => Sys2Proof.Machine.execEncByte d s
  | .decSetv vk vs => Sys2Proof.Machine.execDecSetv vk vs s
  | .decArm ea ec => Sys2Proof.Machine.execDecArm ea ec s
  | .decCancel => Sys2Proof.Machine.execDecCancel s
  | .rxByte d => Sys2Proof.Machine.execRxByte d s
  | .rxEos => Sys2Proof.Machine.execRxEos s

end Sys2Proof.Machine
end

