-- ==== Sys2Proof/Machine/Events.lean ====
section
/-! DEFINITION. What the block does with each event of its ports (00_scope.md R10, 10_state.md R21). -/

namespace Sys2Proof.Machine

/-- A word on the CMD port: the operation it names, or ILLEGAL (R77). -/
def takeCmd (w : Word) (s : State) : Host.Outcome State Fault Refusal :=
  match decodeCmd w with
  | .instr i => exec i s
  | .reject _ => .next (illegalWord s)

/-- A read on the RD port: the value goes to the host and no state of the block changes (R44;
log entry 3). -/
def takeRead (ri : RegIndex) (s : State) : Host.Outcome State Fault Refusal :=
  .next { s with rdLog := s.rdLog ++ [(ri, readReg s ri)] }

/-- The link offers the oldest byte it holds; with none to offer nothing happens (R61, R150;
log entries 11 and 13). -/
def takeRxOffer (s : State) : Host.Outcome State Fault Refusal :=
  match s.link with
  | [] => .next s
  | d :: rest => exec (.rxByte d) { s with link := rest }

/-- The link signals the end of the stream, whatever `rx_ready` is (R151; log entry 11). -/
def takeRxEos (s : State) : Host.Outcome State Fault Refusal := exec .rxEos s

/-- The reset input (R210). -/
def takeRst (s : State) : Host.Outcome State Fault Refusal := .next (resetBlock s)

/-- The host reopens the link: what it held is dropped and a fresh RX stream stands there (R212). The
block does not see it: `rx_closed` and the decoder stay until RST (log entry 7). -/
def takeReopen (stream : List Byte) (s : State) : Host.Outcome State Fault Refusal :=
  .next { s with link := stream }

/-- One event, taken whole (R10). -/
def takeEvent (e : Event) (s : State) : Host.Outcome State Fault Refusal :=
  match e with
  | .cmd w => takeCmd w s
  | .rd ri => takeRead ri s
  | .rxOffer => takeRxOffer s
  | .rxEos => takeRxEos s
  | .rst => takeRst s
  | .reopen stream => takeReopen stream s

/-- `s` with an operation put in front of the events to come, where its port presents it: a command
word on the CMD port; RX_BYTE's byte as the oldest the link holds; RX_EOS at the RX port. -/
def presentInstr (i : Instr) (w : Word) (s : State) : State :=
  match i with
  | .nop => { s with events := .cmd w :: s.events }
  | .crcInit => { s with events := .cmd w :: s.events }
  | .crcByte _ => { s with events := .cmd w :: s.events }
  | .encStart _ _ _ => { s with events := .cmd w :: s.events }
  | .encByte _ => { s with events := .cmd w :: s.events }
  | .decSetv _ _ => { s with events := .cmd w :: s.events }
  | .decArm _ _ => { s with events := .cmd w :: s.events }
  | .decCancel => { s with events := .cmd w :: s.events }
  | .rxByte d => { s with link := d :: s.link, events := .rxOffer :: s.events }
  | .rxEos => { s with events := .rxEos :: s.events }

/-- `s` with the operation of word number `w` of `nbits` bits presented as the next event; a 32-bit word
that names none is presented on the CMD port, where it is illegal (R77). DESIGN CHOICE (log entry 17): a
number that is not one 32-bit word (`nbits` or `w` too wide) is no word of the CMD port (R79), so nothing
is presented. -/
def presentWord (nbits w : Nat) (s : State) : State :=
  match decodeTableWord nbits w with
  | some i => presentInstr i (BitVec.ofNat 32 w) s
  | none => if nbits ≤ 32 ∧ w < 2 ^ 32 then { s with events := .cmd (BitVec.ofNat 32 w) :: s.events } else s

end Sys2Proof.Machine
end

