-- ==== Sys2Proof/Machine/Step.lean ====
section
/-! DEFINITION. One step: the block takes the next event of the total order; with none to come it holds
its state (00_scope.md R10, 10_state.md R20, 60_exceptions.md R200). -/

namespace Sys2Proof.Machine

/-- One step of the machine. -/
def step (s : State) : Host.Outcome State Fault Refusal :=
  match s.events with
  | [] => .next s
  | e :: rest => takeEvent e { s with events := rest }

/-- `s` with the operation whose word is `w` presented as the next event. The block fetches nothing
(R23, R65): its operations come from outside, and this stands for their coming (log
entry 1; for a number that is no 32-bit word, log entry 17). -/
def State.withFetchWord (s : State) (nbits w : Nat) : State := presentWord nbits w s

end Sys2Proof.Machine
end

