-- ==== Sys2Proof/Machine/Frame.lean ====
section
/-! DEFINITION. The pure functions the encoder and the decoder must agree with: the wire frame
(30_encoding.md R72, R74), `Encode` (41_encoder.md R122), `Decode` (42_decoder.md R152), and the
bit-serial form of the CRC (40_crc.md R108). -/

namespace Sys2Proof.Machine

/-- A payload size as the 8-bit count of ENC_START (R76). -/
def payloadCount (p : List Byte) : Byte := BitVec.ofNat 8 p.length

/-- `Encode(a, c, p)`; undefined for more than 251 bytes (R122). -/
def encodeFrame (a c : Byte) (p : List Byte) : Option (List Byte) :=
  if p.length ≤ Config.maxPayload then
    let h := [lenByte (payloadCount p), a, c] ++ p
    some (h ++ [lo8 (crc16 h), hi8 (crc16 h)])
  else none

/-- A well-formed frame: at least 5 bytes, a length byte that counts the bytes after it, and a zero
residue (R74). -/
def frameWf (f : List Byte) : Bool :=
  match f with
  | [] => false
  | len :: rest => decide (5 ≤ f.length) && decide (len.toNat = rest.length) && decide (crc16 f = 0x0000)

/-- The outcomes of `Decode` (R152). -/
inductive DecodeOutcome where
  /-- `DONE(p, k)`: payload `p`, `k` bytes consumed. -/
  | done (p : List Byte) (k : Nat)
  /-- `ERROR(code)`. -/
  | error (e : DecErr)
  /-- `PENDING`: more bytes are awaited. -/
  | pending
  deriving DecidableEq, Repr

/-- The outcome of a stream that is too short: TRANSPORT when it has ended (R152). -/
def shortRead (closed : Bool) : DecodeOutcome :=
  if closed then .error .transport else .pending

/-- `Decode(ea, ec, V(vk, vs), s, closed)` (R152). -/
def decodeFrame (ea ec : Byte) (vk : ValKind) (vs : Byte) (bytes : List Byte) (closed : Bool) :
    DecodeOutcome :=
  match bytes with
  | len :: addr :: cmd :: rest =>
    if addr ≠ ea then .error .addr
    else if cmd ≠ ec then .error .cmd
    else if len.toNat < 4 then .error .len
    else if ¬ acceptsSize vk vs (len.toNat - 4) then .error .size
    else if rest.length + 3 < len.toNat + 1 then shortRead closed
    else if crc16 (bytes.take (len.toNat + 1)) ≠ 0x0000 then .error .checksum
    else .done (rest.take (len.toNat - 4)) (len.toNat + 1)
  | _ => shortRead closed

/-- One bit of the bit-serial form, bit `i` of `b` (R108). -/
def crcBit (acc : Half) (b : Byte) (i : Nat) : Half :=
  let fb := Bool.xor (acc.getLsbD 0) (b.getLsbD i)
  (acc >>> 1) ^^^ (if fb then 0x8408 else 0x0000)

/-- The bit-serial form over the 8 bits, least significant first (R108). -/
def crcByteSerial (acc : Half) (b : Byte) : Half :=
  (List.range 8).foldl (fun a i => crcBit a b i) acc

end Sys2Proof.Machine
end

