-- ==== Sys2Proof/Safety.lean ====
section
/-! DEFINITION. The terms claims are stated in: the invariant of 10_state.md R47, runs over the events
to come, and which events an agent's words make. A safe run is one that meets no fault. -/

namespace Sys2Proof.Machine

/-- R47(a): the encoder owes 1 .. 251 bytes, at most `enc_len - 4`, exactly while a frame is open. -/
abbrev encInv (e : Enc) : Prop :=
  (e.mode = .idle → e.rem = 0) ∧
  (e.mode = .body → 1 ≤ e.rem.toNat ∧ e.rem.toNat ≤ 251 ∧ e.rem.toNat + 4 ≤ e.len.toNat)

/-- R47(b): an IDLE decoder is as reset left it, but for the validator and `rx_closed`. -/
abbrev decIdleInv (d : Dec) : Prop :=
  d.mode = .idle →
    d = { Dec.reset with vkind := d.vkind, vsize := d.vsize, rxClosed := d.rxClosed }

/-- R47(c). -/
abbrev decHdrInv (d : Dec) : Prop := d.mode = .hdr → d.hcnt.toNat ≤ 2

/-- R47(d); `plen = obs_len - 4` is the exact equation, no wrap. -/
abbrev decBodyInv (d : Dec) : Prop :=
  d.mode = .body →
    d.hcnt = 3 ∧ d.plen.toNat + 4 = d.obsLen.toNat ∧ 1 ≤ d.rem.toNat ∧
    d.rem.toNat ≤ d.plen.toNat + 2 ∧ d.obsAddr = d.expAddr ∧ d.obsCmd = d.expCmd

/-- R47(e). -/
abbrev decDoneInv (d : Dec) : Prop :=
  d.mode = .done → d.rem = 0 ∧ d.crc = 0x0000 ∧ d.plen.toNat + 4 = d.obsLen.toNat

/-- R47(f). -/
abbrev decErrInv (d : Dec) : Prop := d.mode = .error ↔ d.err ≠ .noError

/-- The invariant of R47, and the canonical form of the buffer. R47(g) holds by the types of the
modes and of the validator kind. -/
abbrev State.Inv (s : State) : Prop :=
  encInv s.enc ∧ decIdleInv s.dec ∧ decHdrInv s.dec ∧ decBodyInv s.dec ∧ decDoneInv s.dec ∧
  decErrInv s.dec ∧ s.dec.buf.wf = true

/-- The errors of the third header byte (R147). -/
def headerError : DecErr → Bool
  | .noError => false
  | .addr => true
  | .cmd => true
  | .len => true
  | .size => true
  | .checksum => false
  | .transport => false
  | .cancelled => false

/-- The bytes received so far of the frame in BODY or after it: the header, the payload bytes, the CRC
bytes (R145, R149). -/
def receivedFrame (d : Dec) : List Byte :=
  [d.obsLen, d.obsAddr, d.obsCmd] ++ d.buf.slice 0 (min d.plen.toNat (d.plen.toNat + 2 - d.rem.toNat)) ++
    (if 2 ≤ d.rem.toNat then [] else if d.rem.toNat = 1 then [lo8 d.rxcrc] else [lo8 d.rxcrc, hi8 d.rxcrc])

/-- What the decoder's fields say of the bytes received: `dec_crc` is their CRC (R26, R146); a header
field not yet received reads 0 (R37); `plen`, `dec_rem` and `rxcrc` are 0 until a header has passed
every check, and `plen` and `dec_rem` stay 0 when one fails (R38, R145); a checksum error leaves a
nonzero residue (R183). -/
abbrev decFrameInv (d : Dec) : Prop :=
  (d.hcnt ≠ 3 → d.plen = 0 ∧ d.rem = 0 ∧ d.rxcrc = 0x0000) ∧
  (d.hcnt = 0 → d.obsLen = 0 ∧ d.obsAddr = 0 ∧ d.obsCmd = 0 ∧ d.crc = crc16 []) ∧
  (d.hcnt = 1 → d.obsAddr = 0 ∧ d.obsCmd = 0 ∧ d.crc = crc16 [d.obsLen]) ∧
  (d.hcnt = 2 → d.obsCmd = 0 ∧ d.crc = crc16 [d.obsLen, d.obsAddr]) ∧
  (headerError d.err = true →
    d.hcnt = 3 ∧ d.plen = 0 ∧ d.rem = 0 ∧ d.crc = crc16 [d.obsLen, d.obsAddr, d.obsCmd]) ∧
  (d.hcnt = 3 → headerError d.err = false → d.crc = crc16 (receivedFrame d)) ∧
  (d.err = .checksum → d.hcnt = 3 ∧ d.rem = 0 ∧ d.crc ≠ 0x0000)

/-- What an open frame has put on TX: its header and the payload bytes supplied so far, last on the
stream, with `enc_crc` their CRC and `enc_rem` the bytes still owed (R25, R60). -/
def encFrameInv (s : State) : Prop :=
  s.enc.mode = .body →
    ∃ before p : List Byte,
      s.tx = before ++ (s.enc.len :: s.enc.addr :: s.enc.cmd :: p) ∧
      p.length + s.enc.rem.toNat + 4 = s.enc.len.toNat ∧
      s.enc.crc = crc16 (s.enc.len :: s.enc.addr :: s.enc.cmd :: p)

/-- `n` steps; a fault or a refusal ends the run. -/
def runSteps : Nat → State → Host.Outcome State Fault Refusal
  | 0, s => .next s
  | n + 1, s =>
    match step s with
    | .next t => runSteps n t
    | .fault r => .fault r
    | .refused r => .refused r

/-- Every event to come is taken, in order. -/
def runAll (s : State) : Host.Outcome State Fault Refusal := runSteps s.events.length s

/-- The state an outcome goes on in. -/
def nextState : Host.Outcome State Fault Refusal → Option State
  | .next s => some s
  | .fault _ => none
  | .refused _ => none

/-- The operation a command word event carries out. -/
def Event.cmdInstr : Event → Option Instr
  | .cmd w => (decodeCmd w).instr?
  | .rd _ => none
  | .rxOffer => none
  | .rxEos => none
  | .rst => none
  | .reopen _ => none

/-- The event is a command word of the encoder (ENC_START or ENC_BYTE). -/
def Event.isEncWord (e : Event) : Bool := (e.cmdInstr.map Instr.isEnc).getD false

/-- The event is a command word of the CRC generator. -/
def Event.isCrcWord (e : Event) : Bool := (e.cmdInstr.map Instr.isCrc).getD false

/-- The event acts on the decoder: its command words and the RX events. -/
def Event.isDecEvent : Event → Bool
  | .cmd w => ((decodeCmd w).instr?.map Instr.isDec).getD false
  | .rd _ => false
  | .rxOffer => true
  | .rxEos => true
  | .rst => false
  | .reopen _ => false

/-- The event is a command word, legal or not. -/
def Event.isCmd : Event → Bool
  | .cmd _ => true
  | .rd _ => false
  | .rxOffer => false
  | .rxEos => false
  | .rst => false
  | .reopen _ => false

/-- The command-word events of a list of operations (for an operation of the CMD port). -/
def cmdEvents (is : List Instr) : List Event := is.map (fun i => .cmd (encode i))

/-- `ILLEGAL` as R77 lists its grounds: (a) OP not one of the eight commands, (b) a nonzero field or
bit marked `=0`, (c) DEC_SETV with kind 3. Written apart from the decoder, field by field. -/
def illegalCmd (w : Word) : Prop :=
  (w.extractLsb' 24 8 : Byte) ∉ ([0x00, 0x01, 0x02, 0x10, 0x11, 0x20, 0x21, 0x22] : List Byte) ∨
  ((w.extractLsb' 24 8 : Byte) ∈ ([0x00, 0x01, 0x22] : List Byte) ∧
    (w.extractLsb' 0 24 : BitVec 24) ≠ 0) ∨
  ((w.extractLsb' 24 8 : Byte) ∈ ([0x02, 0x11] : List Byte) ∧
    (w.extractLsb' 8 16 : BitVec 16) ≠ 0) ∨
  ((w.extractLsb' 24 8 : Byte) = 0x20 ∧
    ((w.extractLsb' 10 14 : BitVec 14) ≠ 0 ∨ (w.extractLsb' 8 2 : BitVec 2) = 3)) ∨
  ((w.extractLsb' 24 8 : Byte) = 0x21 ∧ (w.extractLsb' 0 8 : BitVec 8) ≠ 0)

end Sys2Proof.Machine
end

