-- ==== Sys2Proof/Certificates/Slice0/Obligations.lean ====
section
/-! DEFINITION. The statements for the provers. Each docstring names the rule of spec/ it formalises;
where a clause rests on a choice of the model, it names the log entry. A record written out in full
after `exec` or `step` says the instruction's result and its whole frame at once. -/

open Sys2Proof Sys2Proof.Machine

/-! ### Encodings -/

/-- R75, R76: the word of a well-formed operation decodes to it, every operand at every value; a
command word does so on the CMD port too. -/
def Obligations.DecodeOfEncodeIsTheOperation : Prop :=
  ∀ i : Instr, i.wf = true →
    decode (encode i) = .instr i ∧ (i.isRx = false → decodeCmd (encode i) = .instr i)

/-- Each word has one meaning: a word that decodes to an operation is that operation's own word, and
the operation is well-formed (R75, R77). -/
def Obligations.EncodeOfDecodeIsTheWord : Prop :=
  ∀ (w : Word) (i : Instr), decode w = .instr i → i.wf = true ∧ encode i = w

/-- R75: `w` selects a row when `(w & mask) = match` (for DEC_SETV with `B[1:0] != 3` too), and then
it is the row's operation with the operands in their fields. -/
def Obligations.DecodeFollowsOpcodeMap : Prop :=
  ∀ w : Word,
    let a : Byte := w.extractLsb' 16 8
    let b : Byte := w.extractLsb' 8 8
    let c : Byte := w.extractLsb' 0 8
    (w &&& 0xFFFFFFFF = 0x00000000 ↔ decode w = .instr .nop) ∧
    (w &&& 0xFFFFFFFF = 0x01000000 ↔ decode w = .instr .crcInit) ∧
    (w &&& 0xFFFFFF00 = 0x02000000 ↔ decode w = .instr (.crcByte c)) ∧
    (w &&& 0xFF000000 = 0x10000000 ↔ decode w = .instr (.encStart a b c)) ∧
    (w &&& 0xFFFFFF00 = 0x11000000 ↔ decode w = .instr (.encByte c)) ∧
    ((w &&& 0xFFFFFC00 = 0x20000000 ∧ (w.extractLsb' 8 2 : BitVec 2) ≠ 3) ↔
      decode w = .instr (.decSetv (w.extractLsb' 8 2) c)) ∧
    (w &&& 0xFF0000FF = 0x21000000 ↔ decode w = .instr (.decArm a b)) ∧
    (w &&& 0xFFFFFFFF = 0x22000000 ↔ decode w = .instr .decCancel) ∧
    (w &&& 0xFFFFFF00 = 0x30000000 ↔ decode w = .instr (.rxByte c)) ∧
    (w &&& 0xFFFFFFFF = 0x31000000 ↔ decode w = .instr .rxEos)

/-- Words written out in the spec (R80, R141, R143 and the programs of 95_test_vectors.md) decode to
the operations it says they are. -/
def Obligations.SampleWordsDecode : Prop :=
  decode 0x00000000 = .instr .nop ∧
  decode 0x01000000 = .instr .crcInit ∧
  decode 0x02000031 = .instr (.crcByte 0x31) ∧
  decode 0x10002100 = .instr (.encStart 0x00 0x21 0x00) ∧
  decode 0x100012FB = .instr (.encStart 0x00 0x12 0xFB) ∧
  decode 0x110000DE = .instr (.encByte 0xDE) ∧
  decode 0x20000109 = .instr (.decSetv 1 9) ∧
  decode 0x21000200 = .instr (.decArm 0x00 0x02) ∧
  decode 0x22000000 = .instr .decCancel ∧
  decode 0x30000009 = .instr (.rxByte 0x09) ∧
  decode 0x31000000 = .instr .rxEos ∧
  decodeCmd 0x03000000 = .reject .reservedOp ∧
  decodeCmd 0x30000000 = .reject .rxCode ∧
  decodeCmd 0x20000300 = .reject .kindThree ∧
  decodeCmd 0x02010031 = .reject .nonzeroField

/-- R77: an illegal word sets `result` to ILLEGAL and changes nothing else. -/
def Obligations.IllegalWordSetsOnlyResult : Prop :=
  ∀ (s : State) (w : Word) (es : List Event), illegalCmd w →
    step { s with events := .cmd w :: es } = .next { s with events := es, result := .illegal }

/-- A word with none of R77's grounds is the word of exactly one operation of the CMD port. -/
def Obligations.EveryOtherWordIsACommand : Prop :=
  ∀ w : Word, ¬ illegalCmd w →
    ∃ i : Instr, decodeCmd w = .instr i ∧ i.isRx = false ∧ i.wf = true ∧ encode i = w

/-! ### Steps and command results -/

/-- A step runs the operation its event presents (R10): a command word's on the CMD port, RX_BYTE with
the oldest byte the link holds, RX_EOS. With no event to come the block holds its state (R200). Two
clauses are the model's own (log entry 13, DEDUCED): that an offer with no byte at the link, an event the
spec does not have, takes a step and keeps the state, and that having no event to come takes a step at
all. The queue of events, and that the word `withFetchWord` presents is run as the next step, are the
model's too (log entry 1). -/
def Obligations.StepRunsThePresentedOperation : Prop :=
  ∀ (s : State) (es : List Event),
    (∀ (w : Word) (i : Instr), decodeCmd w = .instr i →
      step { s with events := .cmd w :: es } = exec i { s with events := es }) ∧
    (∀ (d : Byte) (l : List Byte),
      step { s with link := d :: l, events := .rxOffer :: es }
        = exec (.rxByte d) { s with link := l, events := es }) ∧
    step { s with link := [], events := .rxOffer :: es } = .next { s with link := [], events := es } ∧
    step { s with events := .rxEos :: es } = exec .rxEos { s with events := es } ∧
    step { s with events := [] } = .next { s with events := [] } ∧
    (∀ i : Instr, i.wf = true → step (s.withFetchWord 32 (encode i).toNat) = exec i s)

/-- R181: which words answer which code (with R187's order for one command word: ILLEGAL, then SEQUENCE,
then OVERFLOW), and the numbers CMD_RESULT shows for them. R182: a word that is not answered OK changes
no field but `result` and emits nothing. -/
def Obligations.CommandResultCodes : Prop :=
  ∀ (s t : State) (w : Word) (es : List Event),
    step { s with events := .cmd w :: es } = .next t →
    let op : Byte := w.extractLsb' 24 8
    let outOfSequence : Prop :=
      (op = 0x10 ∧ s.enc.mode = .body) ∨ (op = 0x11 ∧ s.enc.mode = .idle) ∨
      (op = 0x20 ∧ (s.dec.mode = .hdr ∨ s.dec.mode = .body)) ∨
      (op = 0x21 ∧ (s.dec.mode = .hdr ∨ s.dec.mode = .body ∨ s.dec.mode = .error))
    let tooLong : Prop := op = 0x10 ∧ 251 < (w.extractLsb' 0 8 : Byte).toNat
    (t.result = .illegal ↔ illegalCmd w) ∧
    (t.result = .sequence ↔ ¬ illegalCmd w ∧ outOfSequence) ∧
    (t.result = .overflow ↔ ¬ illegalCmd w ∧ ¬ outOfSequence ∧ tooLong) ∧
    (t.result = .ok ↔ ¬ illegalCmd w ∧ ¬ outOfSequence ∧ ¬ tooLong) ∧
    (t.result ≠ .ok → t = { s with events := es, result := t.result }) ∧
    readReg t 0x001 = (match t.result with | .ok => 0 | .illegal => 1 | .sequence => 2 | .overflow => 3)

/-- R27: every command word writes `result` (what it held before makes no difference to what follows),
reset writes it to OK, and no other event writes it. -/
def Obligations.ResultWrittenByCommandWordsAndReset : Prop :=
  (∀ (s : State) (w : Word) (r : Result) (es : List Event),
    step { s with result := r, events := .cmd w :: es } = step { s with events := .cmd w :: es }) ∧
  (∀ (s t : State) (e : Event) (es : List Event),
    step { s with events := e :: es } = .next t →
    (e = .rst → t.result = .ok) ∧ (e ≠ .rst → e.isCmd = false → t.result = s.result)) ∧
  (Result.ok.code = 0 ∧ Result.illegal.code = 1 ∧ Result.sequence.code = 2 ∧ Result.overflow.code = 3)

/-! ### Results of the command words -/

/-- R155, NOP: its word, its effect and frame, and the illegal neighbours. -/
def Obligations.NopResult : Prop :=
  encode .nop = 0x00000000 ∧
  (∀ s : State, exec .nop s = .next { s with result := .ok }) ∧
  (∀ (s : State) (w : Word) (es : List Event),
    (w.extractLsb' 24 8 : Byte) = 0x00 → w ≠ 0x00000000 →
    step { s with events := .cmd w :: es } = .next { s with events := es, result := .illegal })

/-- R102, CRC_INIT: its word, its effect and frame, the illegal neighbours and the example. -/
def Obligations.CrcInitResult : Prop :=
  encode .crcInit = 0x01000000 ∧
  (∀ s : State, exec .crcInit s = .next { s with crcAcc := 0xFFFF, result := .ok }) ∧
  (∀ (s : State) (w : Word) (es : List Event),
    (w.extractLsb' 24 8 : Byte) = 0x01 → (w.extractLsb' 0 24 : BitVec 24) ≠ 0 →
    step { s with events := .cmd w :: es } = .next { s with events := es, result := .illegal }) ∧
  (∃ t u : State, exec (.crcByte 0x31) State.reset = .next t ∧ t.crcAcc = 0x2F8D ∧
    exec .crcInit t = .next u ∧ u.crcAcc = 0xFFFF)

/-- R103, CRC_BYTE: its word, its effect and frame, the illegal neighbours, the run after CRC_INIT and
the two values the rule gives. -/
def Obligations.CrcByteResult : Prop :=
  (∀ d : Byte, encode (.crcByte d) = 0x02000000 ||| d.setWidth 32) ∧
  (∀ (d : Byte) (s : State),
    exec (.crcByte d) s = .next { s with crcAcc := crcByte s.crcAcc d, result := .ok }) ∧
  (∀ (s : State) (w : Word) (es : List Event),
    (w.extractLsb' 24 8 : Byte) = 0x02 → (w.extractLsb' 8 16 : BitVec 16) ≠ 0 →
    step { s with events := .cmd w :: es } = .next { s with events := es, result := .illegal }) ∧
  (∀ (s : State) (bs : List Byte), ∃ t : State,
    runAll { s with events := cmdEvents (.crcInit :: bs.map .crcByte) } = .next t ∧
    t.crcAcc = crc16 bs) ∧
  crcByte 0xFFFF 0x00 = 0x0F87 ∧ crcByte 0xFFFF 0x04 = 0x49A3

/-- R120, ENC_START: SEQUENCE, then OVERFLOW, then the header, with the CRC when there is no payload;
its word and the example. -/
def Obligations.EncStartResult : Prop :=
  (∀ a c n : Byte, encode (.encStart a c n) = (((0x10 : Byte) ++ a) ++ c) ++ n) ∧
  (∀ (a c n : Byte) (s : State), s.enc.mode = .body →
    exec (.encStart a c n) s = .next { s with result := .sequence }) ∧
  (∀ (a c n : Byte) (s : State), s.enc.mode = .idle → 251 < n.toNat →
    exec (.encStart a c n) s = .next { s with result := .overflow }) ∧
  (∀ (a c n : Byte) (s : State), s.enc.mode = .idle → 1 ≤ n.toNat → n.toNat ≤ 251 →
    (n + 4).toNat = n.toNat + 4 ∧
    exec (.encStart a c n) s = .next
      { s with
        enc := { mode := .body, addr := a, cmd := c, len := n + 4, rem := n,
                 crc := crc16 [n + 4, a, c] },
        tx := s.tx ++ [n + 4, a, c], result := .ok }) ∧
  (∀ (a c : Byte) (s : State), s.enc.mode = .idle →
    exec (.encStart a c 0) s = .next
      { s with
        enc := { mode := .idle, addr := a, cmd := c, len := 4, rem := 0, crc := crc16 [4, a, c] },
        tx := s.tx ++ [4, a, c, lo8 (crc16 [4, a, c]), hi8 (crc16 [4, a, c])], result := .ok }) ∧
  (∃ t : State, step { State.reset with events := [.cmd 0x10002100] } = .next t ∧
    t.tx = [0x04, 0x00, 0x21, 0xD9, 0x6A] ∧ t.enc.mode = .idle ∧ t.enc.crc = 0x6AD9)

/-- R121, ENC_BYTE: SEQUENCE with no frame open, else the byte, and the CRC after the last one; its
word, the illegal neighbours and the example. -/
def Obligations.EncByteResult : Prop :=
  (∀ d : Byte, encode (.encByte d) = 0x11000000 ||| d.setWidth 32) ∧
  (∀ (d : Byte) (s : State), s.enc.mode = .idle →
    exec (.encByte d) s = .next { s with result := .sequence }) ∧
  (∀ (d : Byte) (s : State), s.enc.mode = .body → 2 ≤ s.enc.rem.toNat →
    exec (.encByte d) s = .next
      { s with enc := { s.enc with crc := crcByte s.enc.crc d, rem := s.enc.rem - 1 },
               tx := s.tx ++ [d], result := .ok }) ∧
  (∀ (d : Byte) (s : State), s.enc.mode = .body → s.enc.rem = 1 →
    exec (.encByte d) s = .next
      { s with enc := { s.enc with mode := .idle, crc := crcByte s.enc.crc d, rem := 0 },
               tx := s.tx ++ [d, lo8 (crcByte s.enc.crc d), hi8 (crcByte s.enc.crc d)],
               result := .ok }) ∧
  (∀ s : State, s.Inv → s.enc.mode = .body → 1 ≤ s.enc.rem.toNat) ∧
  (∀ (s : State) (w : Word) (es : List Event),
    (w.extractLsb' 24 8 : Byte) = 0x11 → (w.extractLsb' 8 16 : BitVec 16) ≠ 0 →
    step { s with events := .cmd w :: es } = .next { s with events := es, result := .illegal }) ∧
  (∃ t u v : State, exec (.encStart 0x00 0x01 0x02) State.reset = .next t ∧
    t.tx = [0x06, 0x00, 0x01] ∧ exec (.encByte 0x02) t = .next u ∧ u.tx = t.tx ++ [0x02] ∧
    exec (.encByte 0x04) u = .next v ∧ v.tx = u.tx ++ [0x04, 0x58, 0x24] ∧ v.enc.mode = .idle)

/-- R140: the validator function, on every kind, size and payload size. -/
def Obligations.SizeValidatorFunction : Prop :=
  ∀ (vs : Byte) (ps : Nat),
    (acceptsSize .any vs ps = true) ∧
    (acceptsSize .exact vs ps = true ↔ ps = vs.toNat) ∧
    (acceptsSize .min vs ps = true ↔ vs.toNat ≤ ps)

/-- R141, DEC_SETV: its word, the numbers of the kinds, ILLEGAL for kind 3 and for a nonzero `=0` field, SEQUENCE while a frame
is being read, else the two settings and nothing else; no other event but reset changes them. -/
def Obligations.DecSetvResult : Prop :=
  (∀ (vk : BitVec 2) (vs : Byte),
    encode (.decSetv vk vs) = (0x20000000 ||| (vk.setWidth 32 <<< 8)) ||| vs.setWidth 32) ∧
  (ValKind.any.code = 0 ∧ ValKind.exact.code = 1 ∧ ValKind.min.code = 2) ∧
  (∀ (vs : Byte) (s : State), exec (.decSetv 3 vs) s = .next { s with result := .illegal }) ∧
  (∀ (vk : BitVec 2) (vs : Byte) (s : State), vk ≠ 3 → s.dec.mode = .hdr ∨ s.dec.mode = .body →
    exec (.decSetv vk vs) s = .next { s with result := .sequence }) ∧
  (∀ (vk : ValKind) (vs : Byte) (s : State),
    s.dec.mode = .idle ∨ s.dec.mode = .done ∨ s.dec.mode = .error →
    exec (.decSetv vk.code vs) s
      = .next { s with dec := { s.dec with vkind := vk, vsize := vs }, result := .ok }) ∧
  (∀ (s : State) (w : Word) (es : List Event), (w.extractLsb' 24 8 : Byte) = 0x20 →
    (w.extractLsb' 10 14 : BitVec 14) ≠ 0 ∨ (w.extractLsb' 8 2 : BitVec 2) = 3 →
    step { s with events := .cmd w :: es } = .next { s with events := es, result := .illegal }) ∧
  (∀ (s t : State) (e : Event) (es : List Event),
    step { s with events := e :: es } = .next t → e ≠ .rst →
    (∀ (vk : BitVec 2) (vs : Byte), e.cmdInstr ≠ some (.decSetv vk vs)) →
    t.dec.vkind = s.dec.vkind ∧ t.dec.vsize = s.dec.vsize) ∧
  (∀ (vs : Byte) (ps : Nat), 252 ≤ vs.toNat → ps ≤ 251 → acceptsSize .exact vs ps = false) ∧
  (∀ ps : Nat, acceptsSize .min 0 ps = true) ∧
  (∃ t : State, step { State.reset with events := [.cmd 0x20000109] } = .next t ∧
    t.dec.vkind.code = 1 ∧ t.dec.vsize = 9)

/-- R143, DEC_ARM: its word, SEQUENCE in HDR, BODY and ERROR, else every decoder field but the
validator, `rx_closed` and `buf` is written, and a stream that has ended raises TRANSPORT; the payload
window reads 0 from there on; the example. -/
def Obligations.DecArmResult : Prop :=
  (∀ ea ec : Byte, encode (.decArm ea ec) = (((0x21 : Byte) ++ ea) ++ ec) ++ (0 : Byte)) ∧
  (∀ (ea ec : Byte) (s : State),
    s.dec.mode = .hdr ∨ s.dec.mode = .body ∨ s.dec.mode = .error →
    exec (.decArm ea ec) s = .next { s with result := .sequence }) ∧
  (∀ (ea ec : Byte) (s : State), s.dec.mode = .idle ∨ s.dec.mode = .done →
    exec (.decArm ea ec) s = .next
      { s with
        dec := { mode := if s.dec.rxClosed then .error else .hdr,
                 err := if s.dec.rxClosed then .transport else .noError,
                 hcnt := 0, expAddr := ea, expCmd := ec, vkind := s.dec.vkind, vsize := s.dec.vsize,
                 obsLen := 0, obsAddr := 0, obsCmd := 0, plen := 0, rem := 0, crc := 0xFFFF,
                 rxcrc := 0x0000, buf := s.dec.buf, rxClosed := s.dec.rxClosed },
        result := .ok }) ∧
  (∀ (ea ec : Byte) (s t : State) (i : Nat), s.dec.mode = .done → i ≤ 250 →
    exec (.decArm ea ec) s = .next t → readReg t (BitVec.ofNat 9 (0x100 + i)) = 0) ∧
  (∀ (s : State) (w : Word) (es : List Event),
    (w.extractLsb' 24 8 : Byte) = 0x21 → (w.extractLsb' 0 8 : Byte) ≠ 0 →
    step { s with events := .cmd w :: es } = .next { s with events := es, result := .illegal }) ∧
  (∃ t : State, step { State.reset with events := [.cmd 0x21000200] } = .next t ∧
    t.dec.mode = .hdr ∧ t.dec.expAddr = 0x00 ∧ t.dec.expCmd = 0x02 ∧ rxReady t.dec = true)

/-- R144, DEC_CANCEL: its word, CANCELLED in HDR and BODY, nothing but `result` otherwise, the illegal
neighbours. -/
def Obligations.DecCancelResult : Prop :=
  encode .decCancel = 0x22000000 ∧
  (∀ s : State, s.dec.mode = .hdr ∨ s.dec.mode = .body →
    exec .decCancel s = .next
      { s with dec := { s.dec with mode := .error, err := .cancelled }, result := .ok }) ∧
  (∀ s : State, s.dec.mode = .idle ∨ s.dec.mode = .done ∨ s.dec.mode = .error →
    exec .decCancel s = .next { s with result := .ok }) ∧
  (∀ (s : State) (w : Word) (es : List Event),
    (w.extractLsb' 24 8 : Byte) = 0x22 → w ≠ 0x22000000 →
    step { s with events := .cmd w :: es } = .next { s with events := es, result := .illegal }) ∧
  (∃ t : State,
    runAll { State.reset with
        link := [0x09, 0x00, 0x02, 0x00, 0xDE, 0xAD],
        events := .cmd 0x21000200 :: (List.replicate 6 .rxOffer ++ [.cmd 0x22000000]) } = .next t ∧
    t.dec.mode = .error ∧ t.dec.err = .cancelled)

/-! ### Results of the RX events -/

/-- R145 with R147, R148, RX_BYTE: what one byte does in each mode, header check by header check, body
byte by body byte, and the frame of each. With `rx_ready = 0` the event does not happen: the byte stays
at the link. A header that fails a check leaves `plen` and `dec_rem` 0 (over the invariant of
`StepKeepsReceivedFrame`). -/
def Obligations.RxByteResult : Prop :=
  (∀ d : Byte, encode (.rxByte d) = 0x30000000 ||| d.setWidth 32) ∧
  (∀ (d : Byte) (l : List Byte) (s : State) (es : List Event),
    s.dec.mode = .idle ∨ s.dec.mode = .done →
    step { s with link := d :: l, events := .rxOffer :: es }
      = .next { s with link := d :: l, events := es }) ∧
  (∀ (d : Byte) (s : State), s.dec.mode = .error → exec (.rxByte d) s = .next s) ∧
  (∀ (d : Byte) (s : State), s.dec.mode = .hdr → s.dec.hcnt = 0 →
    exec (.rxByte d) s = .next
      { s with dec := { s.dec with crc := crcByte s.dec.crc d, obsLen := d, hcnt := 1 } }) ∧
  (∀ (d : Byte) (s : State), s.dec.mode = .hdr → s.dec.hcnt = 1 →
    exec (.rxByte d) s = .next
      { s with dec := { s.dec with crc := crcByte s.dec.crc d, obsAddr := d, hcnt := 2 } }) ∧
  (∀ (d : Byte) (s : State), s.dec.mode = .hdr → s.dec.hcnt = 2 →
    let len := s.dec.obsLen
    let seen : Dec := { s.dec with crc := crcByte s.dec.crc d, obsCmd := d, hcnt := 3 }
    exec (.rxByte d) s = .next
      (if s.dec.obsAddr ≠ s.dec.expAddr then
        { s with dec := { seen with mode := .error, err := .addr } }
      else if d ≠ s.dec.expCmd then
        { s with dec := { seen with mode := .error, err := .cmd } }
      else if len.toNat < 4 then
        { s with dec := { seen with mode := .error, err := .len } }
      else if acceptsSize s.dec.vkind s.dec.vsize (len.toNat - 4) = false then
        { s with dec := { seen with mode := .error, err := .size } }
      else
        { s with dec := { seen with mode := .body, plen := BitVec.ofNat 8 (len.toNat - 4),
                                    rem := BitVec.ofNat 8 (len.toNat - 2) } })) ∧
  (∀ (d : Byte) (s : State), s.dec.mode = .body → s.dec.plen.toNat ≤ 251 → 2 < s.dec.rem.toNat →
    s.dec.rem.toNat ≤ s.dec.plen.toNat + 2 →
    exec (.rxByte d) s = .next
      { s with dec := { s.dec with
          crc := crcByte s.dec.crc d,
          buf := s.dec.buf.write (s.dec.plen.toNat + 2 - s.dec.rem.toNat) d,
          rem := s.dec.rem - 1 } }) ∧
  (∀ (d : Byte) (s : State), s.dec.mode = .body → s.dec.rem = 2 →
    exec (.rxByte d) s = .next
      { s with dec := { s.dec with
          crc := crcByte s.dec.crc d, rxcrc := hi8 s.dec.rxcrc ++ d, rem := 1 } }) ∧
  (∀ (d : Byte) (s : State), s.dec.mode = .body → s.dec.rem = 1 →
    let last : Dec := { s.dec with
      crc := crcByte s.dec.crc d, rxcrc := d ++ lo8 s.dec.rxcrc, rem := 0 }
    exec (.rxByte d) s = .next
      (if last.crc = 0x0000 then { s with dec := { last with mode := .done } }
       else { s with dec := { last with mode := .error, err := .checksum } })) ∧
  (∀ (d : Byte) (s t : State), s.dec.mode = .hdr → decFrameInv s.dec →
    exec (.rxByte d) s = .next t → t.dec.mode = .error → t.dec.plen = 0 ∧ t.dec.rem = 0) ∧
  (∃ t : State,
    runAll { State.reset with
        link := [0x09, 0x00, 0x02, 0x00, 0xDE, 0xAD, 0xBE, 0xEF, 0xCC, 0xC1],
        events := .cmd 0x20000201 :: .cmd 0x21000200 :: List.replicate 10 .rxOffer } = .next t ∧
    t.dec.mode = .done ∧ t.dec.plen = 5 ∧ donePayload t = [0x00, 0xDE, 0xAD, 0xBE, 0xEF] ∧
    t.dec.rxcrc = 0xC1CC)

/-- An RX_BYTE presented with `rx_ready = 0` gives its byte back to the link, in front of the later ones.
That is the model's way to write an event that R145 says does not happen (log entry 2). -/
def Obligations.RxByteNotReadyReturnsTheByte : Prop :=
  ∀ (d : Byte) (s : State), s.dec.mode = .idle ∨ s.dec.mode = .done →
    exec (.rxByte d) s = .next { s with link := d :: s.link }

/-- R151, RX_EOS: `rx_closed` in every mode, TRANSPORT in HDR and BODY, the first error kept in ERROR;
after the first it changes nothing, and in IDLE and DONE it makes the next DEC_ARM fail; the example. -/
def Obligations.RxEosResult : Prop :=
  encode .rxEos = 0x31000000 ∧
  (∀ s : State, s.dec.mode = .hdr ∨ s.dec.mode = .body →
    exec .rxEos s = .next
      { s with dec := { s.dec with rxClosed := true, mode := .error, err := .transport } }) ∧
  (∀ s : State, s.dec.mode = .idle ∨ s.dec.mode = .done ∨ s.dec.mode = .error →
    exec .rxEos s = .next { s with dec := { s.dec with rxClosed := true } }) ∧
  (∀ (s : State) (es : List Event),
    step { s with events := .rxEos :: es } = exec .rxEos { s with events := es }) ∧
  (∀ s t : State, exec .rxEos s = .next t → exec .rxEos t = .next t) ∧
  (∀ (ea ec : Byte) (s t : State), s.dec.mode = .idle ∨ s.dec.mode = .done → exec .rxEos s = .next t →
    ∃ u : State, exec (.decArm ea ec) t = .next u ∧ u.result = .ok ∧
      u.dec.mode = .error ∧ u.dec.err = .transport) ∧
  (∃ t : State,
    runAll { State.reset with
        link := [0x09, 0x00, 0x02, 0x00, 0xDE, 0xAD],
        events := .cmd 0x21000200 :: (List.replicate 6 .rxOffer ++ [.rxEos]) } = .next t ∧
    t.dec.mode = .error ∧ t.dec.err = .transport ∧ t.dec.rem = 4)

/-- R150: `rx_ready`, and what becomes of a byte offered without it, or in ERROR. -/
def Obligations.RxBackpressure : Prop :=
  ∀ (s : State) (d : Byte) (l : List Byte) (es : List Event),
    (rxReady s.dec = true ↔ s.dec.mode = .hdr ∨ s.dec.mode = .body ∨ s.dec.mode = .error) ∧
    (rxReady s.dec = false →
      step { s with link := d :: l, events := .rxOffer :: es }
        = .next { s with link := d :: l, events := es }) ∧
    (s.dec.mode = .error →
      step { s with link := d :: l, events := .rxOffer :: es }
        = .next { s with link := l, events := es })

/-! ### Reset -/

/-- R45: every field of the block after reset, and the CRC begun right after it. -/
def Obligations.ResetValues : Prop :=
  State.reset.crcAcc = 0xFFFF ∧ State.reset.result.code = 0 ∧
  State.reset.enc.mode.code = 0 ∧ State.reset.enc.addr = 0 ∧ State.reset.enc.cmd = 0 ∧
  State.reset.enc.len = 0 ∧ State.reset.enc.rem = 0 ∧ State.reset.enc.crc = 0xFFFF ∧
  State.reset.dec.mode.code = 0 ∧ State.reset.dec.err.code = 0 ∧ State.reset.dec.hcnt = 0 ∧
  State.reset.dec.expAddr = 0 ∧ State.reset.dec.expCmd = 0 ∧ State.reset.dec.vkind.code = 0 ∧
  State.reset.dec.vsize = 0 ∧ State.reset.dec.obsLen = 0 ∧ State.reset.dec.obsAddr = 0 ∧
  State.reset.dec.obsCmd = 0 ∧ State.reset.dec.plen = 0 ∧ State.reset.dec.rem = 0 ∧
  State.reset.dec.crc = 0xFFFF ∧ State.reset.dec.rxcrc = 0x0000 ∧
  (∀ i : Nat, i ≤ 250 → State.reset.dec.buf.read i = 0x00) ∧ State.reset.dec.rxClosed = false ∧
  (∀ bs : List Byte, ∃ t : State,
    runAll { State.reset with events := cmdEvents (bs.map .crcByte) } = .next t ∧ t.crcAcc = crc16 bs)

/-- R210: RST sets every field of the block to its reset value in one event, whatever the modes are, and
no other event leaves ERROR. What has been emitted stays on TX (R28, R211) and the bytes at the link stay
there (R212). -/
def Obligations.ResetEventSetsEveryField : Prop :=
  (∀ (s : State) (es : List Event), ∃ t : State,
    step { s with events := .rst :: es } = .next t ∧
    t.crcAcc = State.reset.crcAcc ∧ t.enc = State.reset.enc ∧ t.dec = State.reset.dec ∧
    t.result = State.reset.result ∧ t.tx = s.tx ∧ t.link = s.link ∧
    t.enc.mode = .idle ∧ t.dec.mode = .idle ∧ rxReady t.dec = false ∧ t.dec.vkind = .any ∧
    t.dec.vsize = 0 ∧ t.dec.rxClosed = false ∧ t.result = .ok ∧ t.crcAcc = 0xFFFF ∧
    t.enc.crc = 0xFFFF ∧ t.dec.crc = 0xFFFF) ∧
  (∀ (s t : State) (e : Event) (es : List Event), s.dec.mode = .error → e ≠ .rst →
    step { s with events := e :: es } = .next t → t.dec.mode = .error)

/-- The fields that are not the block's: the events to come lose the one taken, the read log grows by
reads only, the link's bytes change by offers and a reopened link only, TX by the encoder's words only
(log entries 1, 3, 4 and 7). -/
def Obligations.SurroundingFieldsFrame : Prop :=
  ∀ (s t : State) (e : Event) (es : List Event),
    step { s with events := e :: es } = .next t →
    t.events = es ∧
    ((∀ ri : RegIndex, e ≠ .rd ri) → t.rdLog = s.rdLog) ∧
    (e ≠ .rxOffer → (∀ l : List Byte, e ≠ .reopen l) → t.link = s.link) ∧
    (∀ l : List Byte, e = .reopen l →
      t = { s with events := es, link := l }) ∧
    (e.isEncWord = false → t.tx = s.tx)

/-! ### The register map -/

/-- R44: a read changes no state of the block (the model appends its answer to the host's log), so that
two reads with no event between them answer the same; the example. R43: an unmapped index reads 0. -/
def Obligations.ReadChangesNoState : Prop :=
  (∀ (s : State) (ri : RegIndex) (es : List Event),
    step { s with events := .rd ri :: es }
      = .next { s with events := es, rdLog := s.rdLog ++ [(ri, readReg s ri)] }) ∧
  (∀ (s t u : State) (ri : RegIndex) (es : List Event),
    step { s with events := .rd ri :: .rd ri :: es } = .next t → step t = .next u →
    u.rdLog = s.rdLog ++ [(ri, readReg s ri), (ri, readReg s ri)]) ∧
  readReg State.reset 0x000 = 0x0000FFFF ∧
  (∀ (s : State) (ri : RegIndex),
    (0x005 ≤ ri.toNat ∧ ri.toNat ≤ 0x007) ∨ (0x00E ≤ ri.toNat ∧ ri.toNat ≤ 0x0FF) ∨
      (0x1FB ≤ ri.toNat ∧ ri.toNat ≤ 0x1FF) →
    readReg s ri = 0)

/-- R30 to R32, R34, R35, R41: the CRC, result and encoder registers, field by field, reserved bits
zero, with their reset values. The numbers of `result` (R31) and of `enc_mode` (R25, R32: the bit is 1
exactly when a frame is open) are written out. -/
def Obligations.EncoderRegistersRead : Prop :=
  (∀ s : State,
    (readReg s 0x000).extractLsb' 0 16 = s.crcAcc ∧ (readReg s 0x000).extractLsb' 16 16 = (0 : Half) ∧
    (readReg s 0x001).extractLsb' 0 2 = s.result.code ∧
    (readReg s 0x001).extractLsb' 2 30 = (0 : BitVec 30) ∧
    (readReg s 0x002).extractLsb' 0 1 = s.enc.mode.code ∧
    (readReg s 0x002).extractLsb' 1 7 = (0 : BitVec 7) ∧
    (readReg s 0x002).extractLsb' 8 8 = s.enc.rem ∧ (readReg s 0x002).extractLsb' 16 8 = s.enc.len ∧
    (readReg s 0x002).extractLsb' 24 8 = (0 : Byte) ∧
    (readReg s 0x003).extractLsb' 0 8 = s.enc.addr ∧ (readReg s 0x003).extractLsb' 8 8 = s.enc.cmd ∧
    (readReg s 0x003).extractLsb' 16 16 = (0 : Half) ∧
    (readReg s 0x004).extractLsb' 0 16 = s.enc.crc ∧
    (readReg s 0x004).extractLsb' 16 16 = (0 : Half)) ∧
  (∀ s : State,
    ((readReg s 0x002).getLsbD 0 = true ↔ s.enc.mode = .body) ∧
    (readReg s 0x001).extractLsb' 0 2 = (match s.result with
      | .ok => (0 : BitVec 2) | .illegal => 1 | .sequence => 2 | .overflow => 3)) ∧
  readReg State.reset 0x000 = 0x0000FFFF ∧ readReg State.reset 0x001 = 0x00000000 ∧
  readReg State.reset 0x002 = 0x00000000 ∧ readReg State.reset 0x003 = 0x00000000 ∧
  readReg State.reset 0x004 = 0x0000FFFF

/-- R33, R36 to R41: the decoder registers, field by field, reserved bits zero, with their reset
values; `rx_ready` is computed from the mode. The numbers a read gives for each mode, validator kind (R26) and
error code (R183) are written out. Over the invariants: a header field not yet received reads
0 (R37), `plen` is nonzero only after a header passed every check (R38), DEC_CRC reads 0 in DONE (R39). -/
def Obligations.DecoderRegistersRead : Prop :=
  (∀ s : State,
    (readReg s 0x008).extractLsb' 0 3 = s.dec.mode.code ∧
    (readReg s 0x008).extractLsb' 3 1 = (0 : BitVec 1) ∧
    (readReg s 0x008).extractLsb' 4 3 = s.dec.err.code ∧
    (readReg s 0x008).extractLsb' 7 1 = (0 : BitVec 1) ∧
    (readReg s 0x008).getLsbD 8 = s.dec.rxClosed ∧
    (readReg s 0x008).extractLsb' 9 2 = s.dec.hcnt ∧
    ((readReg s 0x008).getLsbD 11 = true ↔
      s.dec.mode = .hdr ∨ s.dec.mode = .body ∨ s.dec.mode = .error) ∧
    (readReg s 0x008).extractLsb' 12 20 = (0 : BitVec 20)) ∧
  (∀ s : State,
    (readReg s 0x008).extractLsb' 0 3 = (match s.dec.mode with
      | .idle => (0 : BitVec 3) | .hdr => 1 | .body => 2 | .done => 3 | .error => 4) ∧
    (readReg s 0x008).extractLsb' 4 3 = (match s.dec.err with
      | .noError => (0 : BitVec 3) | .addr => 1 | .cmd => 2 | .len => 3 | .size => 4
      | .checksum => 5 | .transport => 6 | .cancelled => 7) ∧
    (readReg s 0x009).extractLsb' 16 2 = (match s.dec.vkind with
      | .any => (0 : BitVec 2) | .exact => 1 | .min => 2)) ∧
  (∀ s : State,
    (readReg s 0x009).extractLsb' 0 8 = s.dec.expAddr ∧
    (readReg s 0x009).extractLsb' 8 8 = s.dec.expCmd ∧
    (readReg s 0x009).extractLsb' 16 2 = s.dec.vkind.code ∧
    (readReg s 0x009).extractLsb' 18 6 = (0 : BitVec 6) ∧
    (readReg s 0x009).extractLsb' 24 8 = s.dec.vsize ∧
    (readReg s 0x00A).extractLsb' 0 8 = s.dec.obsLen ∧
    (readReg s 0x00A).extractLsb' 8 8 = s.dec.obsAddr ∧
    (readReg s 0x00A).extractLsb' 16 8 = s.dec.obsCmd ∧
    (readReg s 0x00A).extractLsb' 24 8 = (0 : Byte)) ∧
  (∀ s : State,
    (readReg s 0x00B).extractLsb' 0 8 = s.dec.plen ∧ (readReg s 0x00B).extractLsb' 8 8 = s.dec.rem ∧
    (readReg s 0x00B).extractLsb' 16 16 = (0 : Half) ∧
    (readReg s 0x00C).extractLsb' 0 16 = s.dec.crc ∧
    (readReg s 0x00C).extractLsb' 16 16 = (0 : Half) ∧
    (readReg s 0x00D).extractLsb' 0 16 = s.dec.rxcrc ∧
    (readReg s 0x00D).extractLsb' 16 16 = (0 : Half)) ∧
  (∀ s : State, s.Inv → decFrameInv s.dec →
    (s.dec.hcnt = 0 → readReg s 0x00A = 0) ∧
    (s.dec.hcnt.toNat ≤ 1 → (readReg s 0x00A).extractLsb' 8 16 = (0 : Half)) ∧
    (s.dec.hcnt.toNat ≤ 2 → (readReg s 0x00A).extractLsb' 16 8 = (0 : Byte)) ∧
    (s.dec.plen ≠ 0 → s.dec.hcnt = 3 ∧ headerError s.dec.err = false) ∧
    (s.dec.mode = .done → readReg s 0x00C = 0x00000000)) ∧
  readReg State.reset 0x008 = 0x00000000 ∧ readReg State.reset 0x009 = 0x00000000 ∧
  readReg State.reset 0x00A = 0x00000000 ∧ readReg State.reset 0x00B = 0x00000000 ∧
  readReg State.reset 0x00C = 0x0000FFFF ∧ readReg State.reset 0x00D = 0x00000000

/-- R42: the payload window reads `buf[i]` in DONE below `plen`, and 0 otherwise. -/
def Obligations.PayloadWindowReads : Prop :=
  ∀ (s : State) (i : Nat), i ≤ 250 →
    readReg s (BitVec.ofNat 9 (0x100 + i))
      = if s.dec.mode = .done ∧ i < s.dec.plen.toNat then (s.dec.buf.read i).setWidth 32 else 0

/-! ### The CRC -/

/-- R104: a message followed by its CRC, low byte first, has residue 0. -/
def Obligations.CrcZeroResidue : Prop :=
  ∀ m : List Byte, crc16 (m ++ [lo8 (crc16 m), hi8 (crc16 m)]) = 0x0000

/-- R105, R110: no other pair of bytes gives residue 0. -/
def Obligations.CrcResidueAcceptsOnlyTheCrc : Prop :=
  ∀ (m : List Byte) (x y : Byte),
    crc16 (m ++ [x, y]) = 0x0000 ↔ x = lo8 (crc16 m) ∧ y = hi8 (crc16 m)

/-- R106: for each byte the update is a bijection on 16-bit values. -/
def Obligations.CrcByteIsBijective : Prop :=
  ∀ b : Byte, Function.Bijective (fun a : Half => crcByte a b)

/-- R101: the CRC of the empty sequence is the seed, each further byte is folded in by `crc_byte`, and the
example. The last clause is R107: a CRC may be continued from the CRC of what came before. -/
def Obligations.CrcIsIncremental : Prop :=
  crc16 [] = 0xFFFF ∧
  (∀ (m : List Byte) (b : Byte), crc16 (m ++ [b]) = crcByte (crc16 m) b) ∧
  crc16 [0x04, 0x00, 0x21] = 0x6AD9 ∧
  (∀ m n : List Byte, crc16 (m ++ n) = n.foldl crcByte (crc16 m))

/-- R108: the bit-serial form gives the same value as `crc_byte`. -/
def Obligations.CrcBitSerialFormAgrees : Prop :=
  ∀ (acc : Half) (b : Byte), crcByteSerial acc b = crcByte acc b

/-- The CRC vectors C1 to C11 of 95_test_vectors.md, in that order, derived there from R100 and R101
(R109 gives C7 too). -/
def Obligations.CrcVectors : Prop :=
  crc16 [] = 0xFFFF ∧
  crc16 [0x00] = 0x0F87 ∧ crc16 [0x01] = 0x1E0E ∧ crc16 [0x80] = 0x8B8F ∧ crc16 [0xFF] = 0x00FF ∧
  crc16 [0x00, 0x00] = 0xF0B8 ∧
  crc16 [0x31, 0x32, 0x33, 0x34, 0x35, 0x36, 0x37, 0x38, 0x39] = 0x6F91 ∧
  crc16 [0x04, 0x00, 0x21] = 0x6AD9 ∧
  crc16 [0xFF, 0xFF, 0xFF, 0xFF, 0xFF] = 0x364B ∧
  crc16 [0x04, 0x00, 0x21, 0xD9, 0x6A] = 0x0000 ∧
  crc16 [0x09, 0x00, 0x02, 0x00, 0xDE, 0xAD, 0xBE, 0xEF, 0xCC, 0xC1] = 0x0000

/-! ### The frame and the encoder -/

/-- R122, R127: `Encode` is defined for at most 251 bytes, and there it is the length byte, the address,
the command, the payload and the CRC of all of these, low byte first, `|p| + 5` bytes. -/
def Obligations.EncodeFrameLayout : Prop :=
  ∀ (a c : Byte) (p : List Byte),
    (p.length ≤ 251 → ∃ (f : List Byte) (len : Byte),
      encodeFrame a c p = some f ∧ len.toNat = p.length + 4 ∧
      f = len :: a :: c :: (p ++ [lo8 (crc16 (len :: a :: c :: p)), hi8 (crc16 (len :: a :: c :: p))]) ∧
      f.length = p.length + 5) ∧
    (251 < p.length → encodeFrame a c p = none)

/-- R126: every encoded frame has residue 0 and is well-formed in the sense of R74. -/
def Obligations.EncodedFrameIsWellFormed : Prop :=
  ∀ (a c : Byte) (p f : List Byte), encodeFrame a c p = some f →
    crc16 f = 0x0000 ∧ frameWf f = true

/-- R123, R28: only ENC_START and ENC_BYTE emit, and what has been emitted is never retracted. -/
def Obligations.OnlyEncoderWordsEmit : Prop :=
  ∀ (s t : State) (e : Event) (es : List Event),
    step { s with events := e :: es } = .next t →
    (∃ bs : List Byte, t.tx = s.tx ++ bs) ∧ (e.isEncWord = false → t.tx = s.tx)

/-- R124, the stream law: from an IDLE encoder, ENC_START and its n ENC_BYTE words emit exactly
`Encode(a, c, p)` and leave the encoder IDLE, whatever other events but reset come in between. -/
def Obligations.EncoderStreamLaw : Prop :=
  ∀ (s : State) (a c : Byte) (p : List Byte) (es : List Event),
    s.Inv → s.enc.mode = .idle → p.length ≤ 251 →
    (∀ e ∈ es, e ≠ .rst) →
    es.filter Event.isEncWord
      = cmdEvents (.encStart a c (BitVec.ofNat 8 p.length) :: p.map .encByte) →
    ∃ (t : State) (f : List Byte),
      runAll { s with events := es } = .next t ∧ encodeFrame a c p = some f ∧
      t.tx = s.tx ++ f ∧ t.enc.mode = .idle

/-- R81: what the pseudo-instructions CRC_SEQ and SEND leave behind, and what RECV and RECV_NEXT
expand to. -/
def Obligations.PseudoInstructionEffects : Prop :=
  (∀ (s : State) (bs : List Byte), ∃ t : State,
    runAll { s with events := cmdEvents (Pseudo.crcSeq bs).expand } = .next t ∧ t.crcAcc = crc16 bs) ∧
  (∀ (s : State) (a c : Byte) (p : List Byte), s.enc.mode = .idle → p.length ≤ 251 →
    ∃ (t : State) (f : List Byte),
      runAll { s with events := cmdEvents (Pseudo.send a c p).expand } = .next t ∧
      encodeFrame a c p = some f ∧ t.tx = s.tx ++ f) ∧
  (∀ (ea ec : Byte) (vk : BitVec 2) (vs : Byte),
    (Pseudo.recv ea ec vk vs).expand = [.decSetv vk vs, .decArm ea ec]) ∧
  (∀ ea ec : Byte, (Pseudo.recvNext ea ec).expand = [.decArm ea ec])

/-! ### The decoder -/

/-- R153, the decoder law: arming an idle or DONE decoder and offering a byte stream ends in DONE with
the payload, in ERROR with the code, or in HDR or BODY, exactly as the function `Decode` of R152 says,
and after DONE the bytes past the frame are still at the link. The buffer's canonical form is the
model's invariant (log entry 6). -/
def Obligations.DecoderLaw : Prop :=
  ∀ (s : State) (ea ec : Byte) (bytes : List Byte) (closed : Bool),
    s.dec.mode = .idle ∨ s.dec.mode = .done → s.dec.rxClosed = false → s.dec.buf.wf = true →
    ∃ t : State,
      runAll { s with
          link := bytes,
          events := .cmd (encode (.decArm ea ec)) :: (List.replicate bytes.length .rxOffer ++ (if closed then [.rxEos] else [])) }
        = .next t ∧
      match decodeFrame ea ec s.dec.vkind s.dec.vsize bytes closed with
      | .done p k =>
        t.dec.mode = .done ∧ t.dec.plen.toNat = p.length ∧ donePayload t = p ∧
        (∀ (i : Nat) (h : i < p.length),
          readReg t (BitVec.ofNat 9 (0x100 + i)) = (p[i]'h).setWidth 32) ∧
        t.link = bytes.drop k
      | .error e => t.dec.mode = .error ∧ t.dec.err = e
      | .pending => t.dec.mode = .hdr ∨ t.dec.mode = .body

/-- R154: `Decode` of an encoded frame and any continuation gives the payload back, and otherwise the
first header check that fails. -/
def Obligations.DecodeOfEncodedFrame : Prop :=
  ∀ (a c ea ec : Byte) (p f rest : List Byte) (vk : ValKind) (vs : Byte) (closed : Bool),
    encodeFrame a c p = some f →
    decodeFrame ea ec vk vs (f ++ rest) closed
      = if a ≠ ea then .error .addr
        else if c ≠ ec then .error .cmd
        else if acceptsSize vk vs p.length = true then .done p (p.length + 5)
        else .error .size

/-- R124, R153 and R154 on the machine itself: a frame the block sends, presented to its own decoder on
a reopened link, is delivered whole, and what follows it stays at the link. -/
def Obligations.LoopbackDeliversThePayload : Prop :=
  ∀ (s : State) (a c : Byte) (p f rest : List Byte),
    s.Inv → s.enc.mode = .idle → s.dec.mode = .idle ∨ s.dec.mode = .done → s.dec.rxClosed = false →
    encodeFrame a c p = some f → acceptsSize s.dec.vkind s.dec.vsize p.length = true →
    ∃ t : State,
      runAll { s with
          events := cmdEvents (Pseudo.send a c p).expand ++ (.reopen (f ++ rest) ::
            .cmd (encode (.decArm a c)) :: List.replicate f.length .rxOffer) } = .next t ∧
      t.tx = s.tx ++ f ∧ t.dec.mode = .done ∧ donePayload t = p ∧ t.link = rest

/-- R189, R190: nothing but reset leaves ERROR, and the code and the fields recorded with it are kept;
only the validator and `rx_closed` may still change. DEC_ARM answers SEQUENCE there. -/
def Obligations.ErrorLeftOnlyByReset : Prop :=
  ∀ (s t : State) (e : Event) (es : List Event), s.dec.mode = .error →
    step { s with events := e :: es } = .next t →
    (e = .rst → t.dec.mode = .idle) ∧
    (e ≠ .rst →
      t.dec = { s.dec with vkind := t.dec.vkind, vsize := t.dec.vsize, rxClosed := t.dec.rxClosed }) ∧
    (∀ ea ec : Byte, e.cmdInstr = some (.decArm ea ec) → t.result = .sequence ∧ t.dec = s.dec) ∧
    (e = .rxOffer → t.dec = s.dec) ∧
    (e = .rxEos → t.dec = { s.dec with rxClosed := true }) ∧
    (e.cmdInstr = some .decCancel → t.dec = s.dec ∧ t.result = .ok)

/-- The moves between the decoder's modes, with the events that make them (R26, R47(b)): no event but
reset returns the decoder to IDLE. -/
def Obligations.DecoderModeMoves : Prop :=
  ∀ (s t : State) (e : Event) (es : List Event),
    step { s with events := e :: es } = .next t → e ≠ .rst → t.dec.mode ≠ s.dec.mode →
    ((s.dec.mode = .idle ∨ s.dec.mode = .done) ∧ (∃ ea ec : Byte, e.cmdInstr = some (.decArm ea ec)) ∧
      (t.dec.mode = .hdr ∨ (t.dec.mode = .error ∧ t.dec.err = .transport ∧ s.dec.rxClosed = true))) ∨
    (s.dec.mode = .hdr ∧ e = .rxOffer ∧ (t.dec.mode = .body ∨ (t.dec.mode = .error ∧
      (t.dec.err = .addr ∨ t.dec.err = .cmd ∨ t.dec.err = .len ∨ t.dec.err = .size)))) ∨
    (s.dec.mode = .body ∧ e = .rxOffer ∧
      (t.dec.mode = .done ∨ (t.dec.mode = .error ∧ t.dec.err = .checksum))) ∨
    ((s.dec.mode = .hdr ∨ s.dec.mode = .body) ∧ t.dec.mode = .error ∧
      ((e = .rxEos ∧ t.dec.err = .transport) ∨
        (e.cmdInstr = some .decCancel ∧ t.dec.err = .cancelled)))

/-- R223: while no byte and no end of stream arrives, an armed decoder stays as it is through every
event but DEC_CANCEL and reset, and each of these two ends the wait. (That the events may hold offers
with no byte at the link is the model's, log entry 13.) -/
def Obligations.ArmedDecoderWaits : Prop :=
  ∀ (s : State) (es : List Event), s.Inv → s.dec.mode = .hdr ∨ s.dec.mode = .body → s.link = [] →
    (∀ e ∈ es, e ≠ .rst ∧ e ≠ .rxEos ∧ e.cmdInstr ≠ some .decCancel ∧ ∀ l, e ≠ .reopen l) →
    ∃ t : State, runAll { s with events := es } = .next t ∧ t.dec = s.dec ∧
      (∃ u : State, step { t with events := [.cmd 0x22000000] } = .next u ∧
        u.dec.mode = .error ∧ u.dec.err = .cancelled) ∧
      (∃ u : State, step { t with events := [.rst] } = .next u ∧ u.dec.mode = .idle)

/-! ### Frames and independence -/

/-- NOP and the words of the CRC generator and the encoder leave the decoder, every byte of its buffer,
the read log, the link and the events to come as they were, and each leaves the other's state (R24,
R186, R193). -/
def Obligations.CrcAndEncoderWordsFrame : Prop :=
  ∀ (i : Instr) (s t : State), i.isDec = false → exec i s = .next t →
    t.dec = s.dec ∧ (∀ j : Nat, t.dec.buf.read j = s.dec.buf.read j) ∧
    t.rdLog = s.rdLog ∧ t.link = s.link ∧ t.events = s.events ∧
    (i.isCrc = false → t.crcAcc = s.crcAcc) ∧
    (i.isEnc = false → t.enc = s.enc ∧ t.tx = s.tx)

/-- DEC_SETV, DEC_ARM and DEC_CANCEL leave the CRC generator, the encoder, TX, the read log, the link,
the events to come, `rx_closed` and every byte of the buffer as they were; DEC_SETV leaves every
decoder field but the validator, DEC_ARM the validator, DEC_CANCEL every field but the mode and the
error code (R141, R143, R144). -/
def Obligations.DecoderWordsFrame : Prop :=
  ∀ (i : Instr) (s t : State), i.isDec = true → i.isRx = false → exec i s = .next t →
    t.crcAcc = s.crcAcc ∧ t.enc = s.enc ∧ t.tx = s.tx ∧ t.rdLog = s.rdLog ∧ t.link = s.link ∧
    t.events = s.events ∧ t.dec.rxClosed = s.dec.rxClosed ∧
    (∀ j : Nat, t.dec.buf.read j = s.dec.buf.read j) ∧
    (∀ (vk : BitVec 2) (vs : Byte), i = .decSetv vk vs →
      t.dec = { s.dec with vkind := t.dec.vkind, vsize := t.dec.vsize }) ∧
    (∀ ea ec : Byte, i = .decArm ea ec →
      t.dec.vkind = s.dec.vkind ∧ t.dec.vsize = s.dec.vsize) ∧
    (i = .decCancel → t.dec = { s.dec with mode := t.dec.mode, err := t.dec.err })

/-- The RX events leave `result`, the CRC generator, the encoder, TX, the read log, the events to come,
the expected header and the validator as they were. RX_BYTE stores to one byte of the buffer, at the
position after the header, only in BODY with more than the two CRC bytes to come, and every other byte
reads as before; in every other case, and in RX_EOS, every byte does (R145, R151). -/
def Obligations.RxEventsFrame : Prop :=
  ∀ (i : Instr) (s t : State), i.isRx = true → s.dec.buf.wf = true → exec i s = .next t →
    t.result = s.result ∧ t.crcAcc = s.crcAcc ∧ t.enc = s.enc ∧ t.tx = s.tx ∧ t.rdLog = s.rdLog ∧
    t.events = s.events ∧ t.dec.expAddr = s.dec.expAddr ∧ t.dec.expCmd = s.dec.expCmd ∧
    t.dec.vkind = s.dec.vkind ∧ t.dec.vsize = s.dec.vsize ∧
    (i = .rxEos → t.dec.buf = s.dec.buf ∧ t.link = s.link) ∧
    (∀ d : Byte, i = .rxByte d →
      t.dec.rxClosed = s.dec.rxClosed ∧
      (s.dec.mode = .body ∧ 2 < s.dec.rem.toNat →
        t.dec.buf.read (bodyIndex s.dec) = d ∧
        ∀ j : Nat, j ≠ bodyIndex s.dec → t.dec.buf.read j = s.dec.buf.read j) ∧
      (¬ (s.dec.mode = .body ∧ 2 < s.dec.rem.toNat) →
        ∀ j : Nat, t.dec.buf.read j = s.dec.buf.read j))

/-- The buffer's accesses (R9): a byte reads as last written, every other byte as before, and the
canonical form is kept, so that equal contents are equal data (log entry 6). -/
def Obligations.BufferReadAfterWrite : Prop :=
  (∀ (m : Memory) (i : Nat) (v : Byte), m.wf = true → i < 251 →
    (m.write i v).wf = true ∧ (m.write i v).read i = v ∧
    ∀ j : Nat, j ≠ i → (m.write i v).read j = m.read j) ∧
  (∀ m n : Memory, m.wf = true → n.wf = true → (∀ i : Nat, i ≤ 250 → m.read i = n.read i) → m = n)

/-- R193, R186, D7: the three sub-blocks share no state. What one event does to each of them, and what
it emits, depends on that sub-block alone (for the decoder, with the bytes the link holds). -/
def Obligations.SubBlocksShareNoState : Prop :=
  ∀ (s s' t t' : State) (e : Event) (es fs : List Event),
    step { s with events := e :: es } = .next s' → step { t with events := e :: fs } = .next t' →
    (s.crcAcc = t.crcAcc → s'.crcAcc = t'.crcAcc) ∧
    (s.enc = t.enc → s'.enc = t'.enc ∧
      ∃ bs : List Byte, s'.tx = s.tx ++ bs ∧ t'.tx = t.tx ++ bs) ∧
    (s.dec = t.dec → s.link = t.link → s'.dec = t'.dec ∧ s'.link = t'.link)

/-- R24 to R26: each field is written only by the events its row names (by the decoder's command words
and RX events, the encoder's words, the CRC generator's words, and reset). -/
def Obligations.FieldsWrittenOnlyByTheirEvents : Prop :=
  ∀ (s t : State) (e : Event) (es : List Event),
    step { s with events := e :: es } = .next t → e ≠ .rst →
    (e.isCrcWord = false → t.crcAcc = s.crcAcc) ∧
    (e.isEncWord = false → t.enc = s.enc) ∧
    (e.isDecEvent = false → t.dec = s.dec) ∧
    ((∀ a c n : Byte, e.cmdInstr ≠ some (.encStart a c n)) →
      t.enc.addr = s.enc.addr ∧ t.enc.cmd = s.enc.cmd ∧ t.enc.len = s.enc.len) ∧
    ((∀ ea ec : Byte, e.cmdInstr ≠ some (.decArm ea ec)) →
      t.dec.expAddr = s.dec.expAddr ∧ t.dec.expCmd = s.dec.expCmd) ∧
    ((∀ ea ec : Byte, e.cmdInstr ≠ some (.decArm ea ec)) → e ≠ .rxOffer →
      t.dec.hcnt = s.dec.hcnt ∧ t.dec.obsLen = s.dec.obsLen ∧ t.dec.obsAddr = s.dec.obsAddr ∧
      t.dec.obsCmd = s.dec.obsCmd ∧ t.dec.plen = s.dec.plen ∧ t.dec.rem = s.dec.rem ∧
      t.dec.crc = s.dec.crc ∧ t.dec.rxcrc = s.dec.rxcrc) ∧
    ((∀ (vk : BitVec 2) (vs : Byte), e.cmdInstr ≠ some (.decSetv vk vs)) →
      t.dec.vkind = s.dec.vkind ∧ t.dec.vsize = s.dec.vsize) ∧
    ((∀ ea ec : Byte, e.cmdInstr ≠ some (.decArm ea ec)) → e.cmdInstr ≠ some .decCancel →
      e ≠ .rxOffer → e ≠ .rxEos → t.dec.mode = s.dec.mode ∧ t.dec.err = s.dec.err) ∧
    (e ≠ .rxOffer → t.dec.buf = s.dec.buf) ∧
    (e ≠ .rxEos → t.dec.rxClosed = s.dec.rxClosed)

/-! ### Invariants -/

/-- The invariants hold at reset: R47, and what the decoder's fields and TX say of the frames. -/
def Obligations.InvariantHoldsAtReset : Prop :=
  State.reset.Inv ∧ decFrameInv State.reset.dec ∧ encFrameInv State.reset

/-- Every step keeps the invariant of R47, from every state that meets it. -/
def Obligations.StepKeepsInvariant : Prop :=
  ∀ s t : State, s.Inv → step s = .next t → t.Inv

/-- Every step keeps what the decoder's fields say of the bytes received: `dec_crc` is the CRC of all of
them, byte for byte as stored, in every mode (R26, R37, R38, R146, R183). -/
def Obligations.StepKeepsReceivedFrame : Prop :=
  ∀ s t : State, s.Inv → decFrameInv s.dec → step s = .next t → decFrameInv t.dec

/-- R146, R149, R74, R40: in DONE the received bytes are one well-formed frame that carries the payload
the host reads, and `rxcrc` is the CRC of what came before it. -/
def Obligations.DoneHoldsAWellFormedFrame : Prop :=
  ∀ s : State, s.Inv → decFrameInv s.dec → s.dec.mode = .done →
    let h := s.dec.obsLen :: s.dec.obsAddr :: s.dec.obsCmd :: donePayload s
    receivedFrame s.dec = h ++ [lo8 s.dec.rxcrc, hi8 s.dec.rxcrc] ∧
    frameWf (receivedFrame s.dec) = true ∧ s.dec.rxcrc = crc16 h ∧
    (receivedFrame s.dec).length = s.dec.obsLen.toNat + 1

/-- Every step keeps what an open frame has put on TX: its bytes stand last on the stream, with no byte
between them, `enc_crc` is their CRC and `enc_rem` the payload still owed (R25, R60, R217). -/
def Obligations.StepKeepsOpenFrameOnTx : Prop :=
  ∀ s t : State, s.Inv → encFrameInv s → step s = .next t → encFrameInv t

/-- R13, R180: from a state that meets the invariant no count leaves its range, so every step goes on:
the block has no trap. -/
def Obligations.StepNeverStopsUnderInvariant : Prop :=
  ∀ s : State, s.Inv → ∃ t : State, step s = .next t ∧ t.Inv

/-- Where the model stops: exactly where a count of R121 or R145 would leave its range, which R13 and
R47 say no reachable state does (log entry 5). -/
def Obligations.StopsOnlyOnCountsOutOfRange : Prop :=
  ∀ (i : Instr) (s : State),
    (∃ t : State, exec i s = .next t) ∨
    (∃ d : Byte, i = .encByte d ∧ s.enc.mode = .body ∧ s.enc.rem = 0 ∧
      exec i s = .fault .encRemBelowZero) ∨
    (∃ d : Byte, i = .rxByte d ∧ s.dec.mode = .hdr ∧ s.dec.hcnt = 3 ∧ exec i s = .fault .decHcntFull) ∨
    (∃ d : Byte, i = .rxByte d ∧ s.dec.mode = .body ∧
      (s.dec.rem = 0 ∨ s.dec.plen.toNat + 2 < s.dec.rem.toNat) ∧
      exec i s = .fault .decRemOutOfRange) ∨
    (∃ d : Byte, i = .rxByte d ∧ s.dec.mode = .body ∧ 2 < s.dec.rem.toNat ∧
      251 ≤ s.dec.plen.toNat + 2 - s.dec.rem.toNat ∧ exec i s = .fault .bufIndexOutOfRange)
end

