-- ==== Sys2Proof/Laws/Crc.lean ====
section
/-! SUPPORT. Small laws of the CRC: the fold, and the shift steps as an exclusive-or homomorphism. -/

namespace Sys2Proof.Machine

@[simp] theorem crcFold_nil (acc : Half) : crcFold acc [] = acc := rfl

@[simp] theorem crcFold_cons (acc : Half) (b : Byte) (bs : List Byte) :
    crcFold acc (b :: bs) = crcFold (crcByte acc b) bs := rfl

theorem crcFold_append (acc : Half) (bs cs : List Byte) :
    crcFold acc (bs ++ cs) = crcFold (crcFold acc bs) cs := by
  simp [crcFold]

@[simp] theorem crcShift_zero : crcShift 0 = 0 := by decide

@[simp] theorem crcSteps_zero (n : Nat) : crcSteps n 0 = 0 := by
  induction n with
  | zero => rfl
  | succ n ih => rw [crcSteps, crcShift_zero, ih]

/-- One shift step distributes over exclusive or. -/
theorem crcShift_xor (a b : Half) : crcShift (a ^^^ b) = crcShift a ^^^ crcShift b := by
  unfold crcShift
  have h : (a ^^^ b) >>> 1 = (a >>> 1) ^^^ (b >>> 1) := by
    rw [BitVec.ushiftRight_xor_distrib]
  rw [BitVec.getLsbD_xor, h]
  cases ha : a.getLsbD 0 <;> cases hb : b.getLsbD 0
  · simp
  · simp [BitVec.xor_assoc]
  · simp only [Bool.true_xor, Bool.not_false, if_true, Bool.false_eq_true]
    rw [BitVec.xor_assoc, BitVec.xor_comm (b >>> 1), ← BitVec.xor_assoc]
    simp
  · simp only [Bool.true_xor, Bool.not_true, Bool.false_eq_true, if_false, if_true]
    rw [BitVec.xor_assoc (a >>> 1), BitVec.xor_comm Config.crcPoly, BitVec.xor_assoc (b >>> 1)]
    simp

/-- So do any number of them. -/
theorem crcSteps_xor (n : Nat) : ∀ a b : Half, crcSteps n (a ^^^ b) = crcSteps n a ^^^ crcSteps n b := by
  induction n with
  | zero => intro a b; rfl
  | succ n ih => intro a b; rw [crcSteps, crcShift_xor, ih]; rfl

end Sys2Proof.Machine
end

