-- ==== Sys2Proof/Laws/Decode.lean ====
section
/-! SUPPORT. The fields of a word built from fields, and a word as its fields. -/

namespace Sys2Proof

/-- The number of an appended pair. -/
theorem append_toNat {m n : Nat} (x : BitVec m) (y : BitVec n) :
    (x ++ y).toNat = x.toNat * 2 ^ n + y.toNat := by
  rw [BitVec.toNat_append, ← Nat.shiftLeft_add_eq_or_of_lt y.isLt, Nat.shiftLeft_eq]

/-- The number of a word from its fields. -/
theorem mkWord_toNat (op a b c : Byte) :
    (mkWord op a b c).toNat = ((op.toNat * 256 + a.toNat) * 256 + b.toNat) * 256 + c.toNat := by
  show (((op ++ a) ++ b) ++ c).toNat = _
  rw [append_toNat, append_toNat, append_toNat]
  omega

/-- The number of a bit field. -/
theorem extract_toNat {w : Nat} (x : BitVec w) (lo n : Nat) :
    (x.extractLsb' lo n).toNat = x.toNat / 2 ^ lo % 2 ^ n := by
  rw [BitVec.extractLsb'_toNat, Nat.shiftRight_eq_div_pow]

@[simp] theorem fieldOP_mkWord (op a b c : Byte) : fieldOP (mkWord op a b c) = op := by
  apply BitVec.eq_of_toNat_eq
  rw [fieldOP, extract_toNat, mkWord_toNat]
  omega

@[simp] theorem fieldA_mkWord (op a b c : Byte) : fieldA (mkWord op a b c) = a := by
  apply BitVec.eq_of_toNat_eq
  rw [fieldA, extract_toNat, mkWord_toNat]
  omega

@[simp] theorem fieldB_mkWord (op a b c : Byte) : fieldB (mkWord op a b c) = b := by
  apply BitVec.eq_of_toNat_eq
  rw [fieldB, extract_toNat, mkWord_toNat]
  omega

@[simp] theorem fieldC_mkWord (op a b c : Byte) : fieldC (mkWord op a b c) = c := by
  apply BitVec.eq_of_toNat_eq
  rw [fieldC, extract_toNat, mkWord_toNat]
  omega

/-- A word is the word of its four fields. -/
theorem mkWord_fields (w : Word) : mkWord (fieldOP w) (fieldA w) (fieldB w) (fieldC w) = w := by
  apply BitVec.eq_of_toNat_eq
  rw [mkWord_toNat, fieldOP, fieldA, fieldB, fieldC, extract_toNat, extract_toNat, extract_toNat,
    extract_toNat]
  omega

/-- DEC_SETV's field B as its two parts (R75). -/
theorem setvB_toNat (vk : BitVec 2) : (0#6 ++ vk).toNat = vk.toNat := by
  rw [append_toNat]; simp

@[simp] theorem kindB_setvB (vk : BitVec 2) : kindB (0#6 ++ vk) = vk := by
  apply BitVec.eq_of_toNat_eq
  rw [kindB, extract_toNat, setvB_toNat]
  omega

@[simp] theorem highB_setvB (vk : BitVec 2) : highB (0#6 ++ vk) = 0#6 := by
  apply BitVec.eq_of_toNat_eq
  rw [highB, extract_toNat, setvB_toNat]
  have := vk.isLt
  simp only [BitVec.toNat_ofNat]
  omega

/-- A field B whose upper six bits are zero is its kind. -/
theorem setvB_of_highB {b : Byte} (h : highB b = 0#6) : (0#6 ++ kindB b) = b := by
  apply BitVec.eq_of_toNat_eq
  have h' := congrArg BitVec.toNat h
  rw [highB, extract_toNat] at h'
  rw [setvB_toNat, kindB, extract_toNat]
  simp only [BitVec.toNat_ofNat] at h'
  omega

theorem onlyIf_eq_instr {z : Bool} {i j : Instr} (h : onlyIf z i = .instr j) : z = true ∧ j = i := by
  cases z
  · cases h
  · cases h; exact ⟨rfl, rfl⟩

/-- What four fields that decode to an operation are: the rows of R75, one by one. -/
theorem decodeFields_instr {op a b c : Byte} {i : Instr} (h : decodeFields op a b c = .instr i) :
    (op = 0x00 ∧ a = 0 ∧ b = 0 ∧ c = 0 ∧ i = .nop) ∨
    (op = 0x01 ∧ a = 0 ∧ b = 0 ∧ c = 0 ∧ i = .crcInit) ∨
    (op = 0x02 ∧ a = 0 ∧ b = 0 ∧ i = .crcByte c) ∨
    (op = 0x10 ∧ i = .encStart a b c) ∨
    (op = 0x11 ∧ a = 0 ∧ b = 0 ∧ i = .encByte c) ∨
    (op = 0x20 ∧ a = 0 ∧ highB b = 0 ∧ kindB b ≠ 3 ∧ i = .decSetv (kindB b) c) ∨
    (op = 0x21 ∧ c = 0 ∧ i = .decArm a b) ∨
    (op = 0x22 ∧ a = 0 ∧ b = 0 ∧ c = 0 ∧ i = .decCancel) ∨
    (op = 0x30 ∧ a = 0 ∧ b = 0 ∧ i = .rxByte c) ∨
    (op = 0x31 ∧ a = 0 ∧ b = 0 ∧ c = 0 ∧ i = .rxEos) := by
  unfold decodeFields at h
  split at h <;> rename_i heq
  · obtain rfl : op = 0x00 := BitVec.eq_of_toNat_eq heq
    obtain ⟨hz, rfl⟩ := onlyIf_eq_instr h
    simp only [Bool.and_eq_true, beq_iff_eq] at hz
    simp [hz]
  · obtain rfl : op = 0x01 := BitVec.eq_of_toNat_eq heq
    obtain ⟨hz, rfl⟩ := onlyIf_eq_instr h
    simp only [Bool.and_eq_true, beq_iff_eq] at hz
    simp [hz]
  · obtain rfl : op = 0x02 := BitVec.eq_of_toNat_eq heq
    obtain ⟨hz, rfl⟩ := onlyIf_eq_instr h
    simp only [Bool.and_eq_true, beq_iff_eq] at hz
    simp [hz]
  · obtain rfl : op = 0x10 := BitVec.eq_of_toNat_eq heq
    cases h; simp
  · obtain rfl : op = 0x11 := BitVec.eq_of_toNat_eq heq
    obtain ⟨hz, rfl⟩ := onlyIf_eq_instr h
    simp only [Bool.and_eq_true, beq_iff_eq] at hz
    simp [hz]
  · obtain rfl : op = 0x20 := BitVec.eq_of_toNat_eq heq
    split at h
    · cases h
    · rename_i hk
      obtain ⟨hz, rfl⟩ := onlyIf_eq_instr h
      simp only [Bool.and_eq_true, beq_iff_eq] at hz hk
      have h3 : kindB b ≠ 3 := fun h3 => hk ⟨hz, h3⟩
      exact Or.inr (Or.inr (Or.inr (Or.inr (Or.inr (Or.inl ⟨rfl, hz.1, hz.2, h3, rfl⟩)))))
  · obtain rfl : op = 0x21 := BitVec.eq_of_toNat_eq heq
    obtain ⟨hz, rfl⟩ := onlyIf_eq_instr h
    simp only [beq_iff_eq] at hz
    simp [hz]
  · obtain rfl : op = 0x22 := BitVec.eq_of_toNat_eq heq
    obtain ⟨hz, rfl⟩ := onlyIf_eq_instr h
    simp only [Bool.and_eq_true, beq_iff_eq] at hz
    simp [hz]
  · obtain rfl : op = 0x30 := BitVec.eq_of_toNat_eq heq
    obtain ⟨hz, rfl⟩ := onlyIf_eq_instr h
    simp only [Bool.and_eq_true, beq_iff_eq] at hz
    simp [hz]
  · obtain rfl : op = 0x31 := BitVec.eq_of_toNat_eq heq
    obtain ⟨hz, rfl⟩ := onlyIf_eq_instr h
    simp only [Bool.and_eq_true, beq_iff_eq] at hz
    simp [hz]
  · cases h

end Sys2Proof
end

