-- ==== Sys2Proof/Laws/Memory.lean ====
section
/-! SUPPORT. The payload buffer: every memory operation keeps the canonical form, and what a read sees
after a write. -/

namespace Sys2Proof.Machine

@[simp] theorem Memory.read_nil (i : Nat) : Memory.read [] i = Memory.blank := rfl

@[simp] theorem Memory.wf_nil : Memory.wf [] = true := rfl

theorem Memory.wfFrom_cons {lo k : Nat} {v : Byte} {m : Memory} :
    Memory.wfFrom lo ((k, v) :: m) = true ↔
      lo ≤ k ∧ k < Config.bufSize ∧ v ≠ Memory.blank ∧ Memory.wfFrom (k + 1) m = true := by
  simp [Memory.wfFrom, and_assoc]

/-- The form from a lower address on is the weaker claim. -/
theorem Memory.wfFrom_mono {lo lo' : Nat} (h : lo' ≤ lo) :
    ∀ {m : Memory}, Memory.wfFrom lo m = true → Memory.wfFrom lo' m = true
  | [], _ => rfl
  | (k, v) :: m, hm => by
    rw [Memory.wfFrom_cons] at hm ⊢
    exact ⟨le_trans h hm.1, hm.2⟩

/-- Below the first address a canonical memory may list, nothing is listed. -/
theorem Memory.read_below {lo i : Nat} (h : i < lo) :
    ∀ {m : Memory}, Memory.wfFrom lo m = true → m.read i = Memory.blank
  | [], _ => rfl
  | (k, v) :: m, hm => by
    rw [Memory.wfFrom_cons] at hm
    have hk : k ≠ i := by omega
    simp only [Memory.read, if_neg hk]
    exact Memory.read_below (show i < k + 1 by omega) hm.2.2.2

theorem Memory.wfFrom_consCell {lo i : Nat} {v : Byte} {m : Memory} (hi : i < Config.bufSize)
    (hlo : lo ≤ i) (hm : Memory.wfFrom (i + 1) m = true) :
    Memory.wfFrom lo (Memory.cons i v m) = true := by
  unfold Memory.cons
  split
  · exact Memory.wfFrom_mono (by omega) hm
  · exact Memory.wfFrom_cons.2 ⟨hlo, hi, ‹_›, hm⟩

theorem Memory.wfFrom_write {i : Nat} {v : Byte} (hi : i < Config.bufSize) :
    ∀ {m : Memory} {lo : Nat}, lo ≤ i → Memory.wfFrom lo m = true →
      Memory.wfFrom lo (m.write i v) = true
  | [], _, hlo, _ => Memory.wfFrom_consCell hi hlo rfl
  | (k, x) :: m, lo, hlo, hm => by
    have hm' := Memory.wfFrom_cons.1 hm
    unfold Memory.write
    split
    · exact Memory.wfFrom_consCell hi hlo (Memory.wfFrom_cons.2 ⟨by omega, hm'.2⟩)
    · split
      · subst i; exact Memory.wfFrom_consCell hi hlo hm'.2.2.2
      · exact Memory.wfFrom_cons.2
          ⟨hm'.1, hm'.2.1, hm'.2.2.1, Memory.wfFrom_write hi (by omega) hm'.2.2.2⟩

/-- A write inside the buffer keeps the canonical form. -/
theorem Memory.write_wf {m : Memory} {i : Nat} {v : Byte} (hm : m.wf = true)
    (hi : i < Config.bufSize) : (m.write i v).wf = true :=
  Memory.wfFrom_write hi (Nat.zero_le _) hm

theorem Memory.read_consCell {lo i : Nat} {v : Byte} {m : Memory} (hi : i < lo)
    (hm : Memory.wfFrom lo m = true) (j : Nat) :
    (Memory.cons i v m).read j = if j = i then v else m.read j := by
  unfold Memory.cons
  by_cases hv : v = Memory.blank
  · rw [if_pos hv]
    split
    · subst j; rw [hv]; exact Memory.read_below hi hm
    · rfl
  · rw [if_neg hv]
    simp only [Memory.read, eq_comm (a := i) (b := j)]

/-- What every byte reads as after a write: the written one its value, every other one as before. -/
theorem Memory.read_write_from {i : Nat} {v : Byte} :
    ∀ {m : Memory} {lo : Nat}, lo ≤ i → Memory.wfFrom lo m = true → ∀ j : Nat,
      (m.write i v).read j = if j = i then v else m.read j
  | [], _, _, _, j => Memory.read_consCell (lo := i + 1) (by omega) rfl j
  | (k, x) :: m, lo, hlo, hm, j => by
    have hm' := Memory.wfFrom_cons.1 hm
    unfold Memory.write
    split
    · exact Memory.read_consCell (lo := k) ‹_› (Memory.wfFrom_cons.2 ⟨le_refl k, hm'.2⟩) j
    · split
      · subst i
        rw [Memory.read_consCell (lo := k + 1) (by omega) hm'.2.2.2 j]
        by_cases hj : j = k
        · simp [hj]
        · simp [Memory.read, hj, Ne.symm hj]
      · have hik : i ≠ k := ‹_›
        simp only [Memory.read, Memory.read_write_from (show k + 1 ≤ i by omega) hm'.2.2.2 j]
        by_cases hj : j = i
        · subst j; simp [Ne.symm hik]
        · simp [hj]

theorem Memory.read_write {m : Memory} {i : Nat} {v : Byte} (hm : m.wf = true) (j : Nat) :
    (m.write i v).read j = if j = i then v else m.read j :=
  Memory.read_write_from (Nat.zero_le i) hm j

@[simp] theorem Memory.slice_length (m : Memory) : ∀ i n : Nat, (m.slice i n).length = n
  | _, 0 => rfl
  | i, n + 1 => by simp [Memory.slice, Memory.slice_length m (i + 1) n]

/-- A slice depends only on the bytes it covers. -/
theorem Memory.slice_congr {m m' : Memory} :
    ∀ {i n : Nat}, (∀ j : Nat, i ≤ j → j < i + n → m.read j = m'.read j) → m.slice i n = m'.slice i n
  | _, 0, _ => rfl
  | i, n + 1, h => by
    simp only [Memory.slice]
    rw [h i (le_refl i) (by omega), Memory.slice_congr (fun j h1 h2 => h j (by omega) (by omega))]

/-- A slice grows by one byte at its end. -/
theorem Memory.slice_snoc (m : Memory) :
    ∀ i n : Nat, m.slice i (n + 1) = m.slice i n ++ [m.read (i + n)]
  | i, 0 => rfl
  | i, n + 1 => by
    rw [Memory.slice, Memory.slice_snoc m (i + 1) n, show i + 1 + n = i + (n + 1) by omega]
    rfl

end Sys2Proof.Machine
end

