-- ==== Sys2Proof/Laws/State.lean ====
section
/-! SUPPORT. One lemma per field of State for each shared operation that writes a whole state, true by
rfl: what the operation writes there, or that it leaves the field alone. No later proof unfolds a
record update. -/

namespace Sys2Proof.Machine

@[simp] theorem answer_crcAcc (r : Result) (s : State) :
    (answer r s).crcAcc = s.crcAcc := rfl
@[simp] theorem answer_enc (r : Result) (s : State) :
    (answer r s).enc = s.enc := rfl
@[simp] theorem answer_dec (r : Result) (s : State) :
    (answer r s).dec = s.dec := rfl
@[simp] theorem answer_result (r : Result) (s : State) :
    (answer r s).result = r := rfl
@[simp] theorem answer_tx (r : Result) (s : State) :
    (answer r s).tx = s.tx := rfl
@[simp] theorem answer_rdLog (r : Result) (s : State) :
    (answer r s).rdLog = s.rdLog := rfl
@[simp] theorem answer_link (r : Result) (s : State) :
    (answer r s).link = s.link := rfl
@[simp] theorem answer_events (r : Result) (s : State) :
    (answer r s).events = s.events := rfl

@[simp] theorem illegalWord_crcAcc (s : State) :
    (illegalWord s).crcAcc = s.crcAcc := rfl
@[simp] theorem illegalWord_enc (s : State) :
    (illegalWord s).enc = s.enc := rfl
@[simp] theorem illegalWord_dec (s : State) :
    (illegalWord s).dec = s.dec := rfl
@[simp] theorem illegalWord_result (s : State) :
    (illegalWord s).result = .illegal := rfl
@[simp] theorem illegalWord_tx (s : State) :
    (illegalWord s).tx = s.tx := rfl
@[simp] theorem illegalWord_rdLog (s : State) :
    (illegalWord s).rdLog = s.rdLog := rfl
@[simp] theorem illegalWord_link (s : State) :
    (illegalWord s).link = s.link := rfl
@[simp] theorem illegalWord_events (s : State) :
    (illegalWord s).events = s.events := rfl

@[simp] theorem raiseDecError_crcAcc (e : DecErr) (s : State) :
    (raiseDecError e s).crcAcc = s.crcAcc := rfl
@[simp] theorem raiseDecError_enc (e : DecErr) (s : State) :
    (raiseDecError e s).enc = s.enc := rfl
@[simp] theorem raiseDecError_dec (e : DecErr) (s : State) :
    (raiseDecError e s).dec = { s.dec with mode := .error, err := e } := rfl
@[simp] theorem raiseDecError_result (e : DecErr) (s : State) :
    (raiseDecError e s).result = s.result := rfl
@[simp] theorem raiseDecError_tx (e : DecErr) (s : State) :
    (raiseDecError e s).tx = s.tx := rfl
@[simp] theorem raiseDecError_rdLog (e : DecErr) (s : State) :
    (raiseDecError e s).rdLog = s.rdLog := rfl
@[simp] theorem raiseDecError_link (e : DecErr) (s : State) :
    (raiseDecError e s).link = s.link := rfl
@[simp] theorem raiseDecError_events (e : DecErr) (s : State) :
    (raiseDecError e s).events = s.events := rfl

@[simp] theorem resetBlock_crcAcc (s : State) :
    (resetBlock s).crcAcc = State.reset.crcAcc := rfl
@[simp] theorem resetBlock_enc (s : State) :
    (resetBlock s).enc = State.reset.enc := rfl
@[simp] theorem resetBlock_dec (s : State) :
    (resetBlock s).dec = State.reset.dec := rfl
@[simp] theorem resetBlock_result (s : State) :
    (resetBlock s).result = State.reset.result := rfl
@[simp] theorem resetBlock_tx (s : State) :
    (resetBlock s).tx = s.tx := rfl
@[simp] theorem resetBlock_rdLog (s : State) :
    (resetBlock s).rdLog = s.rdLog := rfl
@[simp] theorem resetBlock_link (s : State) :
    (resetBlock s).link = s.link := rfl
@[simp] theorem resetBlock_events (s : State) :
    (resetBlock s).events = s.events := rfl

@[simp] theorem emit_crcAcc (bs : List Byte) (s : State) :
    (emit bs s).crcAcc = s.crcAcc := rfl
@[simp] theorem emit_enc (bs : List Byte) (s : State) :
    (emit bs s).enc = s.enc := rfl
@[simp] theorem emit_dec (bs : List Byte) (s : State) :
    (emit bs s).dec = s.dec := rfl
@[simp] theorem emit_result (bs : List Byte) (s : State) :
    (emit bs s).result = s.result := rfl
@[simp] theorem emit_tx (bs : List Byte) (s : State) :
    (emit bs s).tx = s.tx ++ bs := rfl
@[simp] theorem emit_rdLog (bs : List Byte) (s : State) :
    (emit bs s).rdLog = s.rdLog := rfl
@[simp] theorem emit_link (bs : List Byte) (s : State) :
    (emit bs s).link = s.link := rfl
@[simp] theorem emit_events (bs : List Byte) (s : State) :
    (emit bs s).events = s.events := rfl

@[simp] theorem loadValidator_crcAcc (vk : ValKind) (vs : Byte) (s : State) :
    (loadValidator vk vs s).crcAcc = s.crcAcc := rfl
@[simp] theorem loadValidator_enc (vk : ValKind) (vs : Byte) (s : State) :
    (loadValidator vk vs s).enc = s.enc := rfl
@[simp] theorem loadValidator_dec (vk : ValKind) (vs : Byte) (s : State) :
    (loadValidator vk vs s).dec = { s.dec with vkind := vk, vsize := vs } := rfl
@[simp] theorem loadValidator_result (vk : ValKind) (vs : Byte) (s : State) :
    (loadValidator vk vs s).result = s.result := rfl
@[simp] theorem loadValidator_tx (vk : ValKind) (vs : Byte) (s : State) :
    (loadValidator vk vs s).tx = s.tx := rfl
@[simp] theorem loadValidator_rdLog (vk : ValKind) (vs : Byte) (s : State) :
    (loadValidator vk vs s).rdLog = s.rdLog := rfl
@[simp] theorem loadValidator_link (vk : ValKind) (vs : Byte) (s : State) :
    (loadValidator vk vs s).link = s.link := rfl
@[simp] theorem loadValidator_events (vk : ValKind) (vs : Byte) (s : State) :
    (loadValidator vk vs s).events = s.events := rfl

@[simp] theorem armDecoder_crcAcc (ea ec : Byte) (s : State) :
    (armDecoder ea ec s).crcAcc = s.crcAcc := rfl
@[simp] theorem armDecoder_enc (ea ec : Byte) (s : State) :
    (armDecoder ea ec s).enc = s.enc := rfl
@[simp] theorem armDecoder_result (ea ec : Byte) (s : State) :
    (armDecoder ea ec s).result = s.result := rfl
@[simp] theorem armDecoder_tx (ea ec : Byte) (s : State) :
    (armDecoder ea ec s).tx = s.tx := rfl
@[simp] theorem armDecoder_rdLog (ea ec : Byte) (s : State) :
    (armDecoder ea ec s).rdLog = s.rdLog := rfl
@[simp] theorem armDecoder_link (ea ec : Byte) (s : State) :
    (armDecoder ea ec s).link = s.link := rfl
@[simp] theorem armDecoder_events (ea ec : Byte) (s : State) :
    (armDecoder ea ec s).events = s.events := rfl

@[simp] theorem linkHolds_crcAcc (d : Byte) (s : State) :
    (linkHolds d s).crcAcc = s.crcAcc := rfl
@[simp] theorem linkHolds_enc (d : Byte) (s : State) :
    (linkHolds d s).enc = s.enc := rfl
@[simp] theorem linkHolds_dec (d : Byte) (s : State) :
    (linkHolds d s).dec = s.dec := rfl
@[simp] theorem linkHolds_result (d : Byte) (s : State) :
    (linkHolds d s).result = s.result := rfl
@[simp] theorem linkHolds_tx (d : Byte) (s : State) :
    (linkHolds d s).tx = s.tx := rfl
@[simp] theorem linkHolds_rdLog (d : Byte) (s : State) :
    (linkHolds d s).rdLog = s.rdLog := rfl
@[simp] theorem linkHolds_link (d : Byte) (s : State) :
    (linkHolds d s).link = d :: s.link := rfl
@[simp] theorem linkHolds_events (d : Byte) (s : State) :
    (linkHolds d s).events = s.events := rfl

@[simp] theorem recordHeader_crcAcc (d : Byte) (s : State) :
    (recordHeader d s).crcAcc = s.crcAcc := rfl
@[simp] theorem recordHeader_enc (d : Byte) (s : State) :
    (recordHeader d s).enc = s.enc := rfl
@[simp] theorem recordHeader_result (d : Byte) (s : State) :
    (recordHeader d s).result = s.result := rfl
@[simp] theorem recordHeader_tx (d : Byte) (s : State) :
    (recordHeader d s).tx = s.tx := rfl
@[simp] theorem recordHeader_rdLog (d : Byte) (s : State) :
    (recordHeader d s).rdLog = s.rdLog := rfl
@[simp] theorem recordHeader_link (d : Byte) (s : State) :
    (recordHeader d s).link = s.link := rfl
@[simp] theorem recordHeader_events (d : Byte) (s : State) :
    (recordHeader d s).events = s.events := rfl

@[simp] theorem recordBody_crcAcc (d : Byte) (s : State) :
    (recordBody d s).crcAcc = s.crcAcc := rfl
@[simp] theorem recordBody_enc (d : Byte) (s : State) :
    (recordBody d s).enc = s.enc := rfl
@[simp] theorem recordBody_result (d : Byte) (s : State) :
    (recordBody d s).result = s.result := rfl
@[simp] theorem recordBody_tx (d : Byte) (s : State) :
    (recordBody d s).tx = s.tx := rfl
@[simp] theorem recordBody_rdLog (d : Byte) (s : State) :
    (recordBody d s).rdLog = s.rdLog := rfl
@[simp] theorem recordBody_link (d : Byte) (s : State) :
    (recordBody d s).link = s.link := rfl
@[simp] theorem recordBody_events (d : Byte) (s : State) :
    (recordBody d s).events = s.events := rfl

@[simp] theorem armDecoder_dec_mode (ea ec : Byte) (s : State) :
    (armDecoder ea ec s).dec.mode = .hdr := rfl
@[simp] theorem armDecoder_dec_err (ea ec : Byte) (s : State) :
    (armDecoder ea ec s).dec.err = .noError := rfl
@[simp] theorem armDecoder_dec_hcnt (ea ec : Byte) (s : State) :
    (armDecoder ea ec s).dec.hcnt = 0 := rfl
@[simp] theorem armDecoder_dec_expAddr (ea ec : Byte) (s : State) :
    (armDecoder ea ec s).dec.expAddr = ea := rfl
@[simp] theorem armDecoder_dec_expCmd (ea ec : Byte) (s : State) :
    (armDecoder ea ec s).dec.expCmd = ec := rfl
@[simp] theorem armDecoder_dec_vkind (ea ec : Byte) (s : State) :
    (armDecoder ea ec s).dec.vkind = s.dec.vkind := rfl
@[simp] theorem armDecoder_dec_vsize (ea ec : Byte) (s : State) :
    (armDecoder ea ec s).dec.vsize = s.dec.vsize := rfl
@[simp] theorem armDecoder_dec_obsLen (ea ec : Byte) (s : State) :
    (armDecoder ea ec s).dec.obsLen = 0 := rfl
@[simp] theorem armDecoder_dec_obsAddr (ea ec : Byte) (s : State) :
    (armDecoder ea ec s).dec.obsAddr = 0 := rfl
@[simp] theorem armDecoder_dec_obsCmd (ea ec : Byte) (s : State) :
    (armDecoder ea ec s).dec.obsCmd = 0 := rfl
@[simp] theorem armDecoder_dec_plen (ea ec : Byte) (s : State) :
    (armDecoder ea ec s).dec.plen = 0 := rfl
@[simp] theorem armDecoder_dec_rem (ea ec : Byte) (s : State) :
    (armDecoder ea ec s).dec.rem = 0 := rfl
@[simp] theorem armDecoder_dec_crc (ea ec : Byte) (s : State) :
    (armDecoder ea ec s).dec.crc = 0xFFFF := rfl
@[simp] theorem armDecoder_dec_rxcrc (ea ec : Byte) (s : State) :
    (armDecoder ea ec s).dec.rxcrc = 0x0000 := rfl
@[simp] theorem armDecoder_dec_buf (ea ec : Byte) (s : State) :
    (armDecoder ea ec s).dec.buf = s.dec.buf := rfl
@[simp] theorem armDecoder_dec_rxClosed (ea ec : Byte) (s : State) :
    (armDecoder ea ec s).dec.rxClosed = s.dec.rxClosed := rfl

@[simp] theorem recordHeader_dec_mode (d : Byte) (s : State) :
    (recordHeader d s).dec.mode = s.dec.mode := rfl
@[simp] theorem recordHeader_dec_err (d : Byte) (s : State) :
    (recordHeader d s).dec.err = s.dec.err := rfl
@[simp] theorem recordHeader_dec_hcnt (d : Byte) (s : State) :
    (recordHeader d s).dec.hcnt = s.dec.hcnt + 1 := rfl
@[simp] theorem recordHeader_dec_expAddr (d : Byte) (s : State) :
    (recordHeader d s).dec.expAddr = s.dec.expAddr := rfl
@[simp] theorem recordHeader_dec_expCmd (d : Byte) (s : State) :
    (recordHeader d s).dec.expCmd = s.dec.expCmd := rfl
@[simp] theorem recordHeader_dec_vkind (d : Byte) (s : State) :
    (recordHeader d s).dec.vkind = s.dec.vkind := rfl
@[simp] theorem recordHeader_dec_vsize (d : Byte) (s : State) :
    (recordHeader d s).dec.vsize = s.dec.vsize := rfl
@[simp] theorem recordHeader_dec_obsLen (d : Byte) (s : State) :
    (recordHeader d s).dec.obsLen = (if s.dec.hcnt = 0 then d else s.dec.obsLen) := rfl
@[simp] theorem recordHeader_dec_obsAddr (d : Byte) (s : State) :
    (recordHeader d s).dec.obsAddr = (if s.dec.hcnt = 1 then d else s.dec.obsAddr) := rfl
@[simp] theorem recordHeader_dec_obsCmd (d : Byte) (s : State) :
    (recordHeader d s).dec.obsCmd = (if s.dec.hcnt = 2 then d else s.dec.obsCmd) := rfl
@[simp] theorem recordHeader_dec_plen (d : Byte) (s : State) :
    (recordHeader d s).dec.plen = s.dec.plen := rfl
@[simp] theorem recordHeader_dec_rem (d : Byte) (s : State) :
    (recordHeader d s).dec.rem = s.dec.rem := rfl
@[simp] theorem recordHeader_dec_crc (d : Byte) (s : State) :
    (recordHeader d s).dec.crc = crcByte s.dec.crc d := rfl
@[simp] theorem recordHeader_dec_rxcrc (d : Byte) (s : State) :
    (recordHeader d s).dec.rxcrc = s.dec.rxcrc := rfl
@[simp] theorem recordHeader_dec_buf (d : Byte) (s : State) :
    (recordHeader d s).dec.buf = s.dec.buf := rfl
@[simp] theorem recordHeader_dec_rxClosed (d : Byte) (s : State) :
    (recordHeader d s).dec.rxClosed = s.dec.rxClosed := rfl

@[simp] theorem recordBody_dec_mode (d : Byte) (s : State) :
    (recordBody d s).dec.mode = s.dec.mode := rfl
@[simp] theorem recordBody_dec_err (d : Byte) (s : State) :
    (recordBody d s).dec.err = s.dec.err := rfl
@[simp] theorem recordBody_dec_hcnt (d : Byte) (s : State) :
    (recordBody d s).dec.hcnt = s.dec.hcnt := rfl
@[simp] theorem recordBody_dec_expAddr (d : Byte) (s : State) :
    (recordBody d s).dec.expAddr = s.dec.expAddr := rfl
@[simp] theorem recordBody_dec_expCmd (d : Byte) (s : State) :
    (recordBody d s).dec.expCmd = s.dec.expCmd := rfl
@[simp] theorem recordBody_dec_vkind (d : Byte) (s : State) :
    (recordBody d s).dec.vkind = s.dec.vkind := rfl
@[simp] theorem recordBody_dec_vsize (d : Byte) (s : State) :
    (recordBody d s).dec.vsize = s.dec.vsize := rfl
@[simp] theorem recordBody_dec_obsLen (d : Byte) (s : State) :
    (recordBody d s).dec.obsLen = s.dec.obsLen := rfl
@[simp] theorem recordBody_dec_obsAddr (d : Byte) (s : State) :
    (recordBody d s).dec.obsAddr = s.dec.obsAddr := rfl
@[simp] theorem recordBody_dec_obsCmd (d : Byte) (s : State) :
    (recordBody d s).dec.obsCmd = s.dec.obsCmd := rfl
@[simp] theorem recordBody_dec_plen (d : Byte) (s : State) :
    (recordBody d s).dec.plen = s.dec.plen := rfl
@[simp] theorem recordBody_dec_rem (d : Byte) (s : State) :
    (recordBody d s).dec.rem = s.dec.rem - 1 := rfl
@[simp] theorem recordBody_dec_crc (d : Byte) (s : State) :
    (recordBody d s).dec.crc = crcByte s.dec.crc d := rfl
@[simp] theorem recordBody_dec_rxcrc (d : Byte) (s : State) :
    (recordBody d s).dec.rxcrc = (if 2 < s.dec.rem.toNat then s.dec.rxcrc
      else if s.dec.rem.toNat = 2 then setLo8 s.dec.rxcrc d else setHi8 s.dec.rxcrc d) := rfl
@[simp] theorem recordBody_dec_buf (d : Byte) (s : State) :
    (recordBody d s).dec.buf = (if 2 < s.dec.rem.toNat then s.dec.buf.write (bodyIndex s.dec) d else s.dec.buf) := rfl
@[simp] theorem recordBody_dec_rxClosed (d : Byte) (s : State) :
    (recordBody d s).dec.rxClosed = s.dec.rxClosed := rfl

end Sys2Proof.Machine
end

