-- ==== Sys2Proof/Laws/Ops.lean ====
section
/-! SUPPORT. One lemma for each shared operation with a choice in it, and for each meaning, that says
once everything it can do; the proofs over steps cite these and unfold nothing. -/

namespace Sys2Proof.Machine

/-- `rx_ready` and "a read is pending", mode by mode. -/
theorem rxReady_iff (d : Dec) :
    rxReady d = true ↔ d.mode = .hdr ∨ d.mode = .body ∨ d.mode = .error := by
  cases h : d.mode <;> simp [rxReady, h]

theorem readPending_iff (d : Dec) : readPending d = true ↔ d.mode = .hdr ∨ d.mode = .body := by
  cases h : d.mode <;> simp [readPending, h]

/-- What `closeFrame` writes: TX only by appending, the encoder's mode, and nothing else. -/
theorem closeFrame_cases (s : State) :
    (s.enc.rem = 0 ∧ closeFrame s =
      { s with enc := { s.enc with mode := .idle }, tx := s.tx ++ [lo8 s.enc.crc, hi8 s.enc.crc] }) ∨
    (s.enc.rem ≠ 0 ∧ closeFrame s = { s with enc := { s.enc with mode := .body } }) := by
  unfold closeFrame emit
  split
  · exact Or.inl ⟨‹_›, rfl⟩
  · exact Or.inr ⟨‹_›, rfl⟩

/-- The encoder's two effects change the encoder and append to TX, as its own state says. -/
theorem openFrame_frame (a c n : Byte) (s : State) :
    ∃ (e : Enc) (bs : List Byte), openFrame a c n s = { s with enc := e, tx := s.tx ++ bs } := by
  unfold openFrame
  rcases closeFrame_cases (emit [lenByte n, a, c]
    { s with enc := { s.enc with addr := a, cmd := c, len := lenByte n, rem := n,
                                 crc := crcFold Config.crcSeed [lenByte n, a, c] } })
    with ⟨-, h⟩ | ⟨-, h⟩ <;> rw [h]
  · exact ⟨_, _, by simp only [emit, List.append_assoc]; rfl⟩
  · exact ⟨_, [lenByte n, a, c], rfl⟩

theorem sendPayload_frame (d : Byte) (s : State) :
    ∃ (e : Enc) (bs : List Byte), sendPayload d s = { s with enc := e, tx := s.tx ++ bs } := by
  unfold sendPayload
  rcases closeFrame_cases (emit [d]
    { s with enc := { s.enc with crc := crcByte s.enc.crc d, rem := s.enc.rem - 1 } })
    with ⟨-, h⟩ | ⟨-, h⟩ <;> rw [h]
  · exact ⟨_, _, by simp only [emit, List.append_assoc]; rfl⟩
  · exact ⟨_, [d], rfl⟩

/-- The header checks, in the order of R147: the first that fails names the error; if none does, the
decoder is in BODY. -/
theorem checkHeader_cases (s : State) :
    (s.dec.obsAddr ≠ s.dec.expAddr ∧ checkHeader s = raiseDecError .addr s) ∨
    (s.dec.obsAddr = s.dec.expAddr ∧ s.dec.obsCmd ≠ s.dec.expCmd ∧
      checkHeader s = raiseDecError .cmd s) ∨
    (s.dec.obsAddr = s.dec.expAddr ∧ s.dec.obsCmd = s.dec.expCmd ∧ s.dec.obsLen.toNat < 4 ∧
      checkHeader s = raiseDecError .len s) ∨
    (s.dec.obsAddr = s.dec.expAddr ∧ s.dec.obsCmd = s.dec.expCmd ∧ 4 ≤ s.dec.obsLen.toNat ∧
      acceptsSize s.dec.vkind s.dec.vsize (payloadSize s.dec.obsLen).toNat = false ∧
      checkHeader s = raiseDecError .size s) ∨
    (s.dec.obsAddr = s.dec.expAddr ∧ s.dec.obsCmd = s.dec.expCmd ∧ 4 ≤ s.dec.obsLen.toNat ∧
      acceptsSize s.dec.vkind s.dec.vsize (payloadSize s.dec.obsLen).toNat = true ∧
      checkHeader s = { s with dec := { s.dec with
        plen := payloadSize s.dec.obsLen, rem := bodySize s.dec.obsLen, mode := .body } }) := by
  unfold checkHeader
  by_cases h1 : s.dec.obsAddr = s.dec.expAddr
  · by_cases h2 : s.dec.obsCmd = s.dec.expCmd
    · by_cases h3 : s.dec.obsLen.toNat < 4
      · simp [h1, h2, h3]
      · by_cases h4 : acceptsSize s.dec.vkind s.dec.vsize (payloadSize s.dec.obsLen).toNat = true
        · simp [h1, h2, h3, h4, Nat.not_lt.1 h3]
        · simp [h1, h2, h3, h4, Nat.not_lt.1 h3]
    · simp [h1, h2]
  · simp [h1]

/-- The two lengths of an accepted header, without wrap (R13, R145). -/
theorem payloadSize_toNat {len : Byte} (h : 4 ≤ len.toNat) : (payloadSize len).toNat = len.toNat - 4 := by
  have := len.isLt
  simp only [payloadSize, BitVec.toNat_sub]
  simp only [BitVec.ofNat_eq_ofNat, BitVec.toNat_ofNat]
  omega

theorem bodySize_toNat {len : Byte} (h : 2 ≤ len.toNat) : (bodySize len).toNat = len.toNat - 2 := by
  have := len.isLt
  simp only [bodySize, BitVec.toNat_sub]
  simp only [BitVec.ofNat_eq_ofNat, BitVec.toNat_ofNat]
  omega

/-- A count that is not 0 goes down by one, without wrap (R13). -/
theorem pred_toNat {r : Byte} (h : r ≠ 0) : (r - 1).toNat = r.toNat - 1 := by
  have h1 := r.isLt
  have h2 : r.toNat ≠ 0 := fun h0 => h (BitVec.eq_of_toNat_eq (by simpa using h0))
  simp only [BitVec.toNat_sub]
  simp only [BitVec.ofNat_eq_ofNat, BitVec.toNat_ofNat]
  omega

/-- The check on a frame's last byte. -/
theorem checkFrame_cases (s : State) :
    (s.dec.rem ≠ 0 ∧ checkFrame s = s) ∨
    (s.dec.rem = 0 ∧ s.dec.crc = 0 ∧ checkFrame s = { s with dec := { s.dec with mode := .done } }) ∨
    (s.dec.rem = 0 ∧ s.dec.crc ≠ 0 ∧ checkFrame s = raiseDecError .checksum s) := by
  unfold checkFrame
  by_cases h1 : s.dec.rem = 0
  · by_cases h2 : s.dec.crc = 0
    · exact Or.inr (Or.inl ⟨h1, h2, by rw [if_pos h1, if_pos h2]⟩)
    · exact Or.inr (Or.inr ⟨h1, h2, by rw [if_pos h1, if_neg h2]⟩)
  · exact Or.inl ⟨h1, by rw [if_neg h1]⟩

/-- RX_BYTE in HDR, when it goes on. -/
theorem rxHeader_next {d : Byte} {s t : State} (h : rxHeader d s = .next t) :
    (s.dec.hcnt ≠ 3 ∧ s.dec.hcnt ≠ 2 ∧ t = recordHeader d s) ∨
    (s.dec.hcnt = 2 ∧ t = checkHeader (recordHeader d s)) := by
  unfold rxHeader at h
  split at h
  · cases h
  · split at h <;> cases h
    · exact Or.inr ⟨‹_›, rfl⟩
    · exact Or.inl ⟨‹_›, ‹_›, rfl⟩

/-- RX_BYTE in BODY, when it goes on: its counts are in range. -/
theorem rxBody_next {d : Byte} {s t : State} (h : rxBody d s = .next t) :
    1 ≤ s.dec.rem.toNat ∧ s.dec.rem.toNat ≤ s.dec.plen.toNat + 2 ∧
    (2 < s.dec.rem.toNat → bodyIndex s.dec < Config.bufSize) ∧ t = checkFrame (recordBody d s) := by
  unfold rxBody at h
  split at h
  · cases h
  · split at h <;> cases h
    rename_i h1 h2
    refine ⟨by omega, by omega, fun h3 => ?_, rfl⟩
    by_contra hc
    exact h2 ⟨h3, by omega⟩

/-! ### What each meaning answers -/

theorem execEncStart_cases (a c n : Byte) (s : State) :
    (s.enc.mode = .body ∧ execEncStart a c n s = .next (answer .sequence s)) ∨
    (s.enc.mode = .idle ∧ 251 < n.toNat ∧ execEncStart a c n s = .next (answer .overflow s)) ∨
    (s.enc.mode = .idle ∧ n.toNat ≤ 251 ∧
      execEncStart a c n s = .next (answer .ok (openFrame a c n s))) := by
  unfold execEncStart
  cases h : s.enc.mode
  · by_cases hn : 251 < n.toNat
    · simp [hn]
    · simp [hn, Nat.not_lt.1 hn]
  · simp

theorem execEncByte_cases (d : Byte) (s : State) :
    (s.enc.mode = .idle ∧ execEncByte d s = .next (answer .sequence s)) ∨
    (s.enc.mode = .body ∧ s.enc.rem = 0 ∧ execEncByte d s = .fault .encRemBelowZero) ∨
    (s.enc.mode = .body ∧ s.enc.rem ≠ 0 ∧ execEncByte d s = .next (answer .ok (sendPayload d s))) := by
  unfold execEncByte
  cases h : s.enc.mode
  · simp
  · by_cases hr : s.enc.rem = 0
    · simp [hr]
    · exact Or.inr (Or.inr ⟨rfl, hr, if_neg hr⟩)

theorem execDecSetv_cases (vk : BitVec 2) (vs : Byte) (s : State) :
    (ValKind.ofBits vk = none ∧ execDecSetv vk vs s = .next (illegalWord s)) ∨
    (ValKind.ofBits vk ≠ none ∧ readPending s.dec = true ∧
      execDecSetv vk vs s = .next (answer .sequence s)) ∨
    (readPending s.dec = false ∧ ∃ k : ValKind, ValKind.ofBits vk = some k ∧
      execDecSetv vk vs s = .next (answer .ok (loadValidator k vs s))) := by
  unfold execDecSetv
  cases hk : ValKind.ofBits vk
  · simp
  · cases h : s.dec.mode <;> simp [readPending, h]

theorem execDecArm_cases (ea ec : Byte) (s : State) :
    (rxReady s.dec = true ∧ execDecArm ea ec s = .next (answer .sequence s)) ∨
    (rxReady s.dec = false ∧ s.dec.rxClosed = true ∧
      execDecArm ea ec s = .next (raiseDecError .transport (answer .ok (armDecoder ea ec s)))) ∨
    (rxReady s.dec = false ∧ s.dec.rxClosed = false ∧
      execDecArm ea ec s = .next (answer .ok (armDecoder ea ec s))) := by
  unfold execDecArm
  cases h : s.dec.mode <;> cases hc : s.dec.rxClosed <;> simp [rxReady, h]

theorem execDecCancel_cases (s : State) :
    (readPending s.dec = true ∧
      execDecCancel s = .next (raiseDecError .cancelled (answer .ok s))) ∨
    (readPending s.dec = false ∧ execDecCancel s = .next (answer .ok s)) := by
  unfold execDecCancel
  cases h : readPending s.dec <;> simp

theorem execRxByte_cases (d : Byte) (s : State) :
    (rxReady s.dec = false ∧ execRxByte d s = .next (linkHolds d s)) ∨
    (s.dec.mode = .error ∧ execRxByte d s = .next s) ∨
    (s.dec.mode = .hdr ∧ execRxByte d s = rxHeader d s) ∨
    (s.dec.mode = .body ∧ execRxByte d s = rxBody d s) := by
  unfold execRxByte
  cases h : s.dec.mode <;> simp [rxReady, h]

theorem execRxEos_cases (s : State) :
    (readPending s.dec = true ∧
      execRxEos s = .next (raiseDecError .transport { s with dec := { s.dec with rxClosed := true } })) ∨
    (readPending s.dec = false ∧ execRxEos s = .next { s with dec := { s.dec with rxClosed := true } }) := by
  unfold execRxEos
  cases h : readPending s.dec <;> simp

end Sys2Proof.Machine
end

