-- ==== Sys2Proof/Laws/PerInstr.lean ====
section
/-! SUPPORT. The family `RowMatch`, one lemma per operation: the encoder's word meets the operation's
row of spec/opcode_table.json, `(w & mask) = match` (30_encoding.md R75). -/

namespace Sys2Proof.Laws.RowMatch

/-- The word of `i` selects its own row. -/
def Statement (i : Instr) : Prop := encode i &&& rowMask i = rowMatch i

theorem nop : Statement .nop := rfl

theorem crcInit : Statement .crcInit := rfl

/-- A masked word, byte by byte. -/
theorem mask_mkWord (op a b c m1 m2 m3 m4 : Byte) :
    mkWord op a b c &&& mkWord m1 m2 m3 m4
      = mkWord (op &&& m1) (a &&& m2) (b &&& m3) (c &&& m4) := by
  have h : ((op ++ a ++ b ++ c) &&& (m1 ++ m2 ++ m3 ++ m4) : BitVec (8 + 8 + 8 + 8))
      = (op &&& m1) ++ (a &&& m2) ++ (b &&& m3) ++ (c &&& m4) := by
    rw [BitVec.and_append, BitVec.and_append, BitVec.and_append]
  exact h

theorem crcByte (d : Byte) : Statement (.crcByte d) := by
  show mkWord 0x02 0 0 d &&& mkWord 0xFF 0xFF 0xFF 0x00 = 0x02000000
  rw [mask_mkWord, show d &&& 0x00 = 0 by simp]; rfl

theorem encStart (a c n : Byte) : Statement (.encStart a c n) := by
  show mkWord 0x10 a c n &&& mkWord 0xFF 0x00 0x00 0x00 = 0x10000000
  rw [mask_mkWord, show a &&& 0x00 = 0 by simp, show c &&& 0x00 = 0 by simp,
    show n &&& 0x00 = 0 by simp]; rfl

theorem encByte (d : Byte) : Statement (.encByte d) := by
  show mkWord 0x11 0 0 d &&& mkWord 0xFF 0xFF 0xFF 0x00 = 0x11000000
  rw [mask_mkWord, show d &&& 0x00 = 0 by simp]; rfl

theorem decSetv (vk : BitVec 2) (vs : Byte) : Statement (.decSetv vk vs) := by
  show mkWord 0x20 0 ((0 : BitVec 6) ++ vk) vs &&& mkWord 0xFF 0xFF 0xFC 0x00 = 0x20000000
  rw [mask_mkWord, show vs &&& 0x00 = 0 by simp,
    show ((0 : BitVec 6) ++ vk : Byte) &&& 0xFC = 0 from
      (by decide : ∀ k : BitVec 2, ((0 : BitVec 6) ++ k : Byte) &&& 0xFC = 0) vk]; rfl

theorem decArm (ea ec : Byte) : Statement (.decArm ea ec) := by
  show mkWord 0x21 ea ec 0 &&& mkWord 0xFF 0x00 0x00 0xFF = 0x21000000
  rw [mask_mkWord, show ea &&& 0x00 = 0 by simp, show ec &&& 0x00 = 0 by simp]; rfl

theorem decCancel : Statement .decCancel := rfl

theorem rxByte (d : Byte) : Statement (.rxByte d) := by
  show mkWord 0x30 0 0 d &&& mkWord 0xFF 0xFF 0xFF 0x00 = 0x30000000
  rw [mask_mkWord, show d &&& 0x00 = 0 by simp]; rfl

theorem rxEos : Statement .rxEos := rfl

end Sys2Proof.Laws.RowMatch
end

