-- ==== Sys2Proof/Laws/Registers.lean ====
section
/-! SUPPORT. The register map at each index: the eleven registers by number, the payload window and the
unmapped indices by range. -/

namespace Sys2Proof.Machine

@[simp] theorem readReg_crcValue (s : State) : readReg s 0x000#9 = regCrcValue s := rfl
@[simp] theorem readReg_cmdResult (s : State) : readReg s 0x001#9 = regCmdResult s := rfl
@[simp] theorem readReg_encStatus (s : State) : readReg s 0x002#9 = regEncStatus s := rfl
@[simp] theorem readReg_encHdr (s : State) : readReg s 0x003#9 = regEncHdr s := rfl
@[simp] theorem readReg_encCrc (s : State) : readReg s 0x004#9 = regEncCrc s := rfl
@[simp] theorem readReg_decStatus (s : State) : readReg s 0x008#9 = regDecStatus s := rfl
@[simp] theorem readReg_decExp (s : State) : readReg s 0x009#9 = regDecExp s := rfl
@[simp] theorem readReg_decObs (s : State) : readReg s 0x00A#9 = regDecObs s := rfl
@[simp] theorem readReg_decPlen (s : State) : readReg s 0x00B#9 = regDecPlen s := rfl
@[simp] theorem readReg_decCrc (s : State) : readReg s 0x00C#9 = regDecCrc s := rfl
@[simp] theorem readReg_decRxcrc (s : State) : readReg s 0x00D#9 = regDecRxcrc s := rfl

/-- An index above the registers reads the window or 0. -/
theorem readReg_high (s : State) {ri : RegIndex} (h : 0x00E ≤ ri.toNat) :
    readReg s ri
      = if 0x100 ≤ ri.toNat ∧ ri.toNat ≤ 0x1FA then decData s (ri.toNat - 0x100) else 0 := by
  unfold readReg
  split <;> first | omega | rfl

/-- The indices between the two groups of registers. -/
theorem readReg_gap (s : State) {ri : RegIndex} (h1 : 0x005 ≤ ri.toNat) (h2 : ri.toNat ≤ 0x007) :
    readReg s ri = 0 := by
  unfold readReg
  split <;> first | omega | rw [if_neg (by omega)]

/-- A byte of a slice. -/
theorem Memory.slice_getElem (m : Memory) :
    ∀ (i n k : Nat) (h : k < (m.slice i n).length), (m.slice i n)[k] = m.read (i + k)
  | i, 0, k, h => by simp [Memory.slice] at h
  | i, n + 1, 0, h => rfl
  | i, n + 1, k + 1, h => by
    have hk : k < (m.slice (i + 1) n).length := by simpa [Memory.slice] using h
    show (m.slice (i + 1) n)[k] = m.read (i + (k + 1))
    rw [Memory.slice_getElem m (i + 1) n k hk]
    congr 1
    omega

end Sys2Proof.Machine
end

