-- ==== Sys2Proof/Laws/Step.lean ====
section
/-! SUPPORT. A step as the event it takes, and each event as the operation it presents. -/

namespace Sys2Proof.Machine

/-- A step over a known queue takes its first event. -/
@[simp] theorem step_cons (s : State) (e : Event) (es : List Event) :
    step { s with events := e :: es } = takeEvent e { s with events := es } := rfl

/-- With no event to come a step changes nothing. -/
theorem step_idle {s : State} (h : s.events = []) : step s = .next s := by
  unfold step; rw [h]

theorem step_of_events {s : State} {e : Event} {es : List Event} (h : s.events = e :: es) :
    step s = takeEvent e { s with events := es } := by
  unfold step; rw [h]

/-- What presenting a number does: the operation it names, ILLEGAL's word, or nothing. -/
theorem presentWord_some {nbits w : Nat} {i : Instr} {s : State} (h : decodeTableWord nbits w = some i) :
    presentWord nbits w s = presentInstr i (BitVec.ofNat 32 w) s := by
  unfold presentWord; rw [h]

theorem presentWord_none {nbits w : Nat} {s : State} (h : decodeTableWord nbits w = none)
    (hw : nbits ≤ 32 ∧ w < 2 ^ 32) :
    presentWord nbits w s = { s with events := .cmd (BitVec.ofNat 32 w) :: s.events } := by
  unfold presentWord; rw [h]; exact if_pos hw

theorem presentWord_wide {nbits w : Nat} {s : State} (hw : ¬ (nbits ≤ 32 ∧ w < 2 ^ 32)) :
    presentWord nbits w s = s := by
  unfold presentWord decodeTableWord; rw [if_neg hw]; exact if_neg hw

/-- What one event can do, when it goes on. -/
theorem takeEvent_next {e : Event} {s t : State} (h : takeEvent e s = .next t) :
    (∃ (w : Word) (i : Instr), e = .cmd w ∧ decodeCmd w = .instr i ∧ exec i s = .next t) ∨
    (∃ (w : Word) (r : DecodeReject), e = .cmd w ∧ decodeCmd w = .reject r ∧ t = illegalWord s) ∨
    (∃ ri : RegIndex, e = .rd ri ∧ t = { s with rdLog := s.rdLog ++ [(ri, readReg s ri)] }) ∨
    (e = .rxOffer ∧ s.link = [] ∧ t = s) ∨
    (∃ (d : Byte) (l : List Byte), e = .rxOffer ∧ s.link = d :: l ∧
      exec (.rxByte d) { s with link := l } = .next t) ∨
    (e = .rxEos ∧ exec .rxEos s = .next t) ∨
    (e = .rst ∧ t = resetBlock s) ∨
    (∃ l : List Byte, e = .reopen l ∧ t = { s with link := l }) := by
  cases e with
  | cmd w =>
    simp only [takeEvent, takeCmd] at h
    cases hd : decodeCmd w with
    | instr i => rw [hd] at h; exact Or.inl ⟨w, i, rfl, hd, h⟩
    | reject r => rw [hd] at h; cases h; exact Or.inr (Or.inl ⟨w, r, rfl, hd, rfl⟩)
  | rd ri => cases h; exact Or.inr (Or.inr (Or.inl ⟨ri, rfl, rfl⟩))
  | rxOffer =>
    simp only [takeEvent, takeRxOffer] at h
    cases hl : s.link with
    | nil => rw [hl] at h; cases h; exact Or.inr (Or.inr (Or.inr (Or.inl ⟨rfl, rfl, rfl⟩)))
    | cons d l =>
      rw [hl] at h
      exact Or.inr (Or.inr (Or.inr (Or.inr (Or.inl ⟨d, l, rfl, rfl, h⟩))))
  | rxEos => exact Or.inr (Or.inr (Or.inr (Or.inr (Or.inr (Or.inl ⟨rfl, h⟩)))))
  | rst => cases h; exact Or.inr (Or.inr (Or.inr (Or.inr (Or.inr (Or.inr (Or.inl ⟨rfl, rfl⟩))))))
  | reopen l =>
    cases h
    exact Or.inr (Or.inr (Or.inr (Or.inr (Or.inr (Or.inr (Or.inr ⟨l, rfl, rfl⟩))))))

end Sys2Proof.Machine
end

