-- ==== Sys2Proof/Laws/Run.lean ====
section
/-! SUPPORT. Runs: one event at a time, and the same as the host's own run of the machine. -/

namespace Sys2Proof.Machine

/-- The host's run over one step, by the step's outcome. -/
theorem coreRun_succ (M : Host.Core) (n : Nat) (s : M.State) :
    (∀ t, M.step s = .next t → M.run (n + 1) s = M.run n t) ∧
    (∀ r, M.step s = .fault r → M.run (n + 1) s = .fault r) ∧
    (∀ r, M.step s = .refused r → M.run (n + 1) s = .refused r) := by
  refine ⟨fun t h => ?_, fun r h => ?_, fun r h => ?_⟩ <;> simp only [Host.Core.run, h]

/-- `runSteps` is the host's `Core.run` on this machine. -/
theorem runSteps_eq_core_run (n : Nat) : ∀ s : State, runSteps n s = Host.Core.run Sys2Proof.core n s := by
  induction n with
  | zero => intro s; rfl
  | succ n ih =>
    intro s
    have hc := coreRun_succ Sys2Proof.core n s
    unfold runSteps
    cases h : step s with
    | next t => exact (ih t).trans (hc.1 t h).symm
    | fault r => exact (hc.2.1 r h).symm
    | refused r => exact (hc.2.2 r h).symm

/-- With no event to come a run changes nothing. -/
@[simp] theorem runAll_nil (s : State) : runAll { s with events := [] } = .next { s with events := [] } := rfl

/-- No operation touches the events to come. -/
theorem exec_events {i : Instr} {s t : State} (h : exec i s = .next t) : t.events = s.events := by
  cases i with
  | nop => cases h; rfl
  | crcInit => cases h; rfl
  | crcByte d => cases h; rfl
  | encStart a c n =>
    simp only [exec] at h
    rcases execEncStart_cases a c n s with ⟨_, e⟩ | ⟨_, _, e⟩ | ⟨_, _, e⟩ <;> rw [e] at h <;> cases h
    · rfl
    · rfl
    · obtain ⟨x, y, hf⟩ := openFrame_frame a c n s
      rw [answer_events, hf]
  | encByte d =>
    simp only [exec] at h
    rcases execEncByte_cases d s with ⟨_, e⟩ | ⟨_, _, e⟩ | ⟨_, _, e⟩ <;> rw [e] at h <;> cases h
    · rfl
    · obtain ⟨x, y, hf⟩ := sendPayload_frame d s
      rw [answer_events, hf]
  | decSetv vk vs =>
    simp only [exec] at h
    rcases execDecSetv_cases vk vs s with ⟨_, e⟩ | ⟨_, _, e⟩ | ⟨_, k, _, e⟩ <;> rw [e] at h <;>
      cases h <;> rfl
  | decArm ea ec =>
    simp only [exec] at h
    rcases execDecArm_cases ea ec s with ⟨_, e⟩ | ⟨_, _, e⟩ | ⟨_, _, e⟩ <;> rw [e] at h <;>
      cases h <;> rfl
  | decCancel =>
    simp only [exec] at h
    rcases execDecCancel_cases s with ⟨_, e⟩ | ⟨_, e⟩ <;> rw [e] at h <;> cases h <;> rfl
  | rxByte d =>
    simp only [exec] at h
    rcases execRxByte_cases d s with ⟨_, e⟩ | ⟨_, e⟩ | ⟨_, e⟩ | ⟨_, e⟩ <;> rw [e] at h
    · cases h; rfl
    · cases h; rfl
    · rcases rxHeader_next h with ⟨_, _, rfl⟩ | ⟨_, rfl⟩
      · rfl
      · rcases checkHeader_cases (recordHeader d s) with
          ⟨_, e⟩ | ⟨_, _, e⟩ | ⟨_, _, _, e⟩ | ⟨_, _, _, _, e⟩ | ⟨_, _, _, _, e⟩ <;> rw [e] <;> rfl
    · obtain ⟨_, _, _, rfl⟩ := rxBody_next h
      rcases checkFrame_cases (recordBody d s) with ⟨_, e⟩ | ⟨_, _, e⟩ | ⟨_, _, e⟩ <;> rw [e] <;> rfl
  | rxEos =>
    simp only [exec] at h
    rcases execRxEos_cases s with ⟨_, e⟩ | ⟨_, e⟩ <;> rw [e] at h <;> cases h <;> rfl

/-- Nor does any event touch the events after it. -/
theorem takeEvent_events {e : Event} {s t : State} (h : takeEvent e s = .next t) :
    t.events = s.events := by
  rcases takeEvent_next h with ⟨w, i, rfl, _, h⟩ | ⟨w, r, rfl, _, rfl⟩ | ⟨ri, rfl, rfl⟩ |
    ⟨rfl, _, rfl⟩ | ⟨d, l, rfl, _, h⟩ | ⟨rfl, h⟩ | ⟨rfl, rfl⟩ | ⟨l, rfl, rfl⟩
  · exact exec_events h
  · rfl
  · rfl
  · rfl
  · exact exec_events (s := { s with link := l }) h
  · exact exec_events (i := .rxEos) h
  · rfl
  · rfl

/-- A run takes its first event and goes on with the rest. -/
theorem runAll_cons {s t : State} {e : Event} {es : List Event}
    (h : takeEvent e { s with events := es } = .next t) :
    runAll { s with events := e :: es } = runAll { t with events := es } := by
  have ht : t.events = es := takeEvent_events h
  show (match takeEvent e { s with events := es } with
    | .next u => runSteps es.length u | .fault r => .fault r | .refused r => .refused r) = _
  rw [h]
  show runSteps es.length t = runSteps es.length { t with events := es }
  rw [← ht]

end Sys2Proof.Machine
end

