-- ==== Sys2Proof/Tests/Slice0.lean ====
section
/-! SUPPORT. The model's own tests. Expected values come from the spec: the encodings of
30_encoding.md, the examples of the instruction rules, and the vector tables of 95_test_vectors.md
(named by their row labels). After them, a witness for the hypotheses of every statement that has some. -/

namespace Sys2Proof.Tests

open Sys2Proof Sys2Proof.Machine

/-! ### Well-formedness: the ill-formed terms are refused -/

theorem test_wf_kind_three : (Instr.decSetv 3 0x00).wf = false := by decide
theorem test_wf_kind_two : (Instr.decSetv 2 0xFF).wf = true := by decide
theorem test_wf_send_252_bytes : (Pseudo.send 0x00 0x21 (List.replicate 252 0x00)).wf = false := by decide +kernel
theorem test_wf_send_251_bytes : (Pseudo.send 0x00 0x21 (List.replicate 251 0x00)).wf = true := by decide +kernel
theorem test_wf_recv_kind_three : (Pseudo.recv 0x00 0x21 3 0x00).wf = false := by decide

/-! ### Decoding: one word per constructor, written from R75's fields -/

theorem test_decode_nop : decode 0x00000000 = .instr .nop := by decide
theorem test_decode_crcInit : decode 0x01000000 = .instr .crcInit := by decide
theorem test_decode_crcByte : decode 0x02000039 = .instr (.crcByte 0x39) := by decide
theorem test_decode_encStart : decode 0x105AA503 = .instr (.encStart 0x5A 0xA5 0x03) := by decide
theorem test_decode_encByte : decode 0x110000DE = .instr (.encByte 0xDE) := by decide
theorem test_decode_decSetv : decode 0x20000201 = .instr (.decSetv 2 0x01) := by decide
theorem test_decode_decArm : decode 0x217E0200 = .instr (.decArm 0x7E 0x02) := by decide
theorem test_decode_decCancel : decode 0x22000000 = .instr .decCancel := by decide
theorem test_decode_rxByte : decode 0x300000CC = .instr (.rxByte 0xCC) := by decide
theorem test_decode_rxEos : decode 0x31000000 = .instr .rxEos := by decide

/-- The four words of program P7, and one word per further ground of R77. -/
theorem test_reject_p7 :
    decodeCmd 0x03000000 = .reject .reservedOp ∧ decodeCmd 0x30000000 = .reject .rxCode ∧
    decodeCmd 0x20000300 = .reject .kindThree ∧ decodeCmd 0x02010031 = .reject .nonzeroField := by decide
theorem test_reject_zero_fields :
    decodeCmd 0x00000001 = .reject .nonzeroField ∧ decodeCmd 0x01000100 = .reject .nonzeroField ∧
    decodeCmd 0x11000100 = .reject .nonzeroField ∧ decodeCmd 0x20000400 = .reject .nonzeroField ∧
    decodeCmd 0x21000201 = .reject .nonzeroField ∧ decodeCmd 0x22800000 = .reject .nonzeroField ∧
    decodeCmd 0x31000000 = .reject .rxCode := by decide

/-- The two worked encodings of R80, both ways, and their spelling. -/
theorem test_encode_r80 :
    encode (.encStart 0x00 0x21 0x00) = 0x10002100 ∧ encode (.decSetv 1 9) = 0x20000109 := by decide
theorem test_asm_r80 :
    (Instr.encStart 0x00 0x21 0x00).asm = "ENC_START 0x00, 0x21, 0x00" ∧
    (Instr.decSetv 1 9).asm = "DEC_SETV EXACT, 0x09" ∧ readAsm 0x1FA = "RD 0x1FA" := by decide

/-- The expansion of SEND and of RECV (R81), with the words of vectors E7 and D1. -/
theorem test_expand_send :
    (Pseudo.send 0x00 0x01 [0x02, 0x04]).expand.map encode = [0x10000102, 0x11000002, 0x11000004] := by
  decide
theorem test_expand_recv :
    (Pseudo.recv 0x00 0x02 2 1).expand.map encode = [0x20000201, 0x21000200] := by decide

theorem test_decodeTableWord :
    decodeTableWord 32 0x21000200 = some (.decArm 0x00 0x02) ∧ decodeTableWord 32 0x20000300 = none := by
  decide
theorem test_withFetchWord_rxByte :
    (State.reset.withFetchWord 32 0x30000009).link = [0x09] ∧
    (State.reset.withFetchWord 32 0x30000009).events = [.rxOffer] := by decide

/-- R77: the words of program P7 are illegal where they are presented; a wider number presents nothing
(log entry 17). -/
theorem test_withFetchWord_no_operation :
    (State.reset.withFetchWord 32 0x20000300).events = [.cmd 0x20000300] ∧
    State.reset.withFetchWord 40 0x02000031 = State.reset ∧
    State.reset.withFetchWord 32 0x102000031 = State.reset := by decide

/-! ### Small states, from the vectors -/

/-- The encoder after E5: `ENC_START 0x00, 0x01, 0x02`. -/
def e5 : State :=
  { State.reset with
    enc := { mode := .body, addr := 0x00, cmd := 0x01, len := 0x06, rem := 2, crc := 0xFE63 }
    tx := [0x06, 0x00, 0x01] }

/-- The encoder after E6: one payload byte later. -/
def e6 : State :=
  { e5 with
    enc := { e5.enc with rem := 1, crc := 0x7271 }
    tx := [0x06, 0x00, 0x01, 0x02] }

/-- Armed for address 0x00 and command 0x02. -/
def armed : State :=
  { State.reset with dec := { Dec.reset with mode := .hdr, expCmd := 0x02 } }

/-- D19: armed, the length byte 09 received. -/
def hdr1 : State :=
  { armed with dec := { armed.dec with hcnt := 1, obsLen := 0x09, crc := 0x9246 } }

/-- Armed, `len` and `addr` received. -/
def hdr2 (len addr : Byte) : State :=
  { armed with dec := { armed.dec with hcnt := 2, obsLen := len, obsAddr := addr, crc := crc16 [len, addr] } }

/-- D14 and D15: the bytes `09 00 02 00 DE AD` received. -/
def body4 : State :=
  { armed with
    dec := { armed.dec with
      mode := .body, hcnt := 3, obsLen := 0x09, obsCmd := 0x02, plen := 5, rem := 4, crc := 0xAFB1
      buf := [⟨1, 0xDE⟩, ⟨2, 0xAD⟩] } }

/-- D1 with the two CRC bytes to come. -/
def body2 : State :=
  { armed with
    dec := { armed.dec with
      mode := .body, hcnt := 3, obsLen := 0x09, obsCmd := 0x02, plen := 5, rem := 2, crc := 0xC1CC
      buf := [⟨1, 0xDE⟩, ⟨2, 0xAD⟩, ⟨3, 0xBE⟩, ⟨4, 0xEF⟩] } }

/-- D1 with the second CRC byte to come. -/
def body1 : State :=
  { body2 with dec := { body2.dec with rem := 1, rxcrc := 0x00CC, crc := 0x00C1 } }

/-- The end state of D1. -/
def doneD1 : State :=
  { body2 with dec := { body2.dec with mode := .done, rem := 0, rxcrc := 0xC1CC, crc := 0x0000 } }

/-- The end state of D5. -/
def errD5 : State :=
  { armed with
    dec := { armed.dec with
      mode := .error, err := .addr, hcnt := 3, obsLen := 0x05, obsAddr := 0x01, obsCmd := 0x02
      crc := 0x3A44 } }

/-- The end state of D2: a checksum error, with bytes stored. -/
def errD2 : State :=
  { body2 with
    dec := { body2.dec with
      mode := .error, err := .checksum, rem := 0, rxcrc := 0xC1CC, crc := 0x042B
      buf := [⟨1, 0xDF⟩, ⟨2, 0xAD⟩, ⟨3, 0xBE⟩, ⟨4, 0xEF⟩] } }

/-- A fact about the next state of an operation. -/
def after (i : Instr) (s : State) (p : State → Bool) : Bool :=
  match exec i s with
  | .next t => p t
  | .fault _ => false
  | .refused _ => false

/-- A fact about the next state of an event. -/
def afterEvent (e : Event) (s : State) (p : State → Bool) : Bool :=
  match step { s with events := [e] } with
  | .next t => p t
  | .fault _ => false
  | .refused _ => false

/-! ### Meanings -/

theorem test_nop_clears_illegal :
    after .nop { State.reset with result := .illegal } (fun t => readReg t 0x001 == 0x00000000) = true := by
  decide
theorem test_crcInit : after .crcInit { State.reset with crcAcc := 0x2F8D }
    (fun t => readReg t 0x000 == 0x0000FFFF) = true := by decide
/-- R102's example and R103's. -/
theorem test_crcByte :
    after (.crcByte 0x31) State.reset (fun t => t.crcAcc == 0x2F8D) = true ∧
    after (.crcByte 0x04) State.reset (fun t => t.crcAcc == 0x49A3) = true := by decide
/-- E3. -/
theorem test_encStart_empty :
    after (.encStart 0xFF 0x21 0x00) State.reset (fun t => t.tx == [0x04, 0xFF, 0x21, 0x19, 0x95] &&
      readReg t 0x002 == 0x00040000 && readReg t 0x003 == 0x000021FF && readReg t 0x004 == 0x00009519)
      = true := by decide +kernel
/-- E10, E11. -/
theorem test_encStart_bound :
    after (.encStart 0x00 0x12 0xFB) State.reset (fun t => t.tx == [0xFF, 0x00, 0x12] &&
      readReg t 0x002 == 0x00FFFB01 && t.enc.crc == 0xCC53) = true ∧
    after (.encStart 0x00 0x21 0xFC) State.reset (fun t => t == { State.reset with result := .overflow })
      = true := by decide +kernel
/-- E15: SEQUENCE before OVERFLOW. -/
theorem test_encStart_in_body :
    after (.encStart 0x00 0x01 0xFC) e5 (fun t => t == { e5 with result := .sequence }) = true := by decide
/-- E6. -/
theorem test_encByte :
    after (.encByte 0x02) e5 (fun t => t == { e6 with result := .ok }) = true := by decide
/-- E7. -/
theorem test_encByte_last :
    after (.encByte 0x04) e6 (fun t => t.tx == [0x06, 0x00, 0x01, 0x02, 0x04, 0x58, 0x24] &&
      readReg t 0x002 == 0x00060000 && readReg t 0x004 == 0x00002458) = true := by decide
/-- E13. -/
theorem test_encByte_idle :
    after (.encByte 0x00) State.reset (fun t => t == { State.reset with result := .sequence }) = true := by
  decide
/-- R141's example; D19. -/
theorem test_decSetv :
    after (.decSetv 1 9) State.reset (fun t => readReg t 0x009 == 0x09010000) = true ∧
    after (.decSetv 1 9) hdr1 (fun t => t.result == .sequence && readReg t 0x009 == 0x00000200) = true := by
  decide
/-- D20. -/
theorem test_decSetv_kind_three :
    after (.decSetv 3 0) State.reset (fun t => t == { State.reset with result := .illegal }) = true := by
  decide
/-- R143's example; D17. -/
theorem test_decArm :
    after (.decArm 0x00 0x02) State.reset (fun t => t == armed) = true ∧
    after (.decArm 0x00 0x02) { State.reset with dec := { Dec.reset with rxClosed := true } }
      (fun t => readReg t 0x008 == 0x00000964 && t.result == .ok) = true := by decide
/-- D18; R219: the payload is gone once re-armed. -/
theorem test_decArm_error_done :
    after (.decArm 0x00 0x02) errD5 (fun t => t == { errD5 with result := .sequence }) = true ∧
    after (.decArm 0x00 0x02) doneD1 (fun t => readReg t 0x101 == 0 && t.dec.rxcrc == 0) = true := by decide
/-- D15, D16. -/
theorem test_decCancel :
    after .decCancel body4 (fun t => readReg t 0x008 == 0x00000E74 && readReg t 0x00B == 0x00000405) = true ∧
    after .decCancel State.reset (fun t => t == State.reset) = true := by decide
/-- D5, D8: the third header byte. -/
theorem test_rxByte_header :
    after (.rxByte 0x02) (hdr2 0x05 0x01) (fun t => t == errD5) = true ∧
    after (.rxByte 0x02) (hdr2 0x03 0x00)
      (fun t => readReg t 0x008 == 0x00000E34 && readReg t 0x00C == 0x0000F545) = true := by decide +kernel
/-- D1 and D3: the last byte of a frame. -/
theorem test_rxByte_last :
    after (.rxByte 0xC1) body1 (fun t => t == doneD1 && readReg t 0x008 == 0x00000603 &&
      readReg t 0x104 == 0x000000EF && readReg t 0x105 == 0) = true ∧
    after (.rxByte 0xC0) body1 (fun t => t.dec.mode == .error && t.dec.err == .checksum) = true := by decide
/-- D1: the two CRC bytes, low first. -/
theorem test_rxByte_crc_low : after (.rxByte 0xCC) body2 (fun t => t == body1) = true := by decide
/-- D14; an end of stream with nothing pending only closes. -/
theorem test_rxEos :
    after .rxEos body4 (fun t => readReg t 0x008 == 0x00000F64 && readReg t 0x00C == 0x0000AFB1) = true ∧
    after .rxEos doneD1 (fun t => readReg t 0x008 == 0x00000703) = true := by decide
/-- D21: the byte stays at the link. -/
theorem test_rxOffer_idle :
    afterEvent .rxOffer { State.reset with link := [0x09] } (fun t => t == { State.reset with link := [0x09] })
      = true := by decide
/-- RD16, RD13, RD1. -/
theorem test_read :
    readReg errD2 0x101 = 0 ∧ readReg errD2 0x1FB = 0 ∧ readReg State.reset 0x000 = 0x0000FFFF := by decide
/-- E18: reset keeps the truncated frame on TX. -/
theorem test_rst : afterEvent .rst e5
    (fun t => t == { State.reset with tx := [0x06, 0x00, 0x01] }) = true := by decide
theorem test_buffer_canonical :
    Memory.write [⟨1, 0xDE⟩] 1 0x00 = [] ∧ Memory.write [⟨2, 0xAD⟩] 1 0xDE = [⟨1, 0xDE⟩, ⟨2, 0xAD⟩] ∧
    Memory.wf [⟨251, 1⟩] = false ∧ Memory.wf [⟨250, 1⟩] = true := by decide

/-! ### The hypotheses of the statements are met -/

/-- The small states meet the invariants; the CRCs in them are the spec's. -/
theorem witness_inv :
    State.reset.Inv ∧ e5.Inv ∧ e6.Inv ∧ armed.Inv ∧ hdr1.Inv ∧ (hdr2 0x09 0x00).Inv ∧ body4.Inv ∧
    body2.Inv ∧ body1.Inv ∧ doneD1.Inv ∧ errD5.Inv ∧ errD2.Inv := by
  refine ⟨?_, ?_, ?_, ?_, ?_, ?_, ?_, ?_, ?_, ?_, ?_, ?_⟩ <;> decide +kernel
theorem witness_decFrameInv :
    decFrameInv armed.dec ∧ decFrameInv hdr1.dec ∧ decFrameInv (hdr2 0x09 0x00).dec ∧
    decFrameInv body4.dec ∧ decFrameInv body2.dec ∧ decFrameInv body1.dec ∧ decFrameInv doneD1.dec ∧
    decFrameInv errD5.dec ∧ decFrameInv errD2.dec := by
  refine ⟨?_, ?_, ?_, ?_, ?_, ?_, ?_, ?_, ?_⟩ <;> decide +kernel
theorem witness_encFrameInv : encFrameInv e6 := fun _ => ⟨[], [0x02], by decide +kernel⟩

theorem witness_DecodeOfEncodeIsTheOperation :
    (Instr.decSetv 2 0xFF).wf = true ∧ (Instr.decSetv 2 0xFF).isRx = false ∧
    (Instr.rxByte 0xFF).wf = true := by decide
theorem witness_EncodeOfDecodeIsTheWord : decode 0x200002FF = .instr (.decSetv 2 0xFF) := by decide
/-- One word per ground of R77, at the edges of the reserved ranges, and legal words next to them. -/
theorem witness_IllegalWordSetsOnlyResult :
    illegalCmd 0x03000000 ∧ illegalCmd 0x0F000000 ∧ illegalCmd 0x12000000 ∧ illegalCmd 0x23000000 ∧
    illegalCmd 0xFFFFFFFF ∧ illegalCmd 0x30000000 ∧ illegalCmd 0x31000000 ∧ illegalCmd 0x00000001 ∧
    illegalCmd 0x02000100 ∧ illegalCmd 0x20000400 ∧ illegalCmd 0x20000300 ∧ illegalCmd 0x21000001 := by
  refine ⟨?_, ?_, ?_, ?_, ?_, ?_, ?_, ?_, ?_, ?_, ?_, ?_⟩ <;> unfold illegalCmd <;> decide
theorem witness_EveryOtherWordIsACommand :
    ¬ illegalCmd 0x00000000 ∧ ¬ illegalCmd 0x10FFFFFF ∧ ¬ illegalCmd 0x200002FF ∧
    ¬ illegalCmd 0x21FFFF00 ∧ ¬ illegalCmd 0x22000000 := by
  refine ⟨?_, ?_, ?_, ?_, ?_⟩ <;> unfold illegalCmd <;> decide
theorem witness_StepRunsThePresentedOperation :
    decodeCmd 0x11000004 = .instr (.encByte 0x04) ∧ (Instr.encByte 0x04).wf = true := by decide
/-- A word for each result code of R181, and for each row of its SEQUENCE line. -/
theorem witness_CommandResultCodes :
    afterEvent (.cmd 0x03000000) e5 (fun t => t.result == .illegal) = true ∧
    afterEvent (.cmd 0x10000100) e5 (fun t => t.result == .sequence) = true ∧
    afterEvent (.cmd 0x11000000) State.reset (fun t => t.result == .sequence) = true ∧
    afterEvent (.cmd 0x20000109) body4 (fun t => t.result == .sequence) = true ∧
    afterEvent (.cmd 0x21000200) errD5 (fun t => t.result == .sequence) = true ∧
    afterEvent (.cmd 0x100021FC) State.reset (fun t => t.result == .overflow) = true ∧
    afterEvent (.cmd 0x100021FB) State.reset (fun t => t.result == .ok) = true := by decide
theorem witness_ResultWrittenByCommandWordsAndReset :
    afterEvent .rst e5 (fun t => t.result == .ok) = true ∧
    afterEvent .rxEos { e5 with result := .illegal } (fun t => t.result == .illegal) = true ∧
    Event.rxEos.isCmd = false := by decide

/-- The illegal neighbours of each command's word (the operation's OP, a nonzero `=0` field). -/
theorem witness_illegal_neighbours :
    ((0x00000001 : Word).extractLsb' 24 8 = (0x00 : Byte) ∧ (0x00000001 : Word) ≠ 0) ∧
    ((0x01000001 : Word).extractLsb' 24 8 = (0x01 : Byte) ∧
      (0x01000001 : Word).extractLsb' 0 24 ≠ (0 : BitVec 24)) ∧
    ((0x02000100 : Word).extractLsb' 24 8 = (0x02 : Byte) ∧
      (0x02000100 : Word).extractLsb' 8 16 ≠ (0 : BitVec 16)) ∧
    ((0x11800000 : Word).extractLsb' 24 8 = (0x11 : Byte) ∧
      (0x11800000 : Word).extractLsb' 8 16 ≠ (0 : BitVec 16)) ∧
    ((0x20000400 : Word).extractLsb' 24 8 = (0x20 : Byte) ∧
      (0x20000400 : Word).extractLsb' 10 14 ≠ (0 : BitVec 14)) ∧
    ((0x20000300 : Word).extractLsb' 24 8 = (0x20 : Byte) ∧
      (0x20000300 : Word).extractLsb' 8 2 = (3 : BitVec 2)) ∧
    ((0x21000001 : Word).extractLsb' 24 8 = (0x21 : Byte) ∧
      (0x21000001 : Word).extractLsb' 0 8 ≠ (0 : Byte)) ∧
    ((0x22000001 : Word).extractLsb' 24 8 = (0x22 : Byte) ∧ (0x22000001 : Word) ≠ 0x22000000) := by decide

/-- ENC_START: an open frame; the counts 252 and 255; the counts 1 and 251; an IDLE encoder. -/
theorem witness_EncStartResult :
    e5.enc.mode = .body ∧ State.reset.enc.mode = .idle ∧ 251 < (0xFC : Byte).toNat ∧
    251 < (0xFF : Byte).toNat ∧ 1 ≤ (0x01 : Byte).toNat ∧ (0x01 : Byte).toNat ≤ 251 ∧
    1 ≤ (0xFB : Byte).toNat ∧ (0xFB : Byte).toNat ≤ 251 := by decide
theorem witness_EncByteResult :
    State.reset.enc.mode = .idle ∧ (e5.enc.mode = .body ∧ 2 ≤ e5.enc.rem.toNat) ∧
    (e6.enc.mode = .body ∧ e6.enc.rem = 1) ∧ e6.Inv := by decide
/-- DEC_SETV: a pending read in HDR and in BODY; the three modes that take it; an event that is none. -/
theorem witness_DecSetvResult :
    (2 : BitVec 2) ≠ 3 ∧ armed.dec.mode = .hdr ∧ body4.dec.mode = .body ∧ State.reset.dec.mode = .idle ∧
    doneD1.dec.mode = .done ∧ errD5.dec.mode = .error ∧
    afterEvent (.cmd 0x21000200) doneD1 (fun t => t.dec.vkind == doneD1.dec.vkind) = true ∧
    Event.cmdInstr (.cmd 0x21000200) = some (.decArm 0x00 0x02) ∧
    252 ≤ (0xFC : Byte).toNat ∧ (251 : Nat) ≤ 251 := by decide
theorem witness_DecArmResult :
    body1.dec.mode = .body ∧ doneD1.dec.mode = .done ∧
    after (.decArm 0x00 0x02) doneD1 (fun t => t.dec.mode == .hdr) = true ∧
    after (.decArm 0x00 0x02) { doneD1 with dec := { doneD1.dec with rxClosed := true } }
      (fun t => t.dec.mode == .error) = true := by decide
theorem witness_DecCancelResult :
    hdr1.dec.mode = .hdr ∧ body1.dec.mode = .body ∧ errD2.dec.mode = .error := by decide

/-- RX_BYTE: the header counts 0, 1 and 2; each header check and the pass at lengths 3, 4 and 255; the
body counts 4, 2 and 1; a header error out of a state that meets the frame invariant. -/
theorem witness_RxByteResult :
    (armed.dec.mode = .hdr ∧ armed.dec.hcnt = 0) ∧ (hdr1.dec.mode = .hdr ∧ hdr1.dec.hcnt = 1) ∧
    ((hdr2 0x09 0x00).dec.mode = .hdr ∧ (hdr2 0x09 0x00).dec.hcnt = 2) ∧
    after (.rxByte 0x03) (hdr2 0x05 0x00) (fun t => t.dec.err == .cmd) = true ∧
    after (.rxByte 0x02) (hdr2 0x03 0x00) (fun t => t.dec.err == .len) = true ∧
    after (.rxByte 0x02) (hdr2 0x04 0x00) (fun t => t.dec.mode == .body && t.dec.rem == 2) = true ∧
    after (.rxByte 0x02) (hdr2 0xFF 0x00) (fun t => t.dec.plen == 251 && t.dec.rem == 253) = true ∧
    (body4.dec.mode = .body ∧ body4.dec.plen.toNat ≤ 251 ∧ 2 < body4.dec.rem.toNat ∧
      body4.dec.rem.toNat ≤ body4.dec.plen.toNat + 2) ∧
    (body2.dec.mode = .body ∧ body2.dec.rem = 2) ∧ (body1.dec.mode = .body ∧ body1.dec.rem = 1) ∧
    errD5.dec.mode = .error := by decide
theorem witness_RxByteResult_header_error :
    (hdr2 0x05 0x01).dec.mode = .hdr ∧ decFrameInv (hdr2 0x05 0x01).dec ∧
    after (.rxByte 0x02) (hdr2 0x05 0x01) (fun t => t.dec.mode == .error) = true := by decide +kernel
theorem witness_size_error :
    after (.rxByte 0x02) { hdr2 0x04 0x00 with
      dec := { (hdr2 0x04 0x00).dec with vkind := .min, vsize := 1 } }
      (fun t => t.dec.err == .size && readReg t 0x00C == 0x00007940) = true := by decide +kernel
theorem witness_RxByteNotReadyReturnsTheByte :
    State.reset.dec.mode = .idle ∧ doneD1.dec.mode = .done := by decide
theorem witness_RxEosResult :
    hdr1.dec.mode = .hdr ∧ body4.dec.mode = .body ∧ State.reset.dec.mode = .idle ∧
    after .rxEos doneD1 (fun t => t.dec.rxClosed) = true := by decide
theorem witness_RxBackpressure :
    rxReady State.reset.dec = false ∧ rxReady doneD1.dec = false ∧ rxReady armed.dec = true ∧
    errD5.dec.mode = .error := by decide
theorem witness_ResetEventSetsEveryField :
    errD5.dec.mode = .error ∧ afterEvent (.cmd 0x22000000) errD5 (fun t => t.dec.mode == .error) = true := by
  decide
theorem witness_SurroundingFieldsFrame :
    afterEvent .rxEos doneD1 (fun t => t.rdLog == doneD1.rdLog) = true ∧
    afterEvent (.reopen [0x04]) doneD1 (fun t => t.link == [0x04]) = true ∧
    Event.isEncWord (.cmd 0x01000000) = false := by decide
theorem witness_ReadChangesNoState :
    afterEvent (.rd 0x009) doneD1 (fun t => t == { doneD1 with rdLog := [(0x009, 0x00000200)] }) = true ∧
    (0x005 : RegIndex).toNat = 0x005 ∧ (0x00E : RegIndex).toNat = 0x00E ∧
    (0x1FF : RegIndex).toNat = 0x1FF := by decide
theorem witness_DecoderRegistersRead :
    (armed.dec.hcnt = 0 ∧ readReg armed 0x00A = 0) ∧
    (hdr1.dec.hcnt.toNat ≤ 1 ∧ readReg hdr1 0x00A = 0x00000009) ∧
    ((hdr2 0x05 0x01).dec.hcnt.toNat ≤ 2 ∧ readReg (hdr2 0x05 0x01) 0x00A = 0x00000105) ∧
    body4.dec.plen ≠ 0 ∧ (doneD1.dec.mode = .done ∧ readReg doneD1 0x00C = 0) := by decide
/-- The first and last payload bytes and the first index past them. -/
theorem witness_PayloadWindowReads :
    readReg doneD1 (BitVec.ofNat 9 (0x100 + 0)) = 0x00 ∧ readReg doneD1 (BitVec.ofNat 9 (0x100 + 4)) = 0xEF ∧
    readReg doneD1 (BitVec.ofNat 9 (0x100 + 5)) = 0 ∧ readReg doneD1 (BitVec.ofNat 9 (0x100 + 250)) = 0 := by
  decide
theorem witness_EncodeFrameLayout :
    ([0x02, 0x04] : List Byte).length ≤ 251 ∧ (List.replicate 251 (0x00 : Byte)).length ≤ 251 ∧
    251 < (List.replicate 252 (0x00 : Byte)).length := by decide +kernel
/-- The frame of E7, computed by `Encode`. -/
theorem witness_EncodedFrameIsWellFormed :
    encodeFrame 0x00 0x01 [0x02, 0x04] = some [0x06, 0x00, 0x01, 0x02, 0x04, 0x58, 0x24] := by decide +kernel
theorem witness_OnlyEncoderWordsEmit :
    afterEvent (.cmd 0x02000031) e5 (fun t => t.tx == e5.tx) = true ∧
    Event.isEncWord (.cmd 0x02000031) = false := by decide
/-- One payload byte, with a CRC word and a read in between. -/
theorem witness_EncoderStreamLaw :
    State.reset.Inv ∧ State.reset.enc.mode = .idle ∧ ([0xFB] : List Byte).length ≤ 251 ∧
    (∀ e ∈ ([.cmd 0x10000101, .cmd 0x02000031, .rd 0x002, .cmd 0x110000FB] : List Event), e ≠ .rst) ∧
    ([.cmd 0x10000101, .cmd 0x02000031, .rd 0x002, .cmd 0x110000FB] : List Event).filter Event.isEncWord
      = cmdEvents (.encStart 0x00 0x01 (BitVec.ofNat 8 1) :: ([0xFB] : List Byte).map .encByte) := by decide
theorem witness_PseudoInstructionEffects :
    State.reset.enc.mode = .idle ∧ ([0x02, 0x04] : List Byte).length ≤ 251 := by decide
/-- The outcomes of `Decode` over the streams of D1, D5 and D14, and a shorter one. -/
theorem witness_DecoderLaw :
    (State.reset.dec.mode = .idle ∧ State.reset.dec.rxClosed = false ∧ State.reset.dec.buf.wf = true) ∧
    decodeFrame 0x00 0x02 .min 1 [0x09, 0x00, 0x02, 0x00, 0xDE, 0xAD, 0xBE, 0xEF, 0xCC, 0xC1] false
      = .done [0x00, 0xDE, 0xAD, 0xBE, 0xEF] 10 ∧
    decodeFrame 0x00 0x02 .any 0 [0x05, 0x01, 0x02, 0x00, 0x1A, 0x04] false = .error .addr ∧
    decodeFrame 0x00 0x02 .any 0 [0x09, 0x00, 0x02, 0x00, 0xDE, 0xAD] true = .error .transport ∧
    decodeFrame 0x00 0x02 .any 0 [0x09, 0x00] false = .pending := by decide +kernel
theorem witness_DecodeOfEncodedFrame :
    encodeFrame 0x00 0x02 [] = some [0x04, 0x00, 0x02, 0x40, 0x79] := by decide +kernel
theorem witness_LoopbackDeliversThePayload :
    State.reset.Inv ∧ State.reset.enc.mode = .idle ∧ State.reset.dec.mode = .idle ∧
    State.reset.dec.rxClosed = false ∧ encodeFrame 0x00 0x02 [] = some [0x04, 0x00, 0x02, 0x40, 0x79] ∧
    acceptsSize State.reset.dec.vkind State.reset.dec.vsize 0 = true := by decide +kernel
theorem witness_ErrorLeftOnlyByReset :
    errD5.dec.mode = .error ∧ afterEvent .rst errD5 (fun t => t.dec.mode == .idle) = true ∧
    afterEvent (.cmd 0x21000200) errD5 (fun t => t.dec == errD5.dec) = true ∧
    Event.cmdInstr (.cmd 0x21000200) = some (.decArm 0x00 0x02) ∧
    afterEvent .rxEos errD5 (fun t => t.dec.rxClosed) = true ∧
    Event.cmdInstr (.cmd 0x22000000) = some .decCancel := by decide
/-- One event for each way the mode moves. -/
theorem witness_DecoderModeMoves :
    afterEvent (.cmd 0x21000200) State.reset (fun t => t.dec.mode == .hdr) = true ∧
    afterEvent .rxOffer { hdr2 0x09 0x00 with link := [0x02] } (fun t => t.dec.mode == .body) = true ∧
    afterEvent .rxOffer { body1 with link := [0xC1] } (fun t => t.dec.mode == .done) = true ∧
    afterEvent .rxEos body1 (fun t => t.dec.err == .transport) = true ∧
    afterEvent (.cmd 0x22000000) armed (fun t => t.dec.err == .cancelled) = true := by decide
theorem witness_ArmedDecoderWaits :
    armed.Inv ∧ armed.dec.mode = .hdr ∧ armed.link = [] ∧
    (Event.rxOffer ≠ .rst ∧ Event.rxOffer ≠ .rxEos ∧ Event.rxOffer.cmdInstr ≠ some .decCancel) ∧
    body4.Inv ∧ body4.dec.mode = .body ∧ body4.link = [] := by
  refine ⟨?_, ?_, ?_, ?_, ?_, ?_, ?_⟩ <;> decide +kernel
theorem witness_ArmedDecoderWaits_events :
    ∀ e ∈ ([.rxOffer, .cmd 0x20000109] : List Event),
      e ≠ .rst ∧ e ≠ .rxEos ∧ e.cmdInstr ≠ some .decCancel ∧ ∀ l, e ≠ .reopen l := by
  intro e he
  rcases List.mem_cons.1 he with rfl | he
  · exact ⟨by decide, by decide, by decide, fun _ h => by cases h⟩
  · rcases List.mem_singleton.1 he with rfl
    exact ⟨by decide, by decide, by decide, fun _ h => by cases h⟩
theorem witness_CrcAndEncoderWordsFrame :
    (Instr.encByte 0x04).isDec = false ∧ after (.encByte 0x04) e6 (fun t => t.dec == e6.dec) = true ∧
    (Instr.encByte 0x04).isCrc = false ∧ (Instr.crcByte 0x04).isEnc = false := by decide
theorem witness_DecoderWordsFrame :
    (Instr.decArm 0x00 0x02).isDec = true ∧ (Instr.decArm 0x00 0x02).isRx = false ∧
    after (.decArm 0x00 0x02) doneD1 (fun t => t.dec.buf == doneD1.dec.buf) = true := by decide
theorem witness_RxEventsFrame :
    (Instr.rxByte 0xBE).isRx = true ∧ body4.dec.buf.wf = true ∧
    after (.rxByte 0xBE) body4 (fun t => t.dec.buf == [⟨1, 0xDE⟩, ⟨2, 0xAD⟩, ⟨3, 0xBE⟩]) = true ∧
    (body4.dec.mode = .body ∧ 2 < body4.dec.rem.toNat) ∧ bodyIndex body4.dec = 3 ∧
    ¬ (body2.dec.mode = .body ∧ 2 < body2.dec.rem.toNat) := by decide
theorem witness_BufferReadAfterWrite :
    Memory.wf body4.dec.buf = true ∧ (250 : Nat) < 251 ∧ Memory.wf [] = true := by decide
theorem witness_SubBlocksShareNoState :
    afterEvent (.cmd 0x02000031) e5 (fun t => t.crcAcc == 0x2F8D) = true ∧
    afterEvent (.cmd 0x02000031) doneD1 (fun t => t.crcAcc == 0x2F8D) = true ∧
    e5.crcAcc = doneD1.crcAcc ∧ e5.link = armed.link := by decide
theorem witness_FieldsWrittenOnlyByTheirEvents :
    afterEvent (.cmd 0x20000109) doneD1 (fun t => t.dec.vsize == 9) = true ∧
    Event.isCrcWord (.cmd 0x20000109) = false ∧ Event.isEncWord (.cmd 0x20000109) = false ∧
    Event.isDecEvent (.cmd 0x01000000) = false := by decide
theorem witness_StepKeepsInvariant :
    body1.Inv ∧ afterEvent .rxOffer { body1 with link := [0xC1] } (fun t => t.dec.mode == .done) = true := by
  decide
theorem witness_StepKeepsOpenFrameOnTx :
    e6.Inv ∧ afterEvent (.cmd 0x11000004) e6 (fun t => t.enc.mode == .idle) = true := by decide
theorem witness_DoneHoldsAWellFormedFrame :
    doneD1.Inv ∧ decFrameInv doneD1.dec ∧ doneD1.dec.mode = .done ∧
    receivedFrame doneD1.dec = [0x09, 0x00, 0x02, 0x00, 0xDE, 0xAD, 0xBE, 0xEF, 0xCC, 0xC1] := by
  refine ⟨?_, ?_, ?_, ?_⟩ <;> decide +kernel

end Sys2Proof.Tests
end

section
/-! PROOFS. Command words at the CMD port: an operation's own word decodes to it, and the port names no
RX operation. -/

namespace Sys2Proof

/-- The decoder inverts the encoder on every well-formed operation (R75). -/
theorem decode_encode {i : Instr} (h : i.wf = true) : decode (encode i) = .instr i := by
  cases i with
  | decSetv vk vs =>
    have hk : ¬ vk = 3#2 := by simpa [Instr.wf] using h
    simp [decode, encode, decodeFields, onlyIf, hk]
  | nop | crcInit | crcByte | encStart | encByte | decArm | decCancel | rxByte | rxEos =>
    simp [decode, encode, decodeFields, onlyIf]

/-- So does the CMD port's, on the operations that are commands (R77(a)). -/
theorem decodeCmd_encode {i : Instr} (h : i.wf = true) (hrx : i.isRx = false) :
    decodeCmd (encode i) = .instr i := by
  have hop : (fieldOP (encode i) == 0x30 || fieldOP (encode i) == 0x31) = false := by
    cases i with
    | rxByte | rxEos => cases hrx
    | nop | crcInit | crcByte | encStart | encByte | decSetv | decArm | decCancel => simp [encode]
  rw [decodeCmd, hop, ← decode_encode h]
  rfl

/-- No word on the CMD port is an RX operation (R77(a)). -/
theorem isRx_of_decodeCmd {w : Word} {i : Instr} (h : decodeCmd w = .instr i) : i.isRx = false := by
  unfold decodeCmd at h
  split at h
  · cases h
  · rename_i hop
    have hrow := decodeFields_instr h
    cases i with
    | rxByte | rxEos =>
      have hcode : fieldOP w = 0x30 ∨ fieldOP w = 0x31 := by simp at hrow; simp [hrow]
      exact absurd (by simpa using hcode) hop
    | nop | crcInit | crcByte | encStart | encByte | decSetv | decArm | decCancel => rfl

end Sys2Proof
end

section
/-! PROOFS. `result` (10_state.md R27): what a meaning makes of the value it held before, and which
operations leave it alone. -/

namespace Sys2Proof.Machine

/-- An operation's own word on the CMD port runs the operation. -/
theorem takeEvent_encode {i : Instr} (h : i.wf = true) (hrx : i.isRx = false) (s : State) :
    takeEvent (.cmd (encode i)) s = exec i s := by
  simp only [takeEvent, takeCmd, decodeCmd_encode h hrx]

/-- The last answer stands. -/
@[simp] theorem answer_answer (q r : Result) (s : State) : answer q (answer r s) = answer q s := rfl

/-- The encoder's effects and `result` are independent. -/
theorem closeFrame_answer (r : Result) (s : State) :
    closeFrame (answer r s) = answer r (closeFrame s) := by
  unfold closeFrame
  by_cases h : s.enc.rem = 0
  · rw [if_pos h, if_pos (by exact h)]; rfl
  · rw [if_neg h, if_neg (by exact h)]; rfl

theorem openFrame_answer (a c n : Byte) (r : Result) (s : State) :
    openFrame a c n (answer r s) = answer r (openFrame a c n s) := by
  unfold openFrame
  rw [← closeFrame_answer]
  rfl

theorem sendPayload_answer (d : Byte) (r : Result) (s : State) :
    sendPayload d (answer r s) = answer r (sendPayload d s) := by
  unfold sendPayload
  rw [← closeFrame_answer]
  rfl

/-- A command's step does not depend on the `result` before it: every path writes its own (R27). -/
theorem exec_answer {i : Instr} (hrx : i.isRx = false) (r : Result) (s : State) :
    exec i (answer r s) = exec i s := by
  cases i with
  | nop | crcInit | crcByte | decSetv | decArm | decCancel => rfl
  | encStart a c n =>
    cases hm : s.enc.mode <;> simp [exec, execEncStart, hm, openFrame_answer]
  | encByte d =>
    cases hm : s.enc.mode <;> simp [exec, execEncByte, hm, sendPayload_answer]
  | rxByte | rxEos => cases hrx

/-- The decoder's checks and the two RX events leave `result` alone (R27). -/
theorem checkHeader_result (s : State) : (checkHeader s).result = s.result := by
  rcases checkHeader_cases s with
    ⟨_, h⟩ | ⟨_, _, h⟩ | ⟨_, _, _, h⟩ | ⟨_, _, _, _, h⟩ | ⟨_, _, _, _, h⟩ <;>
    exact (congrArg State.result h).trans rfl

theorem checkFrame_result (s : State) : (checkFrame s).result = s.result := by
  rcases checkFrame_cases s with ⟨_, h⟩ | ⟨_, _, h⟩ | ⟨_, _, h⟩ <;>
    exact (congrArg State.result h).trans rfl

theorem exec_rxByte_result {d : Byte} {s t : State} (h : exec (.rxByte d) s = .next t) :
    t.result = s.result := by
  simp only [exec] at h
  rcases execRxByte_cases d s with ⟨_, e⟩ | ⟨_, e⟩ | ⟨_, e⟩ | ⟨_, e⟩ <;> rw [e] at h
  · cases h; rfl
  · cases h; rfl
  · rcases rxHeader_next h with ⟨_, _, rfl⟩ | ⟨_, rfl⟩
    · rfl
    · rw [checkHeader_result, recordHeader_result]
  · obtain ⟨_, _, _, rfl⟩ := rxBody_next h
    rw [checkFrame_result, recordBody_result]

theorem exec_rxEos_result {s t : State} (h : exec .rxEos s = .next t) : t.result = s.result := by
  simp only [exec] at h
  rcases execRxEos_cases s with ⟨_, e⟩ | ⟨_, e⟩ <;> rw [e] at h <;> cases h <;> rfl

/-- A command word's step does not depend on the `result` before it, legal or not. -/
theorem takeCmd_answer (w : Word) (r : Result) (s : State) : takeCmd w (answer r s) = takeCmd w s := by
  unfold takeCmd
  cases h : decodeCmd w with
  | instr i => exact exec_answer (isRx_of_decodeCmd h) r s
  | reject => rfl

/-- An event that is neither a command word nor reset leaves `result` alone. -/
theorem takeEvent_result {e : Event} {s t : State} (h : takeEvent e s = .next t)
    (hrst : e ≠ .rst) (hcmd : e.isCmd = false) : t.result = s.result := by
  rcases takeEvent_next h with ⟨w, i, rfl, _, _⟩ | ⟨w, r, rfl, _, _⟩ | ⟨ri, _, rfl⟩ |
    ⟨_, _, rfl⟩ | ⟨d, l, _, _, h⟩ | ⟨_, h⟩ | ⟨rfl, _⟩ | ⟨l, _, rfl⟩
  · cases hcmd
  · cases hcmd
  · rfl
  · rfl
  · exact exec_rxByte_result (s := { s with link := l }) h
  · exact exec_rxEos_result h
  · exact absurd rfl hrst
  · rfl

/-- Settles O9: a command word's step forgets the old `result`, and every other event is looked up in
what one event can do. -/
theorem resultWrittenByCommandWordsAndReset : Obligations.ResultWrittenByCommandWordsAndReset := by
  unfold Obligations.ResultWrittenByCommandWordsAndReset
  refine ⟨fun s w r es => takeCmd_answer w r { s with events := es }, fun s t e es h => ⟨?_, ?_⟩, ?_⟩
  · rintro rfl
    cases h
    rfl
  · exact takeEvent_result (s := { s with events := es }) h
  · decide

end Sys2Proof.Machine
end

section
/-! PROOFS. The registers field by field (10_state.md R30 to R40): each field is read at its bit position
out of the packed word, and the bits between the fields are zero. -/

namespace Sys2Proof.Machine

open BitVec (extractLsb'_append_eq_left extractLsb'_append_eq_right)

/-- A field above the lowest one of a packed word is a field of the upper part. -/
theorem packed_above {m k n start : Nat} {x : BitVec m} {y : BitVec k} {f : BitVec n}
    (hx : x.extractLsb' (start - k) n = f) (h : k ≤ start := by decide) :
    (x ++ y).extractLsb' start n = f :=
  (BitVec.extractLsb'_append_eq_of_le h).trans hx

/-- The second field of a packed word starts where the lowest one ends. -/
theorem packed_second {m n k : Nat} {x : BitVec m} {f : BitVec n} {y : BitVec k} :
    ((x ++ f) ++ y).extractLsb' k n = f :=
  packed_above (by rw [Nat.sub_self, extractLsb'_append_eq_right]) (Nat.le_refl k)

/-- A one-bit field is the bit at its position. -/
theorem getLsbD_of_bit {x : Word} {i : Nat} {b : Bool} (h : x.extractLsb' i 1 = bit b) :
    x.getLsbD i = b := by
  have h0 := congrArg (BitVec.getLsbD · 0) h
  simpa [bit] using h0

theorem packHalf_fields (c : Half) :
    (packHalf c).extractLsb' 0 16 = c ∧ (packHalf c).extractLsb' 16 16 = (0 : Half) :=
  ⟨extractLsb'_append_eq_right, extractLsb'_append_eq_left⟩

theorem regCmdResult_fields (s : State) :
    (regCmdResult s).extractLsb' 0 2 = s.result.code ∧
    (regCmdResult s).extractLsb' 2 30 = (0 : BitVec 30) :=
  ⟨extractLsb'_append_eq_right, extractLsb'_append_eq_left⟩

theorem regEncStatus_fields (s : State) :
    (regEncStatus s).extractLsb' 0 1 = s.enc.mode.code ∧
    (regEncStatus s).extractLsb' 1 7 = (0 : BitVec 7) ∧
    (regEncStatus s).extractLsb' 8 8 = s.enc.rem ∧ (regEncStatus s).extractLsb' 16 8 = s.enc.len ∧
    (regEncStatus s).extractLsb' 24 8 = (0 : Byte) :=
  ⟨extractLsb'_append_eq_right, packed_second, packed_above packed_second,
   packed_above (packed_above packed_second),
   packed_above (packed_above (packed_above extractLsb'_append_eq_left))⟩

theorem regEncHdr_fields (s : State) :
    (regEncHdr s).extractLsb' 0 8 = s.enc.addr ∧ (regEncHdr s).extractLsb' 8 8 = s.enc.cmd ∧
    (regEncHdr s).extractLsb' 16 16 = (0 : Half) :=
  ⟨extractLsb'_append_eq_right, packed_second, packed_above extractLsb'_append_eq_left⟩

theorem regDecStatus_fields (s : State) :
    (regDecStatus s).extractLsb' 0 3 = s.dec.mode.code ∧
    (regDecStatus s).extractLsb' 3 1 = (0 : BitVec 1) ∧
    (regDecStatus s).extractLsb' 4 3 = s.dec.err.code ∧
    (regDecStatus s).extractLsb' 7 1 = (0 : BitVec 1) ∧
    (regDecStatus s).extractLsb' 8 1 = bit s.dec.rxClosed ∧
    (regDecStatus s).extractLsb' 9 2 = s.dec.hcnt ∧
    (regDecStatus s).extractLsb' 11 1 = bit (rxReady s.dec) ∧
    (regDecStatus s).extractLsb' 12 20 = (0 : BitVec 20) :=
  ⟨extractLsb'_append_eq_right, packed_second, packed_above packed_second,
   packed_above (packed_above packed_second),
   packed_above (packed_above (packed_above packed_second)),
   packed_above (packed_above (packed_above (packed_above packed_second))),
   packed_above (packed_above (packed_above (packed_above (packed_above packed_second)))),
   packed_above (packed_above (packed_above (packed_above (packed_above
     (packed_above extractLsb'_append_eq_left)))))⟩

theorem regDecExp_fields (s : State) :
    (regDecExp s).extractLsb' 0 8 = s.dec.expAddr ∧ (regDecExp s).extractLsb' 8 8 = s.dec.expCmd ∧
    (regDecExp s).extractLsb' 16 2 = s.dec.vkind.code ∧
    (regDecExp s).extractLsb' 18 6 = (0 : BitVec 6) ∧ (regDecExp s).extractLsb' 24 8 = s.dec.vsize :=
  ⟨extractLsb'_append_eq_right, packed_second, packed_above packed_second,
   packed_above (packed_above packed_second),
   packed_above (packed_above (packed_above extractLsb'_append_eq_left))⟩

theorem regDecObs_fields (s : State) :
    (regDecObs s).extractLsb' 0 8 = s.dec.obsLen ∧ (regDecObs s).extractLsb' 8 8 = s.dec.obsAddr ∧
    (regDecObs s).extractLsb' 16 8 = s.dec.obsCmd ∧ (regDecObs s).extractLsb' 24 8 = (0 : Byte) :=
  ⟨extractLsb'_append_eq_right, packed_second, packed_above packed_second,
   packed_above (packed_above extractLsb'_append_eq_left)⟩

theorem regDecPlen_fields (s : State) :
    (regDecPlen s).extractLsb' 0 8 = s.dec.plen ∧ (regDecPlen s).extractLsb' 8 8 = s.dec.rem ∧
    (regDecPlen s).extractLsb' 16 16 = (0 : Half) :=
  ⟨extractLsb'_append_eq_right, packed_second, packed_above extractLsb'_append_eq_left⟩

/-- Settles O27, register by register; the reset values are computed. -/
theorem encoderRegistersRead : Obligations.EncoderRegistersRead := by
  unfold Obligations.EncoderRegistersRead
  refine ⟨fun s => ?_, fun s => ⟨?_, ?_⟩, by decide, by decide, by decide, by decide, by decide⟩
  · obtain ⟨crcValue, crcValueZero⟩ := packHalf_fields s.crcAcc
    obtain ⟨result, resultZero⟩ := regCmdResult_fields s
    obtain ⟨mode, statusZero, rem, len, statusTop⟩ := regEncStatus_fields s
    obtain ⟨addr, cmd, hdrZero⟩ := regEncHdr_fields s
    obtain ⟨crc, crcZero⟩ := packHalf_fields s.enc.crc
    exact ⟨crcValue, crcValueZero, result, resultZero, mode, statusZero, rem, len, statusTop,
      addr, cmd, hdrZero, crc, crcZero⟩
  · have hmode : (readReg s 0x002).extractLsb' 0 1 = bit (s.enc.mode == .body) :=
      (regEncStatus_fields s).1.trans (by cases s.enc.mode <;> rfl)
    rw [getLsbD_of_bit hmode, beq_iff_eq]
  · refine (regCmdResult_fields s).1.trans ?_
    cases s.result <;> rfl

/-! ### The decoder's fields under the invariants (R37 to R39) -/

theorem obsLen_eq_zero {d : Dec} (h : decFrameInv d) (hc : d.hcnt = 0) : d.obsLen = 0 := by
  obtain ⟨_, h0, _⟩ := h
  exact (h0 hc).1

/-- The address byte is the second of the header. -/
theorem obsAddr_eq_zero {d : Dec} (h : decFrameInv d) (hc : d.hcnt.toNat ≤ 1) : d.obsAddr = 0 := by
  obtain ⟨_, h0, h1, _⟩ := h
  have hcases : ∀ c : BitVec 2, c.toNat ≤ 1 → c = 0 ∨ c = 1 := by decide
  rcases hcases d.hcnt hc with hc | hc
  · obtain ⟨_, haddr, _⟩ := h0 hc
    exact haddr
  · exact (h1 hc).1

/-- The command byte is the third. -/
theorem obsCmd_eq_zero {d : Dec} (h : decFrameInv d) (hc : d.hcnt.toNat ≤ 2) : d.obsCmd = 0 := by
  obtain ⟨_, h0, h1, h2, _⟩ := h
  have hcases : ∀ c : BitVec 2, c.toNat ≤ 2 → c = 0 ∨ c = 1 ∨ c = 2 := by decide
  rcases hcases d.hcnt hc with hc | hc | hc
  · obtain ⟨_, _, hcmd, _⟩ := h0 hc
    exact hcmd
  · obtain ⟨_, hcmd, _⟩ := h1 hc
    exact hcmd
  · exact (h2 hc).1

/-- `plen` is written by an accepted header only (R38). -/
theorem header_passed_of_plen {d : Dec} (h : decFrameInv d) (hp : d.plen ≠ 0) :
    d.hcnt = 3 ∧ headerError d.err = false := by
  obtain ⟨hpartial, _, _, _, hfailed, _⟩ := h
  constructor
  · by_contra hc
    exact hp (hpartial hc).1
  · by_contra he
    obtain ⟨_, hplen, _⟩ := hfailed (Bool.not_eq_false _ ▸ he)
    exact hp hplen

/-- Settles O28: the fields register by register, then the clauses under the two invariants. -/
theorem decoderRegistersRead : Obligations.DecoderRegistersRead := by
  unfold Obligations.DecoderRegistersRead
  refine ⟨fun s => ?_, fun s => ?_, fun s => ?_, fun s => ?_, fun s hinv hframe => ?_,
    by decide, by decide, by decide, by decide, by decide, by decide⟩
  · obtain ⟨mode, gap3, err, gap7, closed, hcnt, ready, top⟩ := regDecStatus_fields s
    refine ⟨mode, gap3, err, gap7, getLsbD_of_bit closed, hcnt, ?_, top⟩
    rw [← rxReady_iff, ← getLsbD_of_bit ready]
    rfl
  · obtain ⟨mode, _, err, _⟩ := regDecStatus_fields s
    obtain ⟨_, _, vkind, _⟩ := regDecExp_fields s
    exact ⟨mode.trans (by cases s.dec.mode <;> rfl), err.trans (by cases s.dec.err <;> rfl),
      vkind.trans (by cases s.dec.vkind <;> rfl)⟩
  · obtain ⟨expAddr, expCmd, vkind, expZero, vsize⟩ := regDecExp_fields s
    obtain ⟨obsLen, obsAddr, obsCmd, obsZero⟩ := regDecObs_fields s
    exact ⟨expAddr, expCmd, vkind, expZero, vsize, obsLen, obsAddr, obsCmd, obsZero⟩
  · obtain ⟨plen, rem, plenZero⟩ := regDecPlen_fields s
    obtain ⟨crc, crcZero⟩ := packHalf_fields s.dec.crc
    obtain ⟨rxcrc, rxcrcZero⟩ := packHalf_fields s.dec.rxcrc
    exact ⟨plen, rem, plenZero, crc, crcZero, rxcrc, rxcrcZero⟩
  · refine ⟨fun hc => ?_, fun hc => ?_, fun hc => ?_, header_passed_of_plen hframe, fun hm => ?_⟩
    · have hle : s.dec.hcnt.toNat ≤ 1 := by rw [hc]; decide
      show regDecObs s = 0
      rw [regDecObs, obsLen_eq_zero hframe hc, obsAddr_eq_zero hframe hle,
        obsCmd_eq_zero hframe (by omega)]
      rfl
    · show (regDecObs s).extractLsb' 8 16 = 0
      rw [regDecObs, obsAddr_eq_zero hframe hc, obsCmd_eq_zero hframe (by omega)]
      exact packed_above rfl
    · obtain ⟨_, _, obsCmd, _⟩ := regDecObs_fields s
      exact obsCmd.trans (obsCmd_eq_zero hframe hc)
    · obtain ⟨_, _, _, _, hdone, _⟩ := hinv
      obtain ⟨_, hcrc, _⟩ := hdone hm
      show packHalf s.dec.crc = 0
      rw [hcrc]
      rfl

end Sys2Proof.Machine
end

section
/-! PROOFS. Reads of the register map: the read itself (R44), the unmapped indices (R43) and the payload
window (R42). -/

namespace Sys2Proof.Machine

/-- A read adds its answer to the host's log and does nothing else (R44). -/
theorem step_rd (s : State) (ri : RegIndex) (es : List Event) :
    step { s with events := .rd ri :: es }
      = .next { s with events := es, rdLog := s.rdLog ++ [(ri, readReg s ri)] } := rfl

/-- Settles O26: the second read sees the state of the first but for the log, which no register shows. -/
theorem readChangesNoState : Obligations.ReadChangesNoState := by
  unfold Obligations.ReadChangesNoState
  refine ⟨step_rd, fun s t u ri es ht hu => ?_, by decide, fun s ri hri => ?_⟩
  · cases ht
    cases hu
    exact List.append_assoc _ _ _
  · rcases hri with ⟨h1, h2⟩ | ⟨h1, h2⟩ | ⟨h1, h2⟩
    · exact readReg_gap s h1 h2
    · rw [readReg_high s h1, if_neg (by omega)]
    · rw [readReg_high s (by omega), if_neg (by omega)]

/-- Settles O29: the window's index back from the register index. -/
theorem payloadWindowReads : Obligations.PayloadWindowReads := by
  unfold Obligations.PayloadWindowReads
  intro s i hi
  have hri : (BitVec.ofNat 9 (0x100 + i)).toNat = 0x100 + i := by
    rw [BitVec.toNat_ofNat, Nat.mod_eq_of_lt (by omega)]
  rw [readReg_high s (by omega), if_pos (by omega), hri, Nat.add_sub_cancel_left]
  rfl

end Sys2Proof.Machine
end

section
/-! PROOFS. The block after reset (10_state.md R45) and a CRC begun there. -/

namespace Sys2Proof.Machine

/-- CRC_BYTE words fold their bytes into the accumulator, from whatever it holds (R103). -/
theorem runAll_crcBytes (bs : List Byte) : ∀ s : State, ∃ t : State,
    runAll { s with events := cmdEvents (bs.map .crcByte) } = .next t ∧
    t.crcAcc = crcFold s.crcAcc bs := by
  induction bs with
  | nil => exact fun s => ⟨_, runAll_nil s, rfl⟩
  | cons b bs ih =>
    intro s
    obtain ⟨t, hrun, hcrc⟩ := ih (answer .ok { s with crcAcc := crcByte s.crcAcc b })
    exact ⟨t, (runAll_cons (takeEvent_encode (i := .crcByte b) rfl rfl _)).trans hrun, hcrc⟩

/-- Settles O23: the table's values by computation, no byte of the empty buffer being listed; the CRC by
the fold over the words, since reset leaves the seed in the accumulator. -/
theorem resetValues : Obligations.ResetValues := by
  unfold Obligations.ResetValues
  refine ⟨rfl, rfl, rfl, rfl, rfl, rfl, rfl, rfl, rfl, rfl, rfl, rfl, rfl, rfl, rfl, rfl, rfl, rfl,
    rfl, rfl, rfl, rfl, fun i _ => Memory.read_nil i, rfl, fun bs => runAll_crcBytes bs State.reset⟩

end Sys2Proof.Machine
end

section
/-! PROOFS. The decoder against the opcode map (30_encoding.md R75) and R77's grounds for ILLEGAL: a word
decodes to an operation exactly when it is the operation's own word, so that both are facts about
`encode`. -/

namespace Sys2Proof

/-- A word is the word of four fields exactly when these are its fields (R71). -/
theorem mkWord_eq_iff {op a b c : Byte} {w : Word} :
    mkWord op a b c = w ↔ fieldOP w = op ∧ fieldA w = a ∧ fieldB w = b ∧ fieldC w = c := by
  constructor
  · rintro rfl
    simp
  · rintro ⟨rfl, rfl, rfl, rfl⟩
    exact mkWord_fields w

/-- What decodes to an operation is the operation's word, and the operation is well-formed (R75). -/
theorem encode_of_decode {w : Word} {i : Instr} (h : decode w = .instr i) :
    i.wf = true ∧ encode i = w := by
  rcases decodeFields_instr h with
    ⟨hop, ha, hb, hc, rfl⟩ | ⟨hop, ha, hb, hc, rfl⟩ | ⟨hop, ha, hb, rfl⟩ | ⟨hop, rfl⟩ |
    ⟨hop, ha, hb, rfl⟩ | ⟨hop, ha, hb, hk, rfl⟩ | ⟨hop, hc, rfl⟩ | ⟨hop, ha, hb, hc, rfl⟩ |
    ⟨hop, ha, hb, rfl⟩ | ⟨hop, ha, hb, hc, rfl⟩
  pick_goal 6 -- DEC_SETV, the row with a side condition
  · exact ⟨bne_iff_ne.2 hk, mkWord_eq_iff.2 ⟨hop, ha, (setvB_of_highB hb).symm, rfl⟩⟩
  all_goals exact ⟨rfl, mkWord_eq_iff.2 (by simp [*])⟩

/-- `decode` is the inverse of `encode` on the well-formed operations. -/
theorem decode_eq_instr_iff {w : Word} {i : Instr} :
    decode w = .instr i ↔ i.wf = true ∧ encode i = w :=
  ⟨encode_of_decode, fun ⟨hwf, hw⟩ => hw ▸ decode_encode hwf⟩

theorem decode_eq_instr_iff_of_wf {w : Word} {i : Instr} (h : i.wf = true) :
    decode w = .instr i ↔ encode i = w :=
  decode_eq_instr_iff.trans (and_iff_right h)

/-- The port's decoder refuses two codes more and otherwise agrees with `decode` (R77(a)). -/
theorem decode_of_decodeCmd {w : Word} {i : Instr} (h : decodeCmd w = .instr i) :
    decode w = .instr i := by
  unfold decodeCmd at h
  split at h
  · cases h
  · exact h

/-! ### Selecting a row by its mask (R75) -/

/-- A masked word is compared field by field. -/
theorem masked_eq_mkWord_iff {w : Word} {m1 m2 m3 m4 op a b c : Byte} :
    w &&& mkWord m1 m2 m3 m4 = mkWord op a b c ↔
      fieldOP w &&& m1 = op ∧ fieldA w &&& m2 = a ∧ fieldB w &&& m3 = b ∧ fieldC w &&& m4 = c := by
  rw [← mkWord_fields w, Laws.RowMatch.mask_mkWord, eq_comm, mkWord_eq_iff]
  simp

/-- A mask byte of ones keeps the field, and one of zeros drops it. -/
theorem byte_and_ff (b : Byte) : b &&& 0xFF = b := BitVec.and_allOnes

theorem byte_and_00 (b : Byte) : b &&& 0x00 = 0 := BitVec.and_zero

/-- DEC_SETV's mask byte tests the upper six bits of field B: what is left is the kind. -/
theorem byte_and_fc_eq_zero_iff (b : Byte) : b &&& 0xFC = 0 ↔ (0 : BitVec 6) ++ kindB b = b := by
  revert b
  decide

/-- DEC_SETV's kind is bits [9:8] of the word (R75). -/
theorem kindB_fieldB (w : Word) : kindB (fieldB w) = w.extractLsb' 8 2 := by
  apply BitVec.eq_of_toNat_eq
  rw [kindB, fieldB, extract_toNat, extract_toNat, extract_toNat]
  omega

/-- A row without operands, whose mask is the whole word. -/
theorem fixed_row_iff {w : Word} {i : Instr} (hwf : i.wf = true) :
    w &&& 0xFFFFFFFF = encode i ↔ decode w = .instr i := by
  rw [show w &&& 0xFFFFFFFF = w from BitVec.and_allOnes, decode_eq_instr_iff_of_wf hwf, eq_comm]

/-- A row with one byte operand, in field C. -/
theorem byte_row_iff {w : Word} {op : Byte} {i : Instr} (hwf : i.wf = true)
    (hi : encode i = mkWord op 0 0 (fieldC w)) :
    w &&& mkWord 0xFF 0xFF 0xFF 0x00 = mkWord op 0 0 0 ↔ decode w = .instr i := by
  rw [decode_eq_instr_iff_of_wf hwf, hi, masked_eq_mkWord_iff, mkWord_eq_iff]
  simp only [byte_and_ff, byte_and_00]

/-- ENC_START's row. -/
theorem encStart_row_iff {w : Word} :
    w &&& 0xFF000000 = 0x10000000 ↔
      decode w = .instr (.encStart (fieldA w) (fieldB w) (fieldC w)) := by
  show w &&& mkWord 0xFF 0x00 0x00 0x00 = mkWord 0x10 0 0 0 ↔ _
  rw [decode_eq_instr_iff_of_wf rfl, encode, masked_eq_mkWord_iff, mkWord_eq_iff]
  simp only [byte_and_ff, byte_and_00]

/-- DEC_ARM's row. -/
theorem decArm_row_iff {w : Word} :
    w &&& 0xFF0000FF = 0x21000000 ↔ decode w = .instr (.decArm (fieldA w) (fieldB w)) := by
  show w &&& mkWord 0xFF 0x00 0x00 0xFF = mkWord 0x21 0 0 0 ↔ _
  rw [decode_eq_instr_iff_of_wf rfl, encode, masked_eq_mkWord_iff, mkWord_eq_iff]
  simp only [byte_and_ff, byte_and_00]

/-- DEC_SETV's mask leaves the kind open. -/
theorem decSetv_mask_iff {w : Word} :
    w &&& 0xFFFFFC00 = 0x20000000 ↔ encode (.decSetv (kindB (fieldB w)) (fieldC w)) = w := by
  show w &&& mkWord 0xFF 0xFF 0xFC 0x00 = mkWord 0x20 0 0 0 ↔ _
  rw [encode, masked_eq_mkWord_iff, mkWord_eq_iff]
  simp only [byte_and_ff, byte_and_00, byte_and_fc_eq_zero_iff, eq_comm (a := fieldB w)]

/-- DEC_SETV's row: the mask, and the kind that must be well-formed besides (R75). -/
theorem decSetv_row_iff {w : Word} :
    (w &&& 0xFFFFFC00 = 0x20000000 ∧ w.extractLsb' 8 2 ≠ 3#2) ↔
      decode w = .instr (.decSetv (w.extractLsb' 8 2) (fieldC w)) := by
  rw [decSetv_mask_iff, decode_eq_instr_iff, kindB_fieldB, and_comm, Instr.wf, bne_iff_ne]
  rfl

/-- Settles O3, row by row: the masked comparison says that the word is the one `encode` gives. -/
theorem decodeFollowsOpcodeMap : Obligations.DecodeFollowsOpcodeMap := by
  unfold Obligations.DecodeFollowsOpcodeMap
  intro w
  exact ⟨fixed_row_iff (i := .nop) rfl, fixed_row_iff (i := .crcInit) rfl,
    byte_row_iff (i := .crcByte (fieldC w)) rfl rfl, encStart_row_iff,
    byte_row_iff (i := .encByte (fieldC w)) rfl rfl, decSetv_row_iff, decArm_row_iff,
    fixed_row_iff (i := .decCancel) rfl, byte_row_iff (i := .rxByte (fieldC w)) rfl rfl,
    fixed_row_iff (i := .rxEos) rfl⟩

end Sys2Proof

namespace Sys2Proof.Machine

/-! ### Illegal words (R77) -/

/-- R77's grounds read on the four fields of a word. -/
theorem illegalCmd_mkWord_iff {op a b c : Byte} :
    illegalCmd (mkWord op a b c) ↔
      op ∉ ([0x00, 0x01, 0x02, 0x10, 0x11, 0x20, 0x21, 0x22] : List Byte) ∨
      (op ∈ ([0x00, 0x01, 0x22] : List Byte) ∧ ¬ (a = 0 ∧ b = 0 ∧ c = 0)) ∨
      (op ∈ ([0x02, 0x11] : List Byte) ∧ ¬ (a = 0 ∧ b = 0)) ∨
      (op = 0x20 ∧ (¬ (a = 0 ∧ highB b = 0) ∨ kindB b = 3)) ∨
      (op = 0x21 ∧ c ≠ 0) := by
  have hop : (mkWord op a b c).extractLsb' 24 8 = op := fieldOP_mkWord op a b c
  have hc : (mkWord op a b c).extractLsb' 0 8 = c := fieldC_mkWord op a b c
  have hk : (mkWord op a b c).extractLsb' 8 2 = kindB b := by
    rw [← kindB_fieldB, fieldB_mkWord]
  have habc : (mkWord op a b c).extractLsb' 0 24 = 0 ↔ a = 0 ∧ b = 0 ∧ c = 0 := by
    simp only [BitVec.ofNat_eq_ofNat, ← BitVec.toNat_inj, extract_toNat, mkWord_toNat,
      BitVec.toNat_ofNat, Nat.zero_mod]
    omega
  have hab : (mkWord op a b c).extractLsb' 8 16 = 0 ↔ a = 0 ∧ b = 0 := by
    simp only [BitVec.ofNat_eq_ofNat, ← BitVec.toNat_inj, extract_toNat, mkWord_toNat,
      BitVec.toNat_ofNat, Nat.zero_mod]
    omega
  have hah : (mkWord op a b c).extractLsb' 10 14 = 0 ↔ a = 0 ∧ highB b = 0 := by
    simp only [BitVec.ofNat_eq_ofNat, ← BitVec.toNat_inj, highB, extract_toNat, mkWord_toNat,
      BitVec.toNat_ofNat, Nat.zero_mod]
    omega
  rw [illegalCmd, hop, hc, hk, Ne, habc, Ne, hab, Ne, hah]

/-- The word of a command is not illegal. -/
theorem not_illegalCmd_encode {i : Instr} (hwf : i.wf = true) (hrx : i.isRx = false) :
    ¬ illegalCmd (encode i) := by
  cases i with
  | decSetv vk vs =>
    have hk : vk ≠ 3#2 := by simpa [Instr.wf] using hwf
    simp [encode, illegalCmd_mkWord_iff, hk]
  | nop | crcInit | crcByte | encStart | encByte | decArm | decCancel =>
    simp [encode, illegalCmd_mkWord_iff]
  | rxByte | rxEos => cases hrx

/-- An illegal word is rejected, since what the port accepts is a command's word. -/
theorem decodeCmd_of_illegalCmd {w : Word} (h : illegalCmd w) : ∃ r, decodeCmd w = .reject r := by
  cases hd : decodeCmd w with
  | reject r => exact ⟨r, rfl⟩
  | instr i =>
    obtain ⟨hwf, rfl⟩ := encode_of_decode (decode_of_decodeCmd hd)
    exact absurd h (not_illegalCmd_encode hwf (isRx_of_decodeCmd hd))

/-- Settles O5: the word is rejected, and a rejected word writes `result` only. -/
theorem illegalWordSetsOnlyResult : Obligations.IllegalWordSetsOnlyResult := by
  unfold Obligations.IllegalWordSetsOnlyResult
  intro s w es h
  obtain ⟨r, hr⟩ := decodeCmd_of_illegalCmd h
  rw [step_cons, takeEvent, takeCmd, hr]
  rfl

end Sys2Proof.Machine
end

section
/-! PROOFS. The CRC function as a fold from the seed (40_crc.md R101, R107) and the two command words of
the CRC generator (R102, R103). -/

namespace Sys2Proof.Machine

/-! ### The CRC function -/

/-- The CRC of what came before is where the CRC of the whole goes on (R107). -/
theorem crc16_append (m n : List Byte) : crc16 (m ++ n) = crcFold (crc16 m) n :=
  crcFold_append Config.crcSeed m n

/-- Settles O33: both recursion clauses are the fold of the appended bytes, the first for one byte. -/
theorem crcIsIncremental : Obligations.CrcIsIncremental := by
  unfold Obligations.CrcIsIncremental
  refine ⟨rfl, fun m b => ?_, by decide +kernel, crc16_append⟩
  rw [crc16_append, crcFold_cons, crcFold_nil]

/-! ### The words and their illegal neighbours -/

/-- A word whose one operand is field C is its opcode's word with the operand in the low bits (R71). -/
theorem mkWord_operandC (op d : Byte) :
    mkWord op 0 0 d = (op.setWidth 32 <<< 24) ||| d.setWidth 32 := by
  have hd : d.toNat < 2 ^ 24 := by omega
  have hop : op.toNat <<< 24 < 2 ^ 32 := by rw [Nat.shiftLeft_eq]; omega
  refine BitVec.eq_of_toNat_eq ?_
  rw [mkWord_toNat, BitVec.toNat_or, BitVec.toNat_shiftLeft, BitVec.toNat_setWidth_of_le (by decide),
    BitVec.toNat_setWidth_of_le (by decide), Nat.mod_eq_of_lt hop,
    ← Nat.shiftLeft_add_eq_or_of_lt hd, Nat.shiftLeft_eq]
  simp only [BitVec.ofNat_eq_ofNat, BitVec.toNat_ofNat]
  omega

/-- With OP of an operation that has no operand, a nonzero bit in [23:0] is illegal (R77(b)). -/
theorem step_nonzeroABC {w : Word}
    (hop : (w.extractLsb' 24 8 : Byte) ∈ ([0x00, 0x01, 0x22] : List Byte))
    (habc : (w.extractLsb' 0 24 : BitVec 24) ≠ 0) (s : State) (es : List Event) :
    step { s with events := .cmd w :: es } = .next { s with events := es, result := .illegal } :=
  illegalWordSetsOnlyResult s w es (.inr (.inl ⟨hop, habc⟩))

/-- With OP of an operation whose one operand is field C, a nonzero bit in [23:8] is illegal (R77(b)). -/
theorem step_nonzeroAB {w : Word}
    (hop : (w.extractLsb' 24 8 : Byte) ∈ ([0x02, 0x11] : List Byte))
    (hab : (w.extractLsb' 8 16 : BitVec 16) ≠ 0) (s : State) (es : List Event) :
    step { s with events := .cmd w :: es } = .next { s with events := es, result := .illegal } :=
  illegalWordSetsOnlyResult s w es (.inr (.inr (.inl ⟨hop, hab⟩)))

/-! ### CRC_INIT and CRC_BYTE -/

/-- CRC_INIT loads the seed and answers OK (R102). -/
theorem exec_crcInit (s : State) :
    exec .crcInit s = .next { s with crcAcc := 0xFFFF, result := .ok } := rfl

/-- CRC_BYTE folds its byte in and answers OK (R103). -/
theorem exec_crcByte (d : Byte) (s : State) :
    exec (.crcByte d) s = .next { s with crcAcc := crcByte s.crcAcc d, result := .ok } := rfl

/-- CRC_INIT and then a word for each byte leave the bytes' CRC, whatever the accumulator held. -/
theorem runAll_crcSeq (s : State) (bs : List Byte) : ∃ t : State,
    runAll { s with events := cmdEvents (.crcInit :: bs.map .crcByte) } = .next t ∧
    t.crcAcc = crc16 bs := by
  obtain ⟨t, hrun, hcrc⟩ := runAll_crcBytes bs { s with crcAcc := 0xFFFF, result := .ok }
  have hinit : takeEvent (.cmd (encode .crcInit)) { s with events := cmdEvents (bs.map .crcByte) } =
      .next { s with crcAcc := 0xFFFF, result := .ok, events := cmdEvents (bs.map .crcByte) } :=
    (takeEvent_encode rfl rfl _).trans (exec_crcInit _)
  exact ⟨t, (runAll_cons hinit).trans hrun, hcrc⟩

/-- Settles O11: the effect from every state, the illegal neighbours by R77, and the example by running
its two words. -/
theorem crcInitResult : Obligations.CrcInitResult := by
  unfold Obligations.CrcInitResult
  refine ⟨rfl, exec_crcInit, fun s w es hop habc => ?_, ?_⟩
  · exact step_nonzeroABC (by simp [hop]) habc s es
  · exact ⟨_, _, exec_crcByte 0x31 State.reset, by decide, exec_crcInit _, rfl⟩

/-- Settles O12: the word's operand in field C, the effect from every state, the illegal neighbours by
R77, the run after CRC_INIT as the fold from the seed, and the two values by computation. -/
theorem crcByteResult : Obligations.CrcByteResult := by
  unfold Obligations.CrcByteResult
  refine ⟨mkWord_operandC 0x02, exec_crcByte, fun s w es hop hab => ?_, runAll_crcSeq, by decide,
    by decide⟩
  exact step_nonzeroAB (by simp [hop]) hab s es

end Sys2Proof.Machine
end

section
/-! PROOFS. The encoder: the frame `Encode` gives (41_encoder.md R122), the two command words (R120, R121)
and who may write TX (R123). -/

namespace Sys2Proof.Machine

/-! ### The frame -/

/-- The length byte of a payload the encoder takes does not wrap (R72, R120). -/
theorem lenByte_toNat {n : Byte} (h : n.toNat ≤ 251) : (lenByte n).toNat = n.toNat + 4 :=
  BitVec.toNat_add_of_lt (show n.toNat + 4 < 256 by omega)

theorem payloadCount_toNat {p : List Byte} (h : p.length ≤ 251) :
    (payloadCount p).toNat = p.length := by
  rw [payloadCount, BitVec.toNat_ofNat, Nat.mod_eq_of_lt (by omega)]

/-- The length byte of a frame with payload `p`, as a number. -/
theorem lenByte_payloadCount_toNat {p : List Byte} (h : p.length ≤ 251) :
    (lenByte (payloadCount p)).toNat = p.length + 4 := by
  have hn := payloadCount_toNat h
  rw [lenByte_toNat (by omega), hn]

theorem encodeFrame_of_le {p : List Byte} (h : p.length ≤ 251) (a c : Byte) :
    encodeFrame a c p = some (lenByte (payloadCount p) :: a :: c :: (p ++
      [lo8 (crc16 (lenByte (payloadCount p) :: a :: c :: p)),
       hi8 (crc16 (lenByte (payloadCount p) :: a :: c :: p))])) :=
  if_pos h

theorem encodeFrame_of_gt {p : List Byte} (h : 251 < p.length) (a c : Byte) :
    encodeFrame a c p = none :=
  if_neg (Nat.not_le.2 h)

/-- Settles O36: the definition's two cases, the length byte being exact in the first. -/
theorem encodeFrameLayout : Obligations.EncodeFrameLayout := by
  unfold Obligations.EncodeFrameLayout
  refine fun a c p => ⟨fun h => ?_, fun h => encodeFrame_of_gt h a c⟩
  exact ⟨_, _, encodeFrame_of_le h a c, lenByte_payloadCount_toNat h, rfl, by simp⟩

/-! ### Who writes TX (R123) -/

/-- The decoder's two checks write the decoder only. -/
theorem checkHeader_frame (s : State) : ∃ d : Dec, checkHeader s = { s with dec := d } := by
  rcases checkHeader_cases s with
    ⟨_, h⟩ | ⟨_, _, h⟩ | ⟨_, _, _, h⟩ | ⟨_, _, _, _, h⟩ | ⟨_, _, _, _, h⟩ <;>
    exact ⟨_, h⟩

theorem checkFrame_frame (s : State) : ∃ d : Dec, checkFrame s = { s with dec := d } := by
  rcases checkFrame_cases s with ⟨_, h⟩ | ⟨_, _, h⟩ | ⟨_, _, h⟩ <;> exact ⟨_, h⟩

/-- A decoder operation writes the decoder, its answer, and the link, to which a byte may go back. -/
theorem exec_isDec_frame {i : Instr} {s t : State} (hi : i.isDec = true) (h : exec i s = .next t) :
    ∃ (d : Dec) (r : Result) (l : List Byte), t = { s with dec := d, result := r, link := l } := by
  cases i with
  | nop | crcInit | crcByte | encStart | encByte => cases hi
  | decSetv vk vs =>
    simp only [exec] at h
    rcases execDecSetv_cases vk vs s with ⟨_, e⟩ | ⟨_, _, e⟩ | ⟨_, _, _, e⟩ <;> rw [e] at h <;>
      cases h <;> exact ⟨_, _, _, rfl⟩
  | decArm ea ec =>
    simp only [exec] at h
    rcases execDecArm_cases ea ec s with ⟨_, e⟩ | ⟨_, _, e⟩ | ⟨_, _, e⟩ <;> rw [e] at h <;>
      cases h <;> exact ⟨_, _, _, rfl⟩
  | decCancel =>
    simp only [exec] at h
    rcases execDecCancel_cases s with ⟨_, e⟩ | ⟨_, e⟩ <;> rw [e] at h <;> cases h <;>
      exact ⟨_, _, _, rfl⟩
  | rxByte b =>
    simp only [exec] at h
    rcases execRxByte_cases b s with ⟨_, e⟩ | ⟨_, e⟩ | ⟨_, e⟩ | ⟨_, e⟩ <;> rw [e] at h
    · cases h; exact ⟨_, _, _, rfl⟩
    · cases h; exact ⟨_, _, _, rfl⟩
    · rcases rxHeader_next h with ⟨_, _, rfl⟩ | ⟨_, rfl⟩
      · exact ⟨_, _, _, rfl⟩
      · obtain ⟨d, hd⟩ := checkHeader_frame (recordHeader b s)
        exact ⟨d, _, _, hd⟩
    · obtain ⟨_, _, _, rfl⟩ := rxBody_next h
      obtain ⟨d, hd⟩ := checkFrame_frame (recordBody b s)
      exact ⟨d, _, _, hd⟩
  | rxEos =>
    simp only [exec] at h
    rcases execRxEos_cases s with ⟨_, e⟩ | ⟨_, e⟩ <;> rw [e] at h <;> cases h <;>
      exact ⟨_, _, _, rfl⟩

/-- An encoder operation writes the encoder and its answer, and appends to TX. -/
theorem exec_isEnc_frame {i : Instr} {s t : State} (hi : i.isEnc = true) (h : exec i s = .next t) :
    ∃ (e : Enc) (r : Result) (bs : List Byte),
      t = { s with enc := e, result := r, tx := s.tx ++ bs } := by
  have hanswer (r : Result) : ∃ (e : Enc) (q : Result) (bs : List Byte),
      answer r s = { s with enc := e, result := q, tx := s.tx ++ bs } :=
    ⟨s.enc, r, [], by rw [List.append_nil]; rfl⟩
  cases i with
  | encStart a c n =>
    simp only [exec] at h
    rcases execEncStart_cases a c n s with ⟨_, hx⟩ | ⟨_, _, hx⟩ | ⟨_, _, hx⟩ <;> rw [hx] at h <;> cases h
    · exact hanswer _
    · exact hanswer _
    · obtain ⟨e, bs, hf⟩ := openFrame_frame a c n s
      exact ⟨e, .ok, bs, by rw [hf]; rfl⟩
  | encByte d =>
    simp only [exec] at h
    rcases execEncByte_cases d s with ⟨_, hx⟩ | ⟨_, _, hx⟩ | ⟨_, _, hx⟩ <;> rw [hx] at h <;> cases h
    · exact hanswer _
    · obtain ⟨e, bs, hf⟩ := sendPayload_frame d s
      exact ⟨e, .ok, bs, by rw [hf]; rfl⟩
  | nop | crcInit | crcByte | decSetv | decArm | decCancel | rxByte | rxEos => cases hi

/-- An operation that is not the encoder's leaves TX alone. -/
theorem exec_tx_of_not_isEnc {i : Instr} {s t : State} (hi : i.isEnc = false)
    (h : exec i s = .next t) : t.tx = s.tx := by
  cases i with
  | encStart | encByte => cases hi
  | nop | crcInit | crcByte => cases h; rfl
  | decSetv | decArm | decCancel | rxByte | rxEos =>
    obtain ⟨_, _, _, rfl⟩ := exec_isDec_frame rfl h
    rfl

/-- So does every event that is no encoder word, reset included. -/
theorem takeEvent_tx_of_not_isEncWord {e : Event} {s t : State} (he : e.isEncWord = false)
    (h : takeEvent e s = .next t) : t.tx = s.tx := by
  rcases takeEvent_next h with ⟨w, i, rfl, hw, h⟩ | ⟨w, r, _, _, rfl⟩ | ⟨ri, _, rfl⟩ |
    ⟨_, _, rfl⟩ | ⟨d, l, _, _, h⟩ | ⟨_, h⟩ | ⟨_, rfl⟩ | ⟨l, _, rfl⟩
  · have hi : i.isEnc = false := by
      simpa [Event.isEncWord, Event.cmdInstr, hw, Decoded.instr?] using he
    exact exec_tx_of_not_isEnc hi h
  · rfl
  · rfl
  · rfl
  · exact exec_tx_of_not_isEnc (s := { s with link := l }) rfl h
  · exact exec_tx_of_not_isEnc (i := .rxEos) rfl h
  · rfl
  · rfl

/-- An encoder word is an encoder operation taken at the CMD port. -/
theorem exec_of_isEncWord {e : Event} {s t : State} (he : e.isEncWord = true)
    (h : takeEvent e s = .next t) : ∃ i : Instr, i.isEnc = true ∧ exec i s = .next t := by
  cases e with
  | cmd w =>
    cases hw : decodeCmd w with
    | instr i =>
      rw [takeEvent, takeCmd, hw] at h
      exact ⟨i, by simpa [Event.isEncWord, Event.cmdInstr, hw, Decoded.instr?] using he, h⟩
    | reject r => simp [Event.isEncWord, Event.cmdInstr, hw, Decoded.instr?] at he
  | rd | rxOffer | rxEos | rst | reopen => cases he

/-- Settles O38: an encoder word's frame appends to TX, and every other event leaves it alone. -/
theorem onlyEncoderWordsEmit : Obligations.OnlyEncoderWordsEmit := by
  unfold Obligations.OnlyEncoderWordsEmit
  intro s t e es h
  have hquiet (he : e.isEncWord = false) : t.tx = s.tx :=
    takeEvent_tx_of_not_isEncWord (s := { s with events := es }) he h
  refine ⟨?_, hquiet⟩
  cases he : e.isEncWord with
  | true =>
    obtain ⟨i, hi, hx⟩ := exec_of_isEncWord (s := { s with events := es }) he h
    obtain ⟨_, _, bs, rfl⟩ := exec_isEnc_frame hi hx
    exact ⟨bs, rfl⟩
  | false => exact ⟨[], by rw [hquiet he, List.append_nil]⟩

/-! ### The end of both words' effect -/

/-- With no payload owed the CRC is emitted and the frame is complete (R50). -/
theorem closeFrame_of_zero {s : State} (h : s.enc.rem = 0) :
    closeFrame s = { s with
      enc := { s.enc with mode := .idle }, tx := s.tx ++ [lo8 s.enc.crc, hi8 s.enc.crc] } :=
  if_pos h

/-- With payload owed the frame stays open. -/
theorem closeFrame_of_ne_zero {s : State} (h : s.enc.rem ≠ 0) :
    closeFrame s = { s with enc := { s.enc with mode := .body } } :=
  if_neg h

/-! ### ENC_START (R120) -/

theorem openFrame_of_ne_zero {n : Byte} (hn : n ≠ 0) (a c : Byte) (s : State) :
    openFrame a c n s = { s with
      enc := { mode := .body, addr := a, cmd := c, len := n + 4, rem := n, crc := crc16 [n + 4, a, c] },
      tx := s.tx ++ [n + 4, a, c] } :=
  closeFrame_of_ne_zero hn

theorem openFrame_zero (a c : Byte) (s : State) :
    openFrame a c 0 s = { s with
      enc := { mode := .idle, addr := a, cmd := c, len := 4, rem := 0, crc := crc16 [4, a, c] },
      tx := s.tx ++ [4, a, c, lo8 (crc16 [4, a, c]), hi8 (crc16 [4, a, c])] } := by
  refine (closeFrame_of_zero rfl).trans ?_
  rw [emit_tx, List.append_assoc]
  rfl

/-- An open frame is not interrupted. -/
theorem exec_encStart_of_body {s : State} (h : s.enc.mode = .body) (a c n : Byte) :
    exec (.encStart a c n) s = .next { s with result := .sequence } := by
  simp only [exec, execEncStart, h]
  rfl

theorem exec_encStart_of_gt {s : State} {n : Byte} (h : s.enc.mode = .idle) (hn : 251 < n.toNat)
    (a c : Byte) : exec (.encStart a c n) s = .next { s with result := .overflow } := by
  simp only [exec, execEncStart, h, if_pos hn]
  rfl

theorem exec_encStart_of_le {s : State} {n : Byte} (h : s.enc.mode = .idle) (hn : n.toNat ≤ 251)
    (a c : Byte) : exec (.encStart a c n) s = .next (answer .ok (openFrame a c n s)) := by
  simp only [exec, execEncStart, h, if_neg (Nat.not_lt.2 hn)]

/-- With payload to come the header is emitted and the frame stays open. -/
theorem exec_encStart_of_payload {s : State} {n : Byte} (h : s.enc.mode = .idle) (hn1 : 1 ≤ n.toNat)
    (hn2 : n.toNat ≤ 251) (a c : Byte) :
    exec (.encStart a c n) s = .next { s with
      enc := { mode := .body, addr := a, cmd := c, len := n + 4, rem := n, crc := crc16 [n + 4, a, c] },
      tx := s.tx ++ [n + 4, a, c], result := .ok } := by
  have hn : n ≠ 0 := by
    rintro rfl
    exact absurd hn1 (by decide)
  rw [exec_encStart_of_le h hn2, openFrame_of_ne_zero hn]
  rfl

/-- Without payload the CRC follows at once and the frame is complete. -/
theorem exec_encStart_zero {s : State} (h : s.enc.mode = .idle) (a c : Byte) :
    exec (.encStart a c 0) s = .next { s with
      enc := { mode := .idle, addr := a, cmd := c, len := 4, rem := 0, crc := crc16 [4, a, c] },
      tx := s.tx ++ [4, a, c, lo8 (crc16 [4, a, c]), hi8 (crc16 [4, a, c])], result := .ok } := by
  rw [exec_encStart_of_le h (by decide), openFrame_zero]
  rfl

/-- Settles O13: the answers in R187's order, an accepted count by whether there is payload to come, and
the example as the word of a frame without payload. -/
theorem encStartResult : Obligations.EncStartResult := by
  unfold Obligations.EncStartResult
  refine ⟨fun a c n => rfl, fun a c n s h => exec_encStart_of_body h a c n,
    fun a c n s h hn => exec_encStart_of_gt h hn a c,
    fun a c n s h hn1 hn2 => ⟨lenByte_toNat hn2, exec_encStart_of_payload h hn1 hn2 a c⟩,
    fun a c s h => exec_encStart_zero h a c, ?_⟩
  exact ⟨_, (takeEvent_encode (i := .encStart 0x00 0x21 0) rfl rfl State.reset).trans
    (exec_encStart_zero rfl 0x00 0x21), by decide +kernel, rfl, by decide +kernel⟩

/-! ### ENC_BYTE (R121) -/

theorem sendPayload_of_two_le {s : State} (hm : s.enc.mode = .body) (hr : 2 ≤ s.enc.rem.toNat)
    (d : Byte) :
    sendPayload d s = { s with
      enc := { s.enc with crc := crcByte s.enc.crc d, rem := s.enc.rem - 1 }, tx := s.tx ++ [d] } := by
  have hrem : s.enc.rem - 1 ≠ 0 := by bv_omega
  refine (closeFrame_of_ne_zero hrem).trans ?_
  simp only [emit, hm]

theorem sendPayload_of_one {s : State} (hr : s.enc.rem = 1) (d : Byte) :
    sendPayload d s = { s with
      enc := { s.enc with mode := .idle, crc := crcByte s.enc.crc d, rem := 0 },
      tx := s.tx ++ [d, lo8 (crcByte s.enc.crc d), hi8 (crcByte s.enc.crc d)] } := by
  have hrem : s.enc.rem - 1 = 0 := by rw [hr]; rfl
  refine (closeFrame_of_zero hrem).trans ?_
  rw [emit_tx, List.append_assoc]
  simp only [emit, hrem]
  rfl

/-- No frame is open to take the byte. -/
theorem exec_encByte_of_idle {s : State} (h : s.enc.mode = .idle) (d : Byte) :
    exec (.encByte d) s = .next { s with result := .sequence } := by
  simp only [exec, execEncByte, h]
  rfl

theorem exec_encByte_of_body {s : State} (h : s.enc.mode = .body) (hr : s.enc.rem ≠ 0) (d : Byte) :
    exec (.encByte d) s = .next (answer .ok (sendPayload d s)) := by
  simp only [exec, execEncByte, h, if_neg hr]

/-- With more payload owed the byte is emitted and the frame stays open. -/
theorem exec_encByte_of_two_le {s : State} (h : s.enc.mode = .body) (hr : 2 ≤ s.enc.rem.toNat)
    (d : Byte) :
    exec (.encByte d) s = .next { s with
      enc := { s.enc with crc := crcByte s.enc.crc d, rem := s.enc.rem - 1 },
      tx := s.tx ++ [d], result := .ok } := by
  have hrem : s.enc.rem ≠ 0 := by bv_omega
  rw [exec_encByte_of_body h hrem, sendPayload_of_two_le h hr]
  rfl

/-- The last payload byte is followed by the CRC and completes the frame. -/
theorem exec_encByte_of_one {s : State} (h : s.enc.mode = .body) (hr : s.enc.rem = 1) (d : Byte) :
    exec (.encByte d) s = .next { s with
      enc := { s.enc with mode := .idle, crc := crcByte s.enc.crc d, rem := 0 },
      tx := s.tx ++ [d, lo8 (crcByte s.enc.crc d), hi8 (crcByte s.enc.crc d)], result := .ok } := by
  have hrem : s.enc.rem ≠ 0 := by rw [hr]; decide
  rw [exec_encByte_of_body h hrem, sendPayload_of_one hr]
  rfl

/-- An open frame owes a byte (R47(a)). -/
theorem one_le_rem_of_body {s : State} (hinv : s.Inv) (h : s.enc.mode = .body) :
    1 ≤ s.enc.rem.toNat := by
  obtain ⟨⟨_, hbody⟩, _⟩ := hinv
  exact (hbody h).1

/-- Settles O14: the word's operand in field C, the answers by mode and bytes owed, the illegal
neighbours by R77, and the example by its three operations' effects. -/
theorem encByteResult : Obligations.EncByteResult := by
  unfold Obligations.EncByteResult
  refine ⟨mkWord_operandC 0x11, fun d s h => exec_encByte_of_idle h d,
    fun d s h hr => exec_encByte_of_two_le h hr d, fun d s h hr => exec_encByte_of_one h hr d,
    fun s => one_le_rem_of_body, fun s w es hop hab => step_nonzeroAB (by simp [hop]) hab s es, ?_⟩
  exact ⟨_, _, _, exec_encStart_of_payload rfl (by decide) (by decide) 0x00 0x01, by decide,
    exec_encByte_of_two_le rfl (by decide) 0x02, rfl, exec_encByte_of_one rfl rfl 0x04,
    by decide +kernel, rfl⟩

end Sys2Proof.Machine
end

section
/-! PROOFS. NOP (42_decoder.md R155), and what the proofs about the decoder's words and events share: the
words around an operation's own one, and the state a computed run ends in. -/

namespace Sys2Proof.Machine

/-! ### Words -/

/-- A word that differs from its opcode's bare word has a nonzero bit in [23:0] (R71). -/
theorem operands_ne_zero {w : Word} {op : Byte} (hop : (w.extractLsb' 24 8 : Byte) = op)
    (hw : w ≠ mkWord op 0 0 0) : (w.extractLsb' 0 24 : BitVec 24) ≠ 0 := by
  intro hlow
  have hopNat := congrArg BitVec.toNat hop
  have hlowNat := congrArg BitVec.toNat hlow
  rw [extract_toNat] at hopNat hlowNat
  simp only [BitVec.ofNat_eq_ofNat, BitVec.toNat_ofNat] at hlowNat
  refine hw (BitVec.eq_of_toNat_eq ?_)
  rw [mkWord_toNat]
  simp only [BitVec.ofNat_eq_ofNat, BitVec.toNat_ofNat]
  omega

/-- An operand in field C is the low byte of the word, whatever the other fields hold (R71). -/
theorem mkWord_or_fieldC (op a b c : Byte) : mkWord op a b c = mkWord op a b 0 ||| c.setWidth 32 := by
  have hwide : c.setWidth 32 = (0 : BitVec 24) ++ c := BitVec.setWidth_eq_append (by decide)
  have hor : (op ++ a ++ b ++ c : BitVec (8 + 8 + 8 + 8)) = (op ++ a ++ b ++ 0#8) ||| (0#24 ++ c) := by
    rw [BitVec.or_append, BitVec.or_zero, BitVec.zero_or]
  rw [hwide]
  exact hor

/-! ### Computed runs -/

/-- An outcome goes on in a state of which `P` holds exactly when its next state is one. -/
theorem exists_next_iff {o : Host.Outcome State Fault Refusal} {P : State → Prop} :
    (∃ t : State, o = .next t ∧ P t) ↔ ∃ t ∈ nextState o, P t := by
  cases o <;> simp [nextState]

/-! ### NOP -/

/-- Settles O10: the effect from every state, and the illegal neighbours by R77. -/
theorem nopResult : Obligations.NopResult := by
  unfold Obligations.NopResult
  refine ⟨rfl, fun s => rfl, fun s w es hop hw => ?_⟩
  exact step_nonzeroABC (by simp [hop]) (operands_ne_zero hop hw) s es

end Sys2Proof.Machine
end

section
/-! PROOFS. The size validator (42_decoder.md R140) and DEC_SETV, the only word that writes it (R141). -/

namespace Sys2Proof.Machine

/-! ### The validator function -/

@[simp] theorem acceptsSize_any (vs : Byte) (ps : Nat) : acceptsSize .any vs ps = true := rfl

@[simp] theorem acceptsSize_exact_iff {vs : Byte} {ps : Nat} :
    acceptsSize .exact vs ps = true ↔ ps = vs.toNat := beq_iff_eq

@[simp] theorem acceptsSize_min_iff {vs : Byte} {ps : Nat} :
    acceptsSize .min vs ps = true ↔ vs.toNat ≤ ps := decide_eq_true_iff

/-- Settles O15, kind by kind. -/
theorem sizeValidatorFunction : Obligations.SizeValidatorFunction :=
  fun vs ps => ⟨acceptsSize_any vs ps, acceptsSize_exact_iff, acceptsSize_min_iff⟩

/-- EXACT with an operand above every payload size accepts none (R141). -/
theorem acceptsSize_exact_of_gt {vs : Byte} {ps : Nat} (h : ps < vs.toNat) :
    acceptsSize .exact vs ps = false :=
  Bool.eq_false_iff.2 fun hacc => Nat.ne_of_lt h (acceptsSize_exact_iff.1 hacc)

/-! ### The effect of DEC_SETV -/

/-- No read is pending in the three other modes. -/
theorem readPending_eq_false {d : Dec} (h : d.mode = .idle ∨ d.mode = .done ∨ d.mode = .error) :
    readPending d = false := by
  rcases h with h | h | h <;> simp [readPending, h]

@[simp] theorem ValKind.ofBits_code (k : ValKind) : ValKind.ofBits k.code = some k := by
  cases k <;> rfl

/-- Every kind but 3 names a validator (R75). -/
theorem ValKind.ofBits_ne_none {vk : BitVec 2} (h : vk ≠ 3) : ValKind.ofBits vk ≠ none := by
  revert vk
  decide

theorem exec_decSetv_three (vs : Byte) (s : State) :
    exec (.decSetv 3 vs) s = .next { s with result := .illegal } := rfl

theorem exec_decSetv_of_pending {s : State} {vk : BitVec 2} (hk : vk ≠ 3)
    (h : readPending s.dec = true) (vs : Byte) :
    exec (.decSetv vk vs) s = .next { s with result := .sequence } := by
  rcases execDecSetv_cases vk vs s with ⟨hnone, _⟩ | ⟨_, _, e⟩ | ⟨hfalse, _⟩
  · exact absurd hnone (ValKind.ofBits_ne_none hk)
  · exact e
  · rw [h] at hfalse; cases hfalse

theorem exec_decSetv_of_not_pending {s : State} (h : readPending s.dec = false) (k : ValKind)
    (vs : Byte) :
    exec (.decSetv k.code vs) s
      = .next { s with dec := { s.dec with vkind := k, vsize := vs }, result := .ok } := by
  rcases execDecSetv_cases k.code vs s with ⟨hnone, _⟩ | ⟨_, htrue, _⟩ | ⟨_, k', hk', e⟩
  · simp at hnone
  · rw [h] at htrue; cases htrue
  · obtain rfl : k = k' := by simpa using hk'
    exact e

/-! ### The setting persists (R141) -/

/-- The decoder's two checks leave the validator alone. -/
theorem checkHeader_validator (s : State) :
    (checkHeader s).dec.vkind = s.dec.vkind ∧ (checkHeader s).dec.vsize = s.dec.vsize := by
  rcases checkHeader_cases s with
    ⟨_, h⟩ | ⟨_, _, h⟩ | ⟨_, _, _, h⟩ | ⟨_, _, _, _, h⟩ | ⟨_, _, _, _, h⟩ <;> rw [h] <;>
    exact ⟨rfl, rfl⟩

theorem checkFrame_validator (s : State) :
    (checkFrame s).dec.vkind = s.dec.vkind ∧ (checkFrame s).dec.vsize = s.dec.vsize := by
  rcases checkFrame_cases s with ⟨_, h⟩ | ⟨_, _, h⟩ | ⟨_, _, h⟩ <;> rw [h] <;> exact ⟨rfl, rfl⟩

/-- So does every operation but DEC_SETV. -/
theorem exec_validator {i : Instr} {s t : State} (hi : ∀ vk vs, i ≠ .decSetv vk vs)
    (h : exec i s = .next t) : t.dec.vkind = s.dec.vkind ∧ t.dec.vsize = s.dec.vsize := by
  cases i with
  | nop | crcInit | crcByte => cases h; exact ⟨rfl, rfl⟩
  | encStart | encByte =>
    obtain ⟨_, _, _, rfl⟩ := exec_isEnc_frame rfl h
    exact ⟨rfl, rfl⟩
  | decSetv vk vs => exact absurd rfl (hi vk vs)
  | decArm ea ec =>
    simp only [exec] at h
    rcases execDecArm_cases ea ec s with ⟨_, e⟩ | ⟨_, _, e⟩ | ⟨_, _, e⟩ <;> rw [e] at h <;>
      cases h <;> exact ⟨rfl, rfl⟩
  | decCancel =>
    simp only [exec] at h
    rcases execDecCancel_cases s with ⟨_, e⟩ | ⟨_, e⟩ <;> rw [e] at h <;> cases h <;>
      exact ⟨rfl, rfl⟩
  | rxByte d =>
    simp only [exec] at h
    rcases execRxByte_cases d s with ⟨_, e⟩ | ⟨_, e⟩ | ⟨_, e⟩ | ⟨_, e⟩ <;> rw [e] at h
    · cases h; exact ⟨rfl, rfl⟩
    · cases h; exact ⟨rfl, rfl⟩
    · rcases rxHeader_next h with ⟨_, _, rfl⟩ | ⟨_, rfl⟩
      · exact ⟨rfl, rfl⟩
      · exact checkHeader_validator (recordHeader d s)
    · obtain ⟨_, _, _, rfl⟩ := rxBody_next h
      exact checkFrame_validator (recordBody d s)
  | rxEos =>
    simp only [exec] at h
    rcases execRxEos_cases s with ⟨_, e⟩ | ⟨_, e⟩ <;> rw [e] at h <;> cases h <;> exact ⟨rfl, rfl⟩

/-- And every event but DEC_SETV's word and reset. -/
theorem takeEvent_validator {e : Event} {s t : State} (h : takeEvent e s = .next t) (hrst : e ≠ .rst)
    (hcmd : ∀ vk vs, e.cmdInstr ≠ some (.decSetv vk vs)) :
    t.dec.vkind = s.dec.vkind ∧ t.dec.vsize = s.dec.vsize := by
  rcases takeEvent_next h with ⟨w, i, rfl, hw, h⟩ | ⟨w, r, _, _, rfl⟩ | ⟨ri, _, rfl⟩ |
    ⟨_, _, rfl⟩ | ⟨d, l, _, _, h⟩ | ⟨_, h⟩ | ⟨rfl, _⟩ | ⟨l, _, rfl⟩
  · have hi : ∀ vk vs, i ≠ .decSetv vk vs := by
      simpa [Event.cmdInstr, hw, Decoded.instr?] using hcmd
    exact exec_validator hi h
  · exact ⟨rfl, rfl⟩
  · exact ⟨rfl, rfl⟩
  · exact ⟨rfl, rfl⟩
  · exact exec_validator (s := { s with link := l }) (by simp) h
  · exact exec_validator (i := .rxEos) (by simp) h
  · exact absurd rfl hrst
  · exact ⟨rfl, rfl⟩

/-- DEC_SETV's word: the kind from bit 8 on, the size below (R75). -/
theorem encode_decSetv (vk : BitVec 2) (vs : Byte) :
    encode (.decSetv vk vs) = (0x20000000 ||| (vk.setWidth 32 <<< 8)) ||| vs.setWidth 32 := by
  have hkind : ∀ k : BitVec 2,
      mkWord 0x20 0 ((0 : BitVec 6) ++ k) 0 = 0x20000000 ||| (k.setWidth 32 <<< 8) := by decide
  rw [encode, mkWord_or_fieldC, hkind]

/-- Settles O16: the word, the answers by kind and mode, the illegal neighbours by R77, the setting through
every other event, and the validator at its extreme operands. -/
theorem decSetvResult : Obligations.DecSetvResult := by
  unfold Obligations.DecSetvResult
  refine ⟨encode_decSetv, ⟨rfl, rfl, rfl⟩, exec_decSetv_three,
    fun vk vs s hk hm => exec_decSetv_of_pending hk ((readPending_iff s.dec).2 hm) vs,
    fun k vs s hm => exec_decSetv_of_not_pending (readPending_eq_false hm) k vs,
    fun s w es hop hw => illegalWordSetsOnlyResult s w es (.inr (.inr (.inr (.inl ⟨hop, hw⟩)))),
    fun s t e es h => takeEvent_validator (s := { s with events := es }) h,
    fun vs ps hvs hps => acceptsSize_exact_of_gt (by omega),
    fun ps => acceptsSize_min_iff.2 (Nat.zero_le ps), ?_⟩
  exact ⟨_, (takeEvent_encode (i := .decSetv 1 9) rfl rfl State.reset).trans
    (exec_decSetv_of_not_pending rfl .exact 9), rfl, rfl⟩

end Sys2Proof.Machine
end

section
/-! PROOFS. DEC_ARM (42_decoder.md R143) and DEC_CANCEL (R144). -/

namespace Sys2Proof.Machine

/-! ### DEC_ARM -/

/-- `rx_ready` is 0 in the two modes that DEC_ARM leaves (R150). -/
theorem rxReady_eq_false {d : Dec} (h : d.mode = .idle ∨ d.mode = .done) : rxReady d = false := by
  rcases h with h | h <;> simp [rxReady, h]

theorem exec_decArm_of_ready {s : State} (h : rxReady s.dec = true) (ea ec : Byte) :
    exec (.decArm ea ec) s = .next { s with result := .sequence } := by
  rcases execDecArm_cases ea ec s with ⟨_, e⟩ | ⟨hfalse, _⟩ | ⟨hfalse, _⟩
  · exact e
  · rw [h] at hfalse; cases hfalse
  · rw [h] at hfalse; cases hfalse

/-- The decoder is armed; on a stream that has ended it is in ERROR at once. -/
theorem exec_decArm_of_not_ready {s : State} (h : rxReady s.dec = false) (ea ec : Byte) :
    exec (.decArm ea ec) s = .next
      { s with
        dec := { mode := if s.dec.rxClosed then .error else .hdr,
                 err := if s.dec.rxClosed then .transport else .noError,
                 hcnt := 0, expAddr := ea, expCmd := ec, vkind := s.dec.vkind, vsize := s.dec.vsize,
                 obsLen := 0, obsAddr := 0, obsCmd := 0, plen := 0, rem := 0, crc := 0xFFFF,
                 rxcrc := 0x0000, buf := s.dec.buf, rxClosed := s.dec.rxClosed },
        result := .ok } := by
  rcases execDecArm_cases ea ec s with ⟨htrue, _⟩ | ⟨_, hc, e⟩ | ⟨_, hc, e⟩
  · rw [h] at htrue; cases htrue
  · rw [if_pos hc, if_pos hc]; exact e
  · rw [if_neg (by simp [hc]), if_neg (by simp [hc])]; exact e

/-- Outside DONE the payload window reads 0 (R42). -/
theorem payloadWindow_of_not_done {s : State} (h : s.dec.mode ≠ .done) {i : Nat} (hi : i ≤ 250) :
    readReg s (BitVec.ofNat 9 (0x100 + i)) = 0 :=
  (payloadWindowReads s i hi).trans (if_neg fun hw => h hw.1)

/-- DEC_ARM out of DONE leaves DONE. -/
theorem exec_decArm_leaves_done {s t : State} {ea ec : Byte} (hm : s.dec.mode = .done)
    (h : exec (.decArm ea ec) s = .next t) : t.dec.mode ≠ .done := by
  rw [exec_decArm_of_not_ready (rxReady_eq_false (.inr hm))] at h
  cases h
  cases s.dec.rxClosed <;> simp

/-- Settles O17: the answers by mode, the window by the mode DEC_ARM leaves behind, the illegal
neighbours by R77, and the example as the word of its operation. -/
theorem decArmResult : Obligations.DecArmResult := by
  unfold Obligations.DecArmResult
  refine ⟨fun ea ec => rfl, fun ea ec s hm => exec_decArm_of_ready ((rxReady_iff s.dec).2 hm) ea ec,
    fun ea ec s hm => exec_decArm_of_not_ready (rxReady_eq_false hm) ea ec,
    fun ea ec s t i hm hi h => payloadWindow_of_not_done (exec_decArm_leaves_done hm h) hi,
    fun s w es hop hc => illegalWordSetsOnlyResult s w es (.inr (.inr (.inr (.inr ⟨hop, hc⟩)))), ?_⟩
  exact ⟨_, (takeEvent_encode (i := .decArm 0x00 0x02) rfl rfl State.reset).trans
    (exec_decArm_of_not_ready rfl 0x00 0x02), rfl, rfl, rfl, rfl⟩

/-! ### DEC_CANCEL -/

theorem exec_decCancel_of_pending {s : State} (h : readPending s.dec = true) :
    exec .decCancel s = .next
      { s with dec := { s.dec with mode := .error, err := .cancelled }, result := .ok } :=
  if_pos h

theorem exec_decCancel_of_not_pending {s : State} (h : readPending s.dec = false) :
    exec .decCancel s = .next { s with result := .ok } :=
  if_neg (by simp [h])

/-- Settles O18: the answer by whether a read is pending, the illegal neighbours by R77, and the example
by running its eight events. -/
theorem decCancelResult : Obligations.DecCancelResult := by
  unfold Obligations.DecCancelResult
  refine ⟨rfl, fun s hm => exec_decCancel_of_pending ((readPending_iff s.dec).2 hm),
    fun s hm => exec_decCancel_of_not_pending (readPending_eq_false hm), fun s w es hop hw => ?_,
    exists_next_iff.2 (by decide +kernel)⟩
  exact step_nonzeroABC (by simp [hop]) (operands_ne_zero hop hw) s es

end Sys2Proof.Machine
end

section
/-! PROOFS. RX_BYTE (42_decoder.md R145, R147): the bytes that are not taken (R150), the header and its
checks, the body and the CRC check. -/

namespace Sys2Proof.Machine

/-! ### A byte that is not received (R150) -/

/-- An offer takes the oldest byte from the link and runs RX_BYTE on it. -/
theorem step_rxOffer (s : State) (d : Byte) (l : List Byte) (es : List Event) :
    step { s with link := d :: l, events := .rxOffer :: es }
      = exec (.rxByte d) { s with link := l, events := es } := rfl

theorem exec_rxByte_of_error {s : State} (h : s.dec.mode = .error) (d : Byte) :
    exec (.rxByte d) s = .next s := by
  simp only [exec, execRxByte, h]

theorem exec_rxByte_of_not_ready {s : State} (h : rxReady s.dec = false) (d : Byte) :
    exec (.rxByte d) s = .next (linkHolds d s) := by
  rcases execRxByte_cases d s with ⟨_, e⟩ | ⟨hm, _⟩ | ⟨hm, _⟩ | ⟨hm, _⟩
  · exact e
  all_goals simp [rxReady, hm] at h

/-- Without `rx_ready` the offered byte stays at the link. -/
theorem step_rxOffer_of_not_ready {s : State} (h : rxReady s.dec = false) (d : Byte) (l : List Byte)
    (es : List Event) :
    step { s with link := d :: l, events := .rxOffer :: es }
      = .next { s with link := d :: l, events := es } :=
  (step_rxOffer s d l es).trans (exec_rxByte_of_not_ready (s := { s with link := l, events := es }) h d)

/-- Settles O22: a byte offered without `rx_ready` goes back to the link, and one offered in ERROR is
taken and dropped. -/
theorem rxBackpressure : Obligations.RxBackpressure := by
  unfold Obligations.RxBackpressure
  refine fun s d l es => ⟨rxReady_iff s.dec, fun h => step_rxOffer_of_not_ready h d l es, fun h => ?_⟩
  exact (step_rxOffer s d l es).trans
    (exec_rxByte_of_error (s := { s with link := l, events := es }) h d)

/-! ### The header -/

theorem exec_rxByte_of_hdr {s : State} (h : s.dec.mode = .hdr) (d : Byte) :
    exec (.rxByte d) s = rxHeader d s := by
  simp only [exec, execRxByte, h]

/-- The length byte is only recorded. -/
theorem exec_rxByte_first {s : State} (h : s.dec.mode = .hdr) (hc : s.dec.hcnt = 0) (d : Byte) :
    exec (.rxByte d) s = .next
      { s with dec := { s.dec with crc := crcByte s.dec.crc d, obsLen := d, hcnt := 1 } } := by
  rw [exec_rxByte_of_hdr h]
  simp [rxHeader, recordHeader, hc]

/-- So is the address byte. -/
theorem exec_rxByte_second {s : State} (h : s.dec.mode = .hdr) (hc : s.dec.hcnt = 1) (d : Byte) :
    exec (.rxByte d) s = .next
      { s with dec := { s.dec with crc := crcByte s.dec.crc d, obsAddr := d, hcnt := 2 } } := by
  rw [exec_rxByte_of_hdr h]
  simp [rxHeader, recordHeader, hc]

/-- The command byte is recorded and the header is checked. -/
theorem exec_rxByte_third {s : State} (h : s.dec.mode = .hdr) (hc : s.dec.hcnt = 2) (d : Byte) :
    exec (.rxByte d) s = .next (checkHeader
      { s with dec := { s.dec with crc := crcByte s.dec.crc d, obsCmd := d, hcnt := 3 } }) := by
  rw [exec_rxByte_of_hdr h]
  simp [rxHeader, recordHeader, hc]

/-- The lengths of an accepted header are its length byte's number less 4 and less 2 (R145). -/
theorem payloadSize_eq_ofNat {len : Byte} (h : 4 ≤ len.toNat) :
    payloadSize len = BitVec.ofNat 8 (len.toNat - 4) := by
  rw [← payloadSize_toNat h, BitVec.ofNat_toNat, BitVec.setWidth_eq]

theorem bodySize_eq_ofNat {len : Byte} (h : 2 ≤ len.toNat) :
    bodySize len = BitVec.ofNat 8 (len.toNat - 2) := by
  rw [← bodySize_toNat h, BitVec.ofNat_toNat, BitVec.setWidth_eq]

/-- The checks as one choice, with the lengths as numbers (R145, R147). -/
theorem checkHeader_eq (s : State) :
    checkHeader s =
      if s.dec.obsAddr ≠ s.dec.expAddr then raiseDecError .addr s
      else if s.dec.obsCmd ≠ s.dec.expCmd then raiseDecError .cmd s
      else if s.dec.obsLen.toNat < 4 then raiseDecError .len s
      else if acceptsSize s.dec.vkind s.dec.vsize (s.dec.obsLen.toNat - 4) = false then
        raiseDecError .size s
      else { s with dec := { s.dec with
        mode := .body, plen := BitVec.ofNat 8 (s.dec.obsLen.toNat - 4),
        rem := BitVec.ofNat 8 (s.dec.obsLen.toNat - 2) } } := by
  rcases checkHeader_cases s with
    ⟨haddr, h⟩ | ⟨haddr, hcmd, h⟩ | ⟨haddr, hcmd, hlen, h⟩ | ⟨haddr, hcmd, hlen, hsize, h⟩ |
    ⟨haddr, hcmd, hlen, hsize, h⟩
  · rw [h, if_pos haddr]
  · rw [h, if_neg (not_not_intro haddr), if_pos hcmd]
  · rw [h, if_neg (not_not_intro haddr), if_neg (not_not_intro hcmd), if_pos hlen]
  · rw [payloadSize_toNat hlen] at hsize
    rw [h, if_neg (not_not_intro haddr), if_neg (not_not_intro hcmd), if_neg (Nat.not_lt.2 hlen),
      if_pos hsize]
  · rw [payloadSize_toNat hlen] at hsize
    rw [h, if_neg (not_not_intro haddr), if_neg (not_not_intro hcmd), if_neg (Nat.not_lt.2 hlen),
      if_neg (by simp [hsize]), payloadSize_eq_ofNat hlen, bodySize_eq_ofNat (by omega)]

/-- A failed check writes no length. -/
theorem checkHeader_lengths_of_error {s : State} (h : (checkHeader s).dec.mode = .error) :
    (checkHeader s).dec.plen = s.dec.plen ∧ (checkHeader s).dec.rem = s.dec.rem := by
  rcases checkHeader_cases s with
    ⟨_, e⟩ | ⟨_, _, e⟩ | ⟨_, _, _, e⟩ | ⟨_, _, _, _, e⟩ | ⟨_, _, _, _, e⟩
  pick_goal 5 -- an accepted header is in BODY
  · rw [e] at h; cases h
  all_goals rw [e]; exact ⟨rfl, rfl⟩

/-- So a header that fails leaves `plen` and `dec_rem` at the 0 they have before it is complete (R38). -/
theorem lengths_of_failed_header {d : Byte} {s t : State} (hm : s.dec.mode = .hdr)
    (hframe : decFrameInv s.dec) (h : exec (.rxByte d) s = .next t) (ht : t.dec.mode = .error) :
    t.dec.plen = 0 ∧ t.dec.rem = 0 := by
  obtain ⟨hpartial, _⟩ := hframe
  rw [exec_rxByte_of_hdr hm] at h
  rcases rxHeader_next h with ⟨_, _, rfl⟩ | ⟨hc, rfl⟩
  · rw [recordHeader_dec_mode, hm] at ht
    cases ht
  · obtain ⟨hplen, hrem, _⟩ := hpartial (by rw [hc]; decide)
    obtain ⟨hplen', hrem'⟩ := checkHeader_lengths_of_error ht
    exact ⟨hplen'.trans hplen, hrem'.trans hrem⟩

/-! ### The body -/

/-- With its counts in range a body byte is recorded and the frame's end is looked for. -/
theorem exec_rxByte_of_body {s : State} (h : s.dec.mode = .body) (h1 : 1 ≤ s.dec.rem.toNat)
    (h2 : s.dec.rem.toNat ≤ s.dec.plen.toNat + 2)
    (hbuf : 2 < s.dec.rem.toNat → bodyIndex s.dec < 251) (d : Byte) :
    exec (.rxByte d) s = .next (checkFrame (recordBody d s)) := by
  simp only [exec, execRxByte, h]
  rw [rxBody, if_neg (by omega), if_neg fun hb => absurd (hbuf hb.1) (Nat.not_lt.2 hb.2)]

theorem checkFrame_of_ne_zero {s : State} (h : s.dec.rem ≠ 0) : checkFrame s = s := if_neg h

theorem checkFrame_of_zero {s : State} (h : s.dec.rem = 0) :
    checkFrame s = if s.dec.crc = 0x0000 then { s with dec := { s.dec with mode := .done } }
      else { s with dec := { s.dec with mode := .error, err := .checksum } } := if_pos h

/-- A payload byte goes to the buffer, at the position after the header it has in the frame. -/
theorem exec_rxByte_payload {s : State} (h : s.dec.mode = .body) (hplen : s.dec.plen.toNat ≤ 251)
    (hrem : 2 < s.dec.rem.toNat) (hle : s.dec.rem.toNat ≤ s.dec.plen.toNat + 2) (d : Byte) :
    exec (.rxByte d) s = .next
      { s with dec := { s.dec with
          crc := crcByte s.dec.crc d,
          buf := s.dec.buf.write (s.dec.plen.toNat + 2 - s.dec.rem.toNat) d,
          rem := s.dec.rem - 1 } } := by
  have hindex : bodyIndex s.dec < 251 := by rw [bodyIndex]; omega
  have howed : (recordBody d s).dec.rem ≠ 0 := by rw [recordBody_dec_rem]; bv_omega
  rw [exec_rxByte_of_body h (by omega) hle fun _ => hindex, checkFrame_of_ne_zero howed]
  simp only [recordBody, if_pos hrem, bodyIndex]

/-- The first CRC byte is the low one. -/
theorem exec_rxByte_crcLow {s : State} (h : s.dec.mode = .body) (hrem : s.dec.rem = 2) (d : Byte) :
    exec (.rxByte d) s = .next
      { s with dec := { s.dec with
          crc := crcByte s.dec.crc d, rxcrc := hi8 s.dec.rxcrc ++ d, rem := 1 } } := by
  have hnat : s.dec.rem.toNat = 2 := by rw [hrem]; rfl
  have howed : (recordBody d s).dec.rem ≠ 0 := by rw [recordBody_dec_rem, hrem]; decide
  rw [exec_rxByte_of_body h (by omega) (by omega) (by omega), checkFrame_of_ne_zero howed]
  simp [recordBody, hrem, setLo8]

/-- The second is the high one; it completes the frame, which is checked by its residue (R146). -/
theorem exec_rxByte_crcHigh {s : State} (h : s.dec.mode = .body) (hrem : s.dec.rem = 1) (d : Byte) :
    exec (.rxByte d) s = .next (checkFrame
      { s with dec := { s.dec with
          crc := crcByte s.dec.crc d, rxcrc := d ++ lo8 s.dec.rxcrc, rem := 0 } }) := by
  have hnat : s.dec.rem.toNat = 1 := by rw [hrem]; rfl
  rw [exec_rxByte_of_body h (by omega) (by omega) (by omega)]
  simp [recordBody, hrem, setHi8]

/-- Settles O19: a byte that is not received, then the three header bytes and the three kinds of body byte
one lemma each, the lengths after a failed header, and the example by running its events. -/
theorem rxByteResult : Obligations.RxByteResult := by
  unfold Obligations.RxByteResult
  refine ⟨mkWord_operandC 0x30,
    fun d l s es hm => step_rxOffer_of_not_ready (rxReady_eq_false hm) d l es,
    fun d s hm => exec_rxByte_of_error hm d,
    fun d s hm hc => exec_rxByte_first hm hc d,
    fun d s hm hc => exec_rxByte_second hm hc d,
    fun d s hm hc => (exec_rxByte_third hm hc d).trans (congrArg _ (checkHeader_eq _)),
    fun d s hm hplen hrem hle => exec_rxByte_payload hm hplen hrem hle d,
    fun d s hm hrem => exec_rxByte_crcLow hm hrem d,
    fun d s hm hrem => (exec_rxByte_crcHigh hm hrem d).trans (congrArg _ (checkFrame_of_zero rfl)),
    fun d s t hm hframe h => lengths_of_failed_header hm hframe h,
    exists_next_iff.2 (by decide +kernel)⟩

end Sys2Proof.Machine
end

section
/-! PROOFS. RX_EOS (42_decoder.md R151). -/

namespace Sys2Proof.Machine

theorem exec_rxEos_of_pending {s : State} (h : readPending s.dec = true) :
    exec .rxEos s = .next
      { s with dec := { s.dec with rxClosed := true, mode := .error, err := .transport } } :=
  if_pos h

theorem exec_rxEos_of_not_pending {s : State} (h : readPending s.dec = false) :
    exec .rxEos s = .next { s with dec := { s.dec with rxClosed := true } } :=
  if_neg (by simp [h])

/-- After it the stream is closed and no read is pending. -/
theorem closed_of_exec_rxEos {s t : State} (h : exec .rxEos s = .next t) :
    t.dec.rxClosed = true ∧ readPending t.dec = false := by
  cases hp : readPending s.dec with
  | true =>
    rw [exec_rxEos_of_pending hp] at h
    cases h
    exact ⟨rfl, rfl⟩
  | false =>
    rw [exec_rxEos_of_not_pending hp] at h
    cases h
    exact ⟨rfl, hp⟩

/-- In such a state it changes nothing. -/
theorem exec_rxEos_of_closed {s : State} (hc : s.dec.rxClosed = true)
    (hp : readPending s.dec = false) : exec .rxEos s = .next s := by
  rw [exec_rxEos_of_not_pending hp, ← hc]

/-- DEC_ARM on a closed stream answers OK and raises TRANSPORT (R143). -/
theorem exec_decArm_of_closed {s : State} (h : rxReady s.dec = false) (hc : s.dec.rxClosed = true)
    (ea ec : Byte) :
    ∃ u : State, exec (.decArm ea ec) s = .next u ∧ u.result = .ok ∧
      u.dec.mode = .error ∧ u.dec.err = .transport :=
  ⟨_, exec_decArm_of_not_ready h ea ec, rfl, if_pos hc, if_pos hc⟩

/-- Settles O21: the effect by whether a read is pending, a second event in the state of the first, DEC_ARM
on the closed stream, and the example by running its events. -/
theorem rxEosResult : Obligations.RxEosResult := by
  unfold Obligations.RxEosResult
  refine ⟨rfl, fun s hm => exec_rxEos_of_pending ((readPending_iff s.dec).2 hm),
    fun s hm => exec_rxEos_of_not_pending (readPending_eq_false hm), fun s es => rfl,
    fun s t h => ?_, fun ea ec s t hm h => ?_, exists_next_iff.2 (by decide +kernel)⟩
  · obtain ⟨hc, hp⟩ := closed_of_exec_rxEos h
    exact exec_rxEos_of_closed hc hp
  · rw [exec_rxEos_of_not_pending (readPending_eq_false (hm.imp_right .inl))] at h
    cases h
    exact exec_decArm_of_closed (s := { s with dec := { s.dec with rxClosed := true } })
      (rxReady_eq_false hm) rfl ea ec

end Sys2Proof.Machine
end

section
/-! PROOFS. The answers of the command words (60_exceptions.md R181, R182): a word is ILLEGAL exactly on
R77's grounds, and an operation answers SEQUENCE, OVERFLOW or OK by two conditions read in R187's order. -/

namespace Sys2Proof.Machine

/-! ### What the CMD port rejects is illegal (R77) -/

/-- Fields without any of R77's grounds are a row of the opcode map. -/
theorem decodeFields_of_not_illegalCmd {op a b c : Byte} (h : ¬ illegalCmd (mkWord op a b c)) :
    ∃ i : Instr, decodeFields op a b c = .instr i := by
  rw [illegalCmd_mkWord_iff, not_or, not_not] at h
  obtain ⟨hop, hfields⟩ := h
  simp only [List.mem_cons, List.not_mem_nil, or_false] at hop
  rcases hop with rfl | rfl | rfl | rfl | rfl | rfl | rfl | rfl
  all_goals
    simp at hfields
    simp [decodeFields, onlyIf, hfields]

/-- A rejected word is illegal: the two RX codes are not in R77's list of commands. -/
theorem illegalCmd_of_reject {w : Word} {r : DecodeReject} (h : decodeCmd w = .reject r) :
    illegalCmd w := by
  by_contra hlegal
  rw [← mkWord_fields w] at hlegal
  obtain ⟨i, hi⟩ := decodeFields_of_not_illegalCmd hlegal
  unfold decodeCmd at h
  split at h
  · rename_i hrx
    have hcode : fieldOP w = 0x30 ∨ fieldOP w = 0x31 := by simpa using hrx
    rcases hcode with hop | hop <;> simp [illegalCmd_mkWord_iff, hop] at hlegal
  · rw [decode, hi] at h
    cases h

/-! ### What an accepted word answers -/

/-- The operation comes at the wrong time: ENC_START with a frame open, ENC_BYTE with none, DEC_SETV
while a frame is being read, DEC_ARM then or in ERROR (R181). -/
def outOfSequence (i : Instr) (s : State) : Prop :=
  match i with
  | .encStart _ _ _ => s.enc.mode = .body
  | .encByte _ => s.enc.mode = .idle
  | .decSetv _ _ => readPending s.dec = true
  | .decArm _ _ => rxReady s.dec = true
  | .nop | .crcInit | .crcByte _ | .decCancel | .rxByte _ | .rxEos => False

/-- The operation announces more payload than a frame can hold (R120). -/
def announcesTooMuch (i : Instr) : Prop :=
  match i with
  | .encStart _ _ n => 251 < n.toNat
  | .nop | .crcInit | .crcByte _ | .encByte _ | .decSetv _ _ | .decArm _ _ | .decCancel | .rxByte _
  | .rxEos => False

/-- A command out of sequence and a count too large write the answer and nothing else; every other
command answers OK. -/
theorem exec_command_next {i : Instr} {s t : State} (hwf : i.wf = true) (hrx : i.isRx = false)
    (h : exec i s = .next t) :
    (outOfSequence i s ∧ t = answer .sequence s) ∨
    (¬ outOfSequence i s ∧ announcesTooMuch i ∧ t = answer .overflow s) ∨
    (¬ outOfSequence i s ∧ ¬ announcesTooMuch i ∧ t.result = .ok) := by
  cases i with
  | nop | crcInit | crcByte =>
    cases h
    exact .inr (.inr ⟨id, id, rfl⟩)
  | encStart a c n =>
    simp only [exec] at h
    rcases execEncStart_cases a c n s with ⟨hm, e⟩ | ⟨hm, hn, e⟩ | ⟨hm, hn, e⟩ <;> rw [e] at h <;>
      cases h
    · exact .inl ⟨hm, rfl⟩
    · exact .inr (.inl ⟨by simp [outOfSequence, hm], hn, rfl⟩)
    · exact .inr (.inr ⟨by simp [outOfSequence, hm], Nat.not_lt.2 hn, rfl⟩)
  | encByte d =>
    simp only [exec] at h
    rcases execEncByte_cases d s with ⟨hm, e⟩ | ⟨_, _, e⟩ | ⟨hm, _, e⟩ <;> rw [e] at h <;> cases h
    · exact .inl ⟨hm, rfl⟩
    · exact .inr (.inr ⟨by simp [outOfSequence, hm], id, rfl⟩)
  | decSetv vk vs =>
    simp only [exec] at h
    rcases execDecSetv_cases vk vs s with ⟨hk, _⟩ | ⟨_, hp, e⟩ | ⟨hp, _, _, e⟩
    · exact absurd hk (ValKind.ofBits_ne_none (bne_iff_ne.1 hwf))
    · rw [e] at h; cases h
      exact .inl ⟨hp, rfl⟩
    · rw [e] at h; cases h
      exact .inr (.inr ⟨by simp [outOfSequence, hp], id, rfl⟩)
  | decArm ea ec =>
    simp only [exec] at h
    rcases execDecArm_cases ea ec s with ⟨hr, e⟩ | ⟨hr, _, e⟩ | ⟨hr, _, e⟩ <;> rw [e] at h <;> cases h
    · exact .inl ⟨hr, rfl⟩
    · exact .inr (.inr ⟨by simp [outOfSequence, hr], id, rfl⟩)
    · exact .inr (.inr ⟨by simp [outOfSequence, hr], id, rfl⟩)
  | decCancel =>
    simp only [exec] at h
    rcases execDecCancel_cases s with ⟨_, e⟩ | ⟨_, e⟩ <;> rw [e] at h <;> cases h <;>
      exact .inr (.inr ⟨id, id, rfl⟩)
  | rxByte | rxEos => cases hrx

/-! ### The two conditions read on the operation's word -/

theorem outOfSequence_iff_encode {i : Instr} (hrx : i.isRx = false) (s : State) :
    outOfSequence i s ↔
      (fieldOP (encode i) = 0x10 ∧ s.enc.mode = .body) ∨
      (fieldOP (encode i) = 0x11 ∧ s.enc.mode = .idle) ∨
      (fieldOP (encode i) = 0x20 ∧ (s.dec.mode = .hdr ∨ s.dec.mode = .body)) ∨
      (fieldOP (encode i) = 0x21 ∧
        (s.dec.mode = .hdr ∨ s.dec.mode = .body ∨ s.dec.mode = .error)) := by
  cases i with
  | rxByte | rxEos => cases hrx
  | nop | crcInit | crcByte | encStart | encByte | decSetv | decArm | decCancel =>
    simp [outOfSequence, encode, readPending_iff, rxReady_iff]

theorem announcesTooMuch_iff_encode {i : Instr} (hrx : i.isRx = false) :
    announcesTooMuch i ↔ fieldOP (encode i) = 0x10 ∧ 251 < (fieldC (encode i)).toNat := by
  cases i with
  | rxByte | rxEos => cases hrx
  | nop | crcInit | crcByte | encStart | encByte | decSetv | decArm | decCancel =>
    simp [announcesTooMuch, encode]

/-! ### The four answers -/

/-- What one command word can do, when it goes on: it is illegal, or one of the three answers of an
accepted word. -/
theorem takeCmd_next {w : Word} {s t : State} (h : takeCmd w s = .next t) :
    (illegalCmd w ∧ t = answer .illegal s) ∨
    ∃ i : Instr, ¬ illegalCmd w ∧ encode i = w ∧ i.isRx = false ∧
      ((outOfSequence i s ∧ t = answer .sequence s) ∨
      (¬ outOfSequence i s ∧ announcesTooMuch i ∧ t = answer .overflow s) ∨
      (¬ outOfSequence i s ∧ ¬ announcesTooMuch i ∧ t.result = .ok)) := by
  unfold takeCmd at h
  cases hd : decodeCmd w with
  | reject r =>
    rw [hd] at h
    cases h
    exact .inl ⟨illegalCmd_of_reject hd, rfl⟩
  | instr i =>
    rw [hd] at h
    have hrx := isRx_of_decodeCmd hd
    obtain ⟨hwf, rfl⟩ := encode_of_decode (decode_of_decodeCmd hd)
    exact .inr ⟨i, not_illegalCmd_encode hwf hrx, rfl, hrx, exec_command_next hwf hrx h⟩

/-- CMD_RESULT reads the answer's number (R31). -/
theorem regCmdResult_eq (s : State) : regCmdResult s = s.result.code.setWidth 32 :=
  (BitVec.setWidth_eq_append (by decide)).symm

/-- Settles O8: a word is illegal or gives one of three answers by two conditions, which are then read on
the word's fields. -/
theorem commandResultCodes : Obligations.CommandResultCodes := by
  unfold Obligations.CommandResultCodes
  intro s t w es h op hseq hlong
  rcases takeCmd_next (s := { s with events := es }) h with ⟨hill, rfl⟩ | ⟨i, hlegal, rfl, hrx, hi⟩
  · simp [hill, answer, regCmdResult_eq, Result.code]
  · have hseq_iff : outOfSequence i _ ↔ hseq := outOfSequence_iff_encode hrx { s with events := es }
    have hlong_iff : announcesTooMuch i ↔ hlong := announcesTooMuch_iff_encode hrx
    rw [hseq_iff, hlong_iff] at hi
    rcases hi with ⟨hs, rfl⟩ | ⟨hs, hl, rfl⟩ | ⟨hs, hl, hok⟩
    · simp [hlegal, hs, answer, regCmdResult_eq, Result.code]
    · simp [hlegal, hs, hl, answer, regCmdResult_eq, Result.code]
    · simp [hlegal, hs, hl, hok, regCmdResult_eq, Result.code]

end Sys2Proof.Machine
end

section
/-! PROOFS. The ERROR mode (60_exceptions.md R189, R190): no operation leaves it, and reset does. -/

namespace Sys2Proof.Machine

/-- `rx_ready` is 1 in ERROR, so DEC_ARM is refused there (R150, R143). -/
theorem rxReady_of_error {d : Dec} (h : d.mode = .error) : rxReady d = true :=
  (rxReady_iff d).2 (.inr (.inr h))

/-- No read is pending in ERROR, so neither DEC_CANCEL nor RX_EOS raises an error again. -/
theorem readPending_of_error {d : Dec} (h : d.mode = .error) : readPending d = false :=
  readPending_eq_false (.inr (.inr h))

/-- In ERROR an operation can write the validator and `rx_closed`; the mode, the error's code and every
recorded field stay. -/
theorem exec_dec_of_error {i : Instr} {s t : State} (hm : s.dec.mode = .error)
    (h : exec i s = .next t) :
    t.dec = { s.dec with vkind := t.dec.vkind, vsize := t.dec.vsize, rxClosed := t.dec.rxClosed } := by
  cases i with
  | nop | crcInit | crcByte => cases h; rfl
  | encStart | encByte =>
    obtain ⟨_, _, _, rfl⟩ := exec_isEnc_frame rfl h
    rfl
  | decSetv vk vs =>
    simp only [exec] at h
    rcases execDecSetv_cases vk vs s with ⟨_, e⟩ | ⟨_, _, e⟩ | ⟨_, _, _, e⟩ <;> rw [e] at h <;>
      cases h <;> rfl
  | decArm ea ec =>
    rw [exec_decArm_of_ready (rxReady_of_error hm)] at h
    cases h
    rfl
  | decCancel =>
    rw [exec_decCancel_of_not_pending (readPending_of_error hm)] at h
    cases h
    rfl
  | rxByte d =>
    rw [exec_rxByte_of_error hm] at h
    cases h
    rfl
  | rxEos =>
    rw [exec_rxEos_of_not_pending (readPending_of_error hm)] at h
    cases h
    rfl

/-- So can an event, unless it is reset. -/
theorem takeEvent_dec_of_error {e : Event} {s t : State} (hm : s.dec.mode = .error) (hrst : e ≠ .rst)
    (h : takeEvent e s = .next t) :
    t.dec = { s.dec with vkind := t.dec.vkind, vsize := t.dec.vsize, rxClosed := t.dec.rxClosed } := by
  rcases takeEvent_next h with ⟨w, i, _, _, h⟩ | ⟨w, r, _, _, rfl⟩ | ⟨ri, _, rfl⟩ |
    ⟨_, _, rfl⟩ | ⟨d, l, _, _, h⟩ | ⟨_, h⟩ | ⟨rfl, _⟩ | ⟨l, _, rfl⟩
  · exact exec_dec_of_error hm h
  · rfl
  · rfl
  · rfl
  · exact exec_dec_of_error (s := { s with link := l }) hm h
  · exact exec_dec_of_error hm h
  · exact absurd rfl hrst
  · rfl

/-- In ERROR an offered byte is dropped, if there is one; the decoder does not see it. -/
theorem takeRxOffer_dec_of_error {s t : State} (hm : s.dec.mode = .error)
    (h : takeRxOffer s = .next t) : t.dec = s.dec := by
  unfold takeRxOffer at h
  split at h
  · cases h; rfl
  · rename_i d l _
    rw [exec_rxByte_of_error (s := { s with link := l }) hm] at h
    cases h
    rfl

/-- An event that carries out an operation's command word runs the operation. -/
theorem takeEvent_of_cmdInstr {e : Event} {i : Instr} (he : e.cmdInstr = some i) (s : State) :
    takeEvent e s = exec i s := by
  cases e with
  | cmd w =>
    cases hw : decodeCmd w with
    | instr j =>
      obtain rfl : j = i := by simpa [Event.cmdInstr, hw, Decoded.instr?] using he
      rw [takeEvent, takeCmd, hw]
    | reject r => simp [Event.cmdInstr, hw, Decoded.instr?] at he
  | rd | rxOffer | rxEos | rst | reopen => cases he

/-- Settles O44: every event by what it can write in ERROR, and the four named ones by their effect
there. -/
theorem errorLeftOnlyByReset : Obligations.ErrorLeftOnlyByReset := by
  unfold Obligations.ErrorLeftOnlyByReset
  intro s t e es hm h
  rw [step_cons] at h
  replace hm : ({ s with events := es } : State).dec.mode = .error := hm
  refine ⟨?_, fun hrst => takeEvent_dec_of_error (s := { s with events := es }) hm hrst h,
    fun ea ec he => ?_, ?_, ?_, fun he => ?_⟩
  · rintro rfl
    cases h
    rfl
  · rw [takeEvent_of_cmdInstr he, exec_decArm_of_ready (rxReady_of_error hm)] at h
    cases h
    exact ⟨rfl, rfl⟩
  · rintro rfl
    exact takeRxOffer_dec_of_error (s := { s with events := es }) hm h
  · rintro rfl
    cases (exec_rxEos_of_not_pending (readPending_of_error hm)).symm.trans h
    rfl
  · rw [takeEvent_of_cmdInstr he, exec_decCancel_of_not_pending (readPending_of_error hm)] at h
    cases h
    exact ⟨rfl, rfl⟩

end Sys2Proof.Machine
end

section
/-! PROOFS. Reset at any time (70_reset_and_hazards.md R210), and the wait of an armed decoder whose link
is silent (R223). -/

namespace Sys2Proof.Machine

/-! ### Reset -/

/-- No event but reset leaves ERROR. -/
theorem takeEvent_stays_in_error {e : Event} {s t : State} (hm : s.dec.mode = .error) (hrst : e ≠ .rst)
    (h : takeEvent e s = .next t) : t.dec.mode = .error :=
  (congrArg Dec.mode (takeEvent_dec_of_error hm hrst h)).trans hm

/-- Settles O24: the step goes on in `resetBlock`, whose fields are those of the reset table, and no other
event leaves ERROR. -/
theorem resetEventSetsEveryField : Obligations.ResetEventSetsEveryField := by
  unfold Obligations.ResetEventSetsEveryField
  refine ⟨fun s es => ⟨resetBlock { s with events := es }, rfl, ?_⟩, fun s t e es hm hrst h => ?_⟩
  · exact ⟨rfl, rfl, rfl, rfl, rfl, rfl, rfl, rfl, rfl, rfl, rfl, rfl, rfl, rfl, rfl, rfl⟩
  · exact takeEvent_stays_in_error (s := { s with events := es }) hm hrst h

/-! ### The encoder's words go through and keep R47(a) -/

/-- The end of both words' effect keeps R47(a), when the bytes owed are within the frame's length. -/
theorem closeFrame_encInv {s : State} (hrem : s.enc.rem.toNat ≤ 251)
    (hlen : s.enc.rem.toNat + 4 ≤ s.enc.len.toNat) : encInv (closeFrame s).enc := by
  by_cases hr : s.enc.rem = 0
  · rw [closeFrame_of_zero hr]
    exact ⟨fun _ => hr, nofun⟩
  · rw [closeFrame_of_ne_zero hr]
    exact ⟨nofun, fun _ => ⟨by bv_omega, hrem, hlen⟩⟩

theorem openFrame_encInv {n : Byte} (hn : n.toNat ≤ 251) (a c : Byte) (s : State) :
    encInv (openFrame a c n s).enc :=
  closeFrame_encInv hn (lenByte_toNat hn).ge

theorem sendPayload_encInv {s : State} (hm : s.enc.mode = .body) (hr : s.enc.rem ≠ 0)
    (h : encInv s.enc) (d : Byte) : encInv (sendPayload d s).enc := by
  obtain ⟨_, hrem, hlen⟩ := h.2 hm
  have hpred := pred_toNat hr
  exact closeFrame_encInv (show (s.enc.rem - 1).toNat ≤ 251 by omega)
    (show (s.enc.rem - 1).toNat + 4 ≤ s.enc.len.toNat by omega)

/-- Under R47(a) an encoder word meets no fault, and R47(a) holds after it. -/
theorem exec_isEnc_encInv {i : Instr} {s : State} (hi : i.isEnc = true) (h : encInv s.enc) :
    ∃ t : State, exec i s = .next t ∧ encInv t.enc := by
  cases i with
  | nop | crcInit | crcByte | decSetv | decArm | decCancel | rxByte | rxEos => cases hi
  | encStart a c n =>
    rcases execEncStart_cases a c n s with ⟨_, e⟩ | ⟨_, _, e⟩ | ⟨_, hn, e⟩
    · exact ⟨_, e, h⟩
    · exact ⟨_, e, h⟩
    · exact ⟨_, e, openFrame_encInv hn a c s⟩
  | encByte d =>
    rcases execEncByte_cases d s with ⟨_, e⟩ | ⟨hm, hr, _⟩ | ⟨hm, hr, e⟩
    · exact ⟨_, e, h⟩
    · have howed := (h.2 hm).1
      rw [hr] at howed
      exact absurd howed (by decide)
    · exact ⟨_, e, sendPayload_encInv hm hr h d⟩

/-! ### The wait (R223) -/

/-- The decoder holds `d`, the link is silent, and the encoder meets R47(a), so that its words go
through. -/
def State.waitsWith (d : Dec) (s : State) : Prop :=
  s.dec = d ∧ s.link = [] ∧ encInv s.enc

/-- The event brings neither an end of stream nor a fresh one, and is no DEC_CANCEL and no reset. -/
def Event.keepsWait (e : Event) : Prop :=
  e ≠ .rst ∧ e ≠ .rxEos ∧ e.cmdInstr ≠ some .decCancel ∧ ∀ l, e ≠ .reopen l

/-- The encoder's words reach neither the decoder nor the link. -/
theorem exec_isEnc_waitsWith {i : Instr} {d : Dec} {s : State} (hi : i.isEnc = true)
    (h : s.waitsWith d) : ∃ t : State, exec i s = .next t ∧ t.waitsWith d := by
  obtain ⟨rfl, hlink, henc⟩ := h
  obtain ⟨t, hx, hinv⟩ := exec_isEnc_encInv hi henc
  obtain ⟨_, _, _, rfl⟩ := exec_isEnc_frame hi hx
  exact ⟨_, hx, rfl, hlink, hinv⟩

/-- A command other than DEC_CANCEL keeps the wait: DEC_SETV and DEC_ARM are refused, the others do not
reach the decoder. -/
theorem exec_waitsWith {i : Instr} {d : Dec} {s : State} (hd : readPending d = true)
    (hrx : i.isRx = false) (hcancel : i ≠ .decCancel) (h : s.waitsWith d) :
    ∃ t : State, exec i s = .next t ∧ t.waitsWith d := by
  obtain ⟨rfl, hlink, henc⟩ := h
  cases i with
  | nop | crcInit | crcByte => exact ⟨_, rfl, rfl, hlink, henc⟩
  | encStart | encByte => exact exec_isEnc_waitsWith rfl ⟨rfl, hlink, henc⟩
  | decSetv vk vs =>
    rcases execDecSetv_cases vk vs s with ⟨_, e⟩ | ⟨_, _, e⟩ | ⟨hidle, _⟩
    · exact ⟨_, e, rfl, hlink, henc⟩
    · exact ⟨_, e, rfl, hlink, henc⟩
    · rw [hd] at hidle; cases hidle
  | decArm ea ec =>
    have hready : rxReady s.dec = true :=
      (rxReady_iff s.dec).2 (((readPending_iff s.dec).1 hd).imp_right .inl)
    exact ⟨_, exec_decArm_of_ready hready ea ec, rfl, hlink, henc⟩
  | decCancel => exact absurd rfl hcancel
  | rxByte | rxEos => cases hrx

/-- So does every event that `keepsWait` allows: an illegal word and a read do not reach the decoder, and
an offer has no byte to give. -/
theorem takeEvent_waitsWith {e : Event} {d : Dec} {s : State} (hd : readPending d = true)
    (he : e.keepsWait) (h : s.waitsWith d) :
    ∃ t : State, takeEvent e s = .next t ∧ t.waitsWith d := by
  obtain ⟨hrst, heos, hcancel, hreopen⟩ := he
  cases e with
  | cmd w =>
    cases hw : decodeCmd w with
    | instr i =>
      have hi : (Event.cmd w).cmdInstr = some i := congrArg Decoded.instr? hw
      rw [hi] at hcancel
      rw [takeEvent_of_cmdInstr hi]
      exact exec_waitsWith hd (isRx_of_decodeCmd hw) (fun heq => hcancel (congrArg some heq)) h
    | reject r => exact ⟨illegalWord s, by rw [takeEvent, takeCmd, hw], h⟩
  | rd ri => exact ⟨_, rfl, h⟩
  | rxOffer => exact ⟨s, by rw [takeEvent, takeRxOffer, h.2.1], h⟩
  | rxEos => exact absurd rfl heos
  | rst => exact absurd rfl hrst
  | reopen l => exact absurd rfl (hreopen l)

/-- A run of such events goes through and keeps the wait. -/
theorem runAll_waitsWith {d : Dec} (hd : readPending d = true) (es : List Event) :
    ∀ s : State, s.waitsWith d → (∀ e ∈ es, e.keepsWait) →
      ∃ t : State, runAll { s with events := es } = .next t ∧ t.waitsWith d := by
  induction es with
  | nil => exact fun s h _ => ⟨_, runAll_nil s, h⟩
  | cons e es ih =>
    intro s h hes
    obtain ⟨he, hrest⟩ := List.forall_mem_cons.1 hes
    obtain ⟨t, htake, ht⟩ := takeEvent_waitsWith (s := { s with events := es }) hd he h
    obtain ⟨u, hrun, hu⟩ := ih t ht hrest
    exact ⟨u, (runAll_cons htake).trans hrun, hu⟩

/-- Settles O46: the run keeps the wait; then a read is still pending, which DEC_CANCEL's word ends with
CANCELLED, and reset with IDLE. -/
theorem armedDecoderWaits : Obligations.ArmedDecoderWaits := by
  unfold Obligations.ArmedDecoderWaits
  intro s es hinv hmode hlink hes
  have hpending := (readPending_iff s.dec).2 hmode
  obtain ⟨t, hrun, hdec, _, _⟩ := runAll_waitsWith hpending es s ⟨rfl, hlink, hinv.1⟩ hes
  rw [← hdec] at hpending
  refine ⟨t, hrun, hdec, ?_, ⟨_, rfl, rfl⟩⟩
  exact ⟨_, (takeEvent_encode (i := .decCancel) rfl rfl _).trans
    (exec_decCancel_of_pending (s := { t with events := [] }) hpending), rfl, rfl⟩

end Sys2Proof.Machine
end

section
/-! PROOFS. Words and operations (30_encoding.md R75, R77) and what a step presents (00_scope.md R10):
`decode` and `encode` are inverse to each other on the well-formed operations. -/

namespace Sys2Proof

/-- Settles O1: both decoders invert the encoder. -/
theorem decodeOfEncodeIsTheOperation : Obligations.DecodeOfEncodeIsTheOperation :=
  fun _ hwf => ⟨decode_encode hwf, decodeCmd_encode hwf⟩

/-- Settles O2: a decoded word lies in its operation's row, whose fields are the operands. -/
theorem encodeOfDecodeIsTheWord : Obligations.EncodeOfDecodeIsTheWord :=
  fun _ _ => encode_of_decode

/-- Settles O4, word by word. -/
theorem sampleWordsDecode : Obligations.SampleWordsDecode := by
  unfold Obligations.SampleWordsDecode
  decide

/-- The word of a well-formed operation, given as a number, names the operation (R79). -/
theorem decodeTableWord_encode {i : Instr} (h : i.wf = true) :
    decodeTableWord 32 (encode i).toNat = some i := by
  rw [decodeTableWord, if_pos ⟨le_rfl, (encode i).isLt⟩, BitVec.ofNat_toNat, BitVec.setWidth_eq,
    decode_encode h]
  rfl

end Sys2Proof

namespace Sys2Proof.Machine

/-- Settles O6: a word that the port rejects has one of R77's grounds, so the others are accepted. -/
theorem everyOtherWordIsACommand : Obligations.EveryOtherWordIsACommand := by
  unfold Obligations.EveryOtherWordIsACommand
  intro w hlegal
  cases hd : decodeCmd w with
  | reject r => exact absurd (illegalCmd_of_reject hd) hlegal
  | instr i => exact ⟨i, rfl, isRx_of_decodeCmd hd, encode_of_decode (decode_of_decodeCmd hd)⟩

/-- An operation presented at its port is the one the next step runs. -/
theorem step_presentInstr {i : Instr} (h : i.wf = true) (s : State) :
    step (presentInstr i (encode i) s) = exec i s := by
  cases i with
  | rxByte | rxEos => rfl
  | nop | crcInit | crcByte | encStart | encByte | decSetv | decArm | decCancel =>
    exact takeEvent_encode h rfl s

/-- So is the operation of a word number (log entry 1). -/
theorem step_withFetchWord {i : Instr} (h : i.wf = true) (s : State) :
    step (s.withFetchWord 32 (encode i).toNat) = exec i s := by
  rw [State.withFetchWord, presentWord_some (decodeTableWord_encode h), BitVec.ofNat_toNat,
    BitVec.setWidth_eq, step_presentInstr h]

/-- Settles O7, event by event. -/
theorem stepRunsThePresentedOperation : Obligations.StepRunsThePresentedOperation := by
  unfold Obligations.StepRunsThePresentedOperation
  refine fun s es => ⟨fun w i hw => ?_, fun d l => step_rxOffer s d l es, rfl, rfl, rfl,
    fun i hwf => step_withFetchWord hwf s⟩
  have hcmd : (Event.cmd w).cmdInstr = some i := congrArg Decoded.instr? hw
  exact takeEvent_of_cmdInstr hcmd { s with events := es }

/-- Settles O20: `rx_ready` is 0 in both modes. -/
theorem rxByteNotReadyReturnsTheByte : Obligations.RxByteNotReadyReturnsTheByte :=
  fun d _ hm => exec_rxByte_of_not_ready (rxReady_eq_false hm) d

end Sys2Proof.Machine
end

section
/-! PROOFS. The laws of the CRC (40_crc.md section 3). The update is invertible, and eight shift steps take
a value whose low byte is 0 to its high byte: both follow from what one step does. -/

namespace Sys2Proof.Machine

/-! ### One shift step -/

/-- The bit that leaves at the bottom comes back at the top, through the constant's bit 15. -/
theorem crcShift_msb (a : Half) : (crcShift a).getLsbD 15 = a.getLsbD 0 := by
  unfold crcShift
  cases h : a.getLsbD 0 <;> simp

/-- A shift step loses nothing: the top bit tells whether the constant was XORed in. -/
theorem crcShift_injective : Function.Injective crcShift := by
  intro a b h
  have hlow : a.getLsbD 0 = b.getLsbD 0 := by rw [← crcShift_msb, h, crcShift_msb]
  have hhigh : a >>> 1 = b >>> 1 := by
    unfold crcShift at h
    rw [hlow] at h
    split at h
    · exact (BitVec.xor_left_inj _).1 h
    · exact h
  apply BitVec.eq_of_getLsbD_eq
  intro i _
  cases i with
  | zero => exact hlow
  | succ i => simpa [Nat.add_comm] using congrArg (BitVec.getLsbD · i) hhigh

theorem crcSteps_injective (n : Nat) : Function.Injective (crcSteps n) := by
  induction n with
  | zero => exact Function.injective_id
  | succ n ih => exact ih.comp crcShift_injective

/-- Steps over zero bits only shift. -/
theorem crcSteps_of_low_zero (n : Nat) :
    ∀ a : Half, (∀ i < n, a.getLsbD i = false) → crcSteps n a = a >>> n := by
  induction n with
  | zero => exact fun a _ => (BitVec.ushiftRight_zero a).symm
  | succ n ih =>
    intro a h
    have hshift : crcShift a = a >>> 1 := if_neg (by rw [h 0 (Nat.zero_lt_succ n)]; decide)
    rw [crcSteps, hshift, ih _ fun i hi => ?_, ← BitVec.shiftRight_add, Nat.add_comm]
    rw [BitVec.getLsbD_ushiftRight, Nat.add_comm]
    exact h (i + 1) (Nat.succ_lt_succ hi)

/-! ### The update -/

theorem crcByte_injective (b : Byte) : Function.Injective (fun a : Half => crcByte a b) :=
  fun _ _ h => (BitVec.xor_left_inj _).1 (crcSteps_injective 8 h)

/-- Settles O32: an injection of a finite type into itself is a bijection. -/
theorem crcByteIsBijective : Obligations.CrcByteIsBijective :=
  fun b => Finite.injective_iff_bijective.1 (crcByte_injective b)

/-- The update reaches 0 from the byte itself only. -/
theorem crcByte_eq_zero_iff {a : Half} {b : Byte} : crcByte a b = 0 ↔ a = zext16 b := by
  have hzero : crcByte (zext16 b) b = 0 := by rw [crcByte, BitVec.xor_self]; exact crcSteps_zero 8
  rw [← hzero]
  exact (crcByte_injective b).eq_iff

/-- A byte above a zero byte comes down in the eight steps of one update. -/
theorem crcSteps_high (y : Byte) : crcSteps 8 (y ++ 0#8) = zext16 y := by
  have hlow : ∀ i < 8, BitVec.getLsbD (y ++ 0#8) i = false := fun i hi => by
    rw [BitVec.getLsbD_append, if_pos hi, BitVec.getLsbD_zero]
  rw [crcSteps_of_low_zero 8 _ hlow]
  apply BitVec.eq_of_toNat_eq
  rw [zext16, BitVec.toNat_ushiftRight, append_toNat, BitVec.toNat_setWidth_of_le (by decide),
    Nat.shiftRight_eq_div_pow]
  simp

/-- What one byte must find in the accumulator to leave the byte `y` alone there. -/
theorem crcByte_eq_zext16_iff {a : Half} {x y : Byte} : crcByte a x = zext16 y ↔ a = y ++ x := by
  have hxor : (y ++ x : Half) = (y ++ 0#8) ^^^ zext16 x := by
    have hx : zext16 x = 0#8 ++ x := BitVec.setWidth_eq_append (by decide)
    rw [hx]
    show _ = ((y ++ 0#8) ^^^ (0#8 ++ x) : BitVec (8 + 8))
    rw [BitVec.xor_append, BitVec.xor_zero, BitVec.zero_xor]
  rw [← crcSteps_high, crcByte, (crcSteps_injective 8).eq_iff, hxor, ← BitVec.xor_left_inj (zext16 x)]
  simp

/-! ### The residue (R104, R105) -/

@[simp] theorem lo8_append (y x : Byte) : lo8 (y ++ x) = x := BitVec.extractLsb'_append_eq_right

@[simp] theorem hi8_append (y x : Byte) : hi8 (y ++ x) = y := BitVec.extractLsb'_append_eq_left

/-- A CRC is its two bytes. -/
theorem hi8_append_lo8 (c : Half) : hi8 c ++ lo8 c = c := by
  apply BitVec.eq_of_toNat_eq
  rw [append_toNat, hi8, lo8, extract_toNat, extract_toNat]
  omega

theorem eq_append_iff {c : Half} {x y : Byte} : c = y ++ x ↔ x = lo8 c ∧ y = hi8 c := by
  constructor
  · rintro rfl
    simp
  · rintro ⟨rfl, rfl⟩
    exact (hi8_append_lo8 c).symm

/-- Two more bytes leave 0 exactly when they are the CRC so far, low byte first. -/
theorem crc16_residue_iff {m : List Byte} {x y : Byte} :
    crc16 (m ++ [x, y]) = 0 ↔ x = lo8 (crc16 m) ∧ y = hi8 (crc16 m) := by
  rw [crc16_append, crcFold_cons, crcFold_cons, crcFold_nil, crcByte_eq_zero_iff,
    crcByte_eq_zext16_iff, eq_append_iff]

/-- Settles O31, by the two updates that must end in 0. -/
theorem crcResidueAcceptsOnlyTheCrc : Obligations.CrcResidueAcceptsOnlyTheCrc :=
  fun _ _ _ => crc16_residue_iff

/-- Settles O30: the CRC's own bytes are the ones the residue accepts. -/
theorem crcZeroResidue : Obligations.CrcZeroResidue :=
  fun _ => crc16_residue_iff.2 ⟨rfl, rfl⟩

/-! ### The bit-serial form (R108) -/

/-- A bit of the byte in the accumulator is the feedback's second operand. -/
theorem crcShift_xor_zext16 (a : Half) (b : Byte) (i : Nat) :
    crcShift (a ^^^ (zext16 b >>> i)) = crcBit a b i ^^^ (zext16 b >>> (i + 1)) := by
  have hbit : (a ^^^ (zext16 b >>> i)).getLsbD 0 = Bool.xor (a.getLsbD 0) (b.getLsbD i) := by
    by_cases hi : i < 16
    · simp [zext16, hi]
    · have : b.getLsbD i = false := BitVec.getLsbD_of_ge b i (by omega)
      simp [zext16, hi, this]
  have hshift : (a ^^^ (zext16 b >>> i)) >>> 1 = (a >>> 1) ^^^ (zext16 b >>> (i + 1)) := by
    rw [BitVec.ushiftRight_xor_distrib, ← BitVec.shiftRight_add]
  unfold crcShift crcBit
  rw [hbit, hshift]
  cases Bool.xor (a.getLsbD 0) (b.getLsbD i)
  · simp
  · simp [BitVec.xor_assoc, BitVec.xor_comm (zext16 b >>> (i + 1))]

/-- After any number of bits the serial form has what the steps have, less the bits still to come. -/
theorem crcSteps_eq_serial (b : Byte) (n : Nat) : ∀ (a : Half) (i : Nat),
    crcSteps n (a ^^^ (zext16 b >>> i))
      = (List.range' i n).foldl (fun a i => crcBit a b i) a ^^^ (zext16 b >>> (i + n)) := by
  induction n with
  | zero => exact fun a i => rfl
  | succ n ih =>
    intro a i
    rw [crcSteps, crcShift_xor_zext16, ih, List.range'_succ, List.foldl_cons, Nat.add_right_comm,
      Nat.add_assoc i n 1]

/-- Settles O34: after eight bits none are to come. -/
theorem crcBitSerialFormAgrees : Obligations.CrcBitSerialFormAgrees := by
  unfold Obligations.CrcBitSerialFormAgrees
  intro a b
  have hgone : zext16 b >>> (0 + 8) = 0#16 := by
    apply BitVec.eq_of_toNat_eq
    rw [zext16, BitVec.toNat_ushiftRight, BitVec.toNat_setWidth_of_le (by decide),
      Nat.shiftRight_eq_div_pow]
    exact Nat.div_eq_of_lt b.isLt
  have hsteps := crcSteps_eq_serial b 8 a 0
  rw [hgone, BitVec.xor_zero, BitVec.ushiftRight_zero] at hsteps
  rw [crcByte, hsteps, crcByteSerial, List.range_eq_range']

/-- Settles O35, vector by vector. -/
theorem crcVectors : Obligations.CrcVectors := by
  unfold Obligations.CrcVectors
  decide +kernel

end Sys2Proof.Machine
end

section
/-! PROOFS. The payload buffer (00_scope.md R9): read after write, and the canonical form as a form of the
contents. -/

namespace Sys2Proof.Machine

/-- The first listed cell of a canonical buffer does not read as blank. -/
theorem Memory.read_head_ne_blank {lo k : Nat} {v : Byte} {m : Memory}
    (h : Memory.wfFrom lo ((k, v) :: m) = true) : Memory.read ((k, v) :: m) k ≠ Memory.blank := by
  obtain ⟨_, _, hv, _⟩ := Memory.wfFrom_cons.1 h
  simpa [Memory.read] using hv

/-- Canonical buffers that read alike list the same cells: the lower of two different first cells would
be blank in the other buffer. -/
theorem Memory.eq_of_read_eq : ∀ {lo : Nat} {m n : Memory}, Memory.wfFrom lo m = true →
    Memory.wfFrom lo n = true → (∀ i, lo ≤ i → i < Config.bufSize → m.read i = n.read i) → m = n
  | _, [], [], _, _, _ => rfl
  | _, [], (k, v) :: n, _, hn, h => by
    obtain ⟨hlo, hk, _, _⟩ := Memory.wfFrom_cons.1 hn
    exact absurd (h k hlo hk).symm (Memory.read_head_ne_blank hn)
  | _, (k, v) :: m, [], hm, _, h => by
    obtain ⟨hlo, hk, _, _⟩ := Memory.wfFrom_cons.1 hm
    exact absurd (h k hlo hk) (Memory.read_head_ne_blank hm)
  | _, (k, v) :: m, (k', v') :: n, hm, hn, h => by
    obtain ⟨hlo, hk, hv, hm'⟩ := Memory.wfFrom_cons.1 hm
    obtain ⟨hlo', hk', hv', hn'⟩ := Memory.wfFrom_cons.1 hn
    rcases Nat.lt_trichotomy k k' with hlt | rfl | hlt
    · have hblank : Memory.read ((k', v') :: n) k = Memory.blank :=
        Memory.read_below hlt (Memory.wfFrom_cons.2 ⟨le_rfl, hk', hv', hn'⟩)
      exact absurd ((h k hlo hk).trans hblank) (Memory.read_head_ne_blank hm)
    · obtain rfl : v = v' := by simpa [Memory.read] using h k hlo hk
      have hrest : m = n := Memory.eq_of_read_eq hm' hn' fun i hi hi' => by
        simpa [Memory.read, Nat.ne_of_lt (Nat.lt_of_succ_le hi)] using h i (by omega) hi'
      rw [hrest]
    · have hblank : Memory.read ((k, v) :: m) k' = Memory.blank :=
        Memory.read_below hlt (Memory.wfFrom_cons.2 ⟨le_rfl, hk, hv, hm'⟩)
      exact absurd ((h k' hlo' hk').symm.trans hblank) (Memory.read_head_ne_blank hn)

/-- Settles O50: what every byte reads as after a write, and the canonical lists by their first cells. -/
theorem bufferReadAfterWrite : Obligations.BufferReadAfterWrite := by
  unfold Obligations.BufferReadAfterWrite
  refine ⟨fun m i v hm hi => ⟨Memory.write_wf hm hi, ?_, fun j hj => ?_⟩, fun m n hm hn h => ?_⟩
  · rw [Memory.read_write hm, if_pos rfl]
  · rw [Memory.read_write hm, if_neg hj]
  · exact Memory.eq_of_read_eq hm hn fun i _ hi => h i (Nat.le_of_lt_succ hi)

end Sys2Proof.Machine
end

section
/-! PROOFS. The frame of each operation: what it may write, as one record update per operation
(40_crc.md section 2, 41_encoder.md section 1, 42_decoder.md sections 1 to 3). -/

namespace Sys2Proof.Machine

/-! ### The decoder's words -/

theorem exec_decSetv_frame {vk : BitVec 2} {vs : Byte} {s t : State}
    (h : exec (.decSetv vk vs) s = .next t) : ∃ (k : ValKind) (v : Byte) (r : Result),
      t = { s with dec := { s.dec with vkind := k, vsize := v }, result := r } := by
  simp only [exec] at h
  rcases execDecSetv_cases vk vs s with ⟨_, e⟩ | ⟨_, _, e⟩ | ⟨_, _, _, e⟩ <;> rw [e] at h <;>
    cases h <;> exact ⟨_, _, _, rfl⟩

theorem exec_decArm_frame {ea ec : Byte} {s t : State} (h : exec (.decArm ea ec) s = .next t) :
    ∃ (d : Dec) (r : Result), t = { s with
      dec := { d with vkind := s.dec.vkind, vsize := s.dec.vsize, buf := s.dec.buf,
                      rxClosed := s.dec.rxClosed }, result := r } := by
  simp only [exec] at h
  rcases execDecArm_cases ea ec s with ⟨_, e⟩ | ⟨_, _, e⟩ | ⟨_, _, e⟩ <;> rw [e] at h <;> cases h
  · exact ⟨s.dec, _, rfl⟩
  · exact ⟨(raiseDecError .transport (armDecoder ea ec s)).dec, _, rfl⟩
  · exact ⟨(armDecoder ea ec s).dec, _, rfl⟩

theorem exec_decCancel_frame {s t : State} (h : exec .decCancel s = .next t) :
    ∃ (m : DecMode) (e : DecErr),
      t = { s with dec := { s.dec with mode := m, err := e }, result := .ok } := by
  simp only [exec] at h
  rcases execDecCancel_cases s with ⟨_, e⟩ | ⟨_, e⟩ <;> rw [e] at h <;> cases h <;>
    exact ⟨_, _, rfl⟩

/-! ### The RX events -/

theorem exec_rxEos_frame {s t : State} (h : exec .rxEos s = .next t) :
    ∃ (m : DecMode) (e : DecErr),
      t = { s with dec := { s.dec with mode := m, err := e, rxClosed := true } } := by
  simp only [exec] at h
  rcases execRxEos_cases s with ⟨_, e⟩ | ⟨_, e⟩ <;> rw [e] at h <;> cases h <;> exact ⟨_, _, rfl⟩

/-- What RX_BYTE can do, when it goes on: the byte goes back, is dropped, is a header byte before the last
or the last one, or is a body byte with its counts in range. -/
theorem exec_rxByte_next {d : Byte} {s t : State} (h : exec (.rxByte d) s = .next t) :
    (rxReady s.dec = false ∧ t = linkHolds d s) ∨
    (s.dec.mode = .error ∧ t = s) ∨
    (s.dec.mode = .hdr ∧ s.dec.hcnt ≠ 3 ∧ s.dec.hcnt ≠ 2 ∧ t = recordHeader d s) ∨
    (s.dec.mode = .hdr ∧ s.dec.hcnt = 2 ∧ t = checkHeader (recordHeader d s)) ∨
    (s.dec.mode = .body ∧ 1 ≤ s.dec.rem.toNat ∧ s.dec.rem.toNat ≤ s.dec.plen.toNat + 2 ∧
      (2 < s.dec.rem.toNat → bodyIndex s.dec < 251) ∧ t = checkFrame (recordBody d s)) := by
  simp only [exec] at h
  rcases execRxByte_cases d s with ⟨hm, e⟩ | ⟨hm, e⟩ | ⟨hm, e⟩ | ⟨hm, e⟩ <;> rw [e] at h
  · cases h
    exact .inl ⟨hm, rfl⟩
  · cases h
    exact .inr (.inl ⟨hm, rfl⟩)
  · rcases rxHeader_next h with ⟨h3, h2, ht⟩ | ⟨h2, ht⟩
    · exact .inr (.inr (.inl ⟨hm, h3, h2, ht⟩))
    · exact .inr (.inr (.inr (.inl ⟨hm, h2, ht⟩)))
  · exact .inr (.inr (.inr (.inr ⟨hm, rxBody_next h⟩)))

/-- The header's checks write the mode, the code and the two lengths. -/
theorem checkHeader_dec (s : State) : ∃ (m : DecMode) (e : DecErr) (p r : Byte),
    checkHeader s = { s with dec := { s.dec with mode := m, err := e, plen := p, rem := r } } := by
  rcases checkHeader_cases s with
    ⟨_, h⟩ | ⟨_, _, h⟩ | ⟨_, _, _, h⟩ | ⟨_, _, _, _, h⟩ | ⟨_, _, _, _, h⟩ <;> exact ⟨_, _, _, _, h⟩

/-- The frame's check writes the mode and the code. -/
theorem checkFrame_dec (s : State) : ∃ (m : DecMode) (e : DecErr),
    checkFrame s = { s with dec := { s.dec with mode := m, err := e } } := by
  rcases checkFrame_cases s with ⟨_, h⟩ | ⟨_, _, h⟩ | ⟨_, _, h⟩ <;> exact ⟨_, _, h⟩

theorem exec_rxByte_frame {b : Byte} {s t : State} (h : exec (.rxByte b) s = .next t) :
    ∃ (d : Dec) (l : List Byte), t = { s with
      dec := { d with expAddr := s.dec.expAddr, expCmd := s.dec.expCmd, vkind := s.dec.vkind,
                      vsize := s.dec.vsize, rxClosed := s.dec.rxClosed }, link := l } := by
  rcases exec_rxByte_next h with ⟨_, rfl⟩ | ⟨_, rfl⟩ | ⟨_, _, _, rfl⟩ | ⟨_, _, rfl⟩ |
    ⟨_, _, _, _, rfl⟩
  · exact ⟨s.dec, _, rfl⟩
  · exact ⟨t.dec, _, rfl⟩
  · exact ⟨(recordHeader b s).dec, _, rfl⟩
  · obtain ⟨m, e, p, r, hx⟩ := checkHeader_dec (recordHeader b s)
    exact ⟨{ (recordHeader b s).dec with mode := m, err := e, plen := p, rem := r }, _, hx⟩
  · obtain ⟨m, e, hx⟩ := checkFrame_dec (recordBody b s)
    exact ⟨{ (recordBody b s).dec with mode := m, err := e }, _, hx⟩

theorem checkHeader_buf (s : State) : (checkHeader s).dec.buf = s.dec.buf := by
  obtain ⟨_, _, _, _, h⟩ := checkHeader_dec s
  rw [h]

theorem checkFrame_buf (s : State) : (checkFrame s).dec.buf = s.dec.buf := by
  obtain ⟨_, _, h⟩ := checkFrame_dec s
  rw [h]

/-- RX_BYTE stores a payload byte, inside the buffer, and no other one. -/
theorem exec_rxByte_buf {d : Byte} {s t : State} (h : exec (.rxByte d) s = .next t) :
    (s.dec.mode = .body ∧ 2 < s.dec.rem.toNat ∧ bodyIndex s.dec < 251 ∧
      t.dec.buf = s.dec.buf.write (bodyIndex s.dec) d) ∨
    (¬ (s.dec.mode = .body ∧ 2 < s.dec.rem.toNat) ∧ t.dec.buf = s.dec.buf) := by
  rcases exec_rxByte_next h with ⟨hm, rfl⟩ | ⟨hm, rfl⟩ | ⟨hm, _, _, rfl⟩ | ⟨hm, _, rfl⟩ |
    ⟨hm, _, _, hidx, rfl⟩
  · refine .inr ⟨fun hb => ?_, rfl⟩
    rw [(rxReady_iff s.dec).2 (.inr (.inl hb.1))] at hm
    cases hm
  · exact .inr ⟨by simp [hm], rfl⟩
  · exact .inr ⟨by simp [hm], rfl⟩
  · exact .inr ⟨by simp [hm], checkHeader_buf _⟩
  · rw [checkFrame_buf, recordBody_dec_buf]
    by_cases hrem : 2 < s.dec.rem.toNat
    · exact .inl ⟨hm, hrem, hidx hrem, if_pos hrem⟩
    · exact .inr ⟨fun hb => hrem hb.2, if_neg hrem⟩

/-! ### The statements -/

/-- Settles O47: the CRC words' updates, and the encoder words' frame. -/
theorem crcAndEncoderWordsFrame : Obligations.CrcAndEncoderWordsFrame := by
  unfold Obligations.CrcAndEncoderWordsFrame
  intro i s t hdec h
  cases i with
  | nop =>
    cases h
    exact ⟨rfl, fun _ => rfl, rfl, rfl, rfl, fun _ => rfl, fun _ => ⟨rfl, rfl⟩⟩
  | crcInit | crcByte =>
    cases h
    exact ⟨rfl, fun _ => rfl, rfl, rfl, rfl, nofun, fun _ => ⟨rfl, rfl⟩⟩
  | encStart | encByte =>
    obtain ⟨_, _, _, rfl⟩ := exec_isEnc_frame rfl h
    exact ⟨rfl, fun _ => rfl, rfl, rfl, rfl, fun _ => rfl, nofun⟩
  | decSetv | decArm | decCancel | rxByte | rxEos => cases hdec

/-- Settles O48, by the frames of the three words. -/
theorem decoderWordsFrame : Obligations.DecoderWordsFrame := by
  unfold Obligations.DecoderWordsFrame
  intro i s t hdec hrx h
  cases i with
  | decSetv =>
    obtain ⟨_, _, _, rfl⟩ := exec_decSetv_frame h
    exact ⟨rfl, rfl, rfl, rfl, rfl, rfl, rfl, fun _ => rfl, fun _ _ _ => rfl, nofun, nofun⟩
  | decArm =>
    obtain ⟨_, _, rfl⟩ := exec_decArm_frame h
    exact ⟨rfl, rfl, rfl, rfl, rfl, rfl, rfl, fun _ => rfl, nofun, fun _ _ _ => ⟨rfl, rfl⟩, nofun⟩
  | decCancel =>
    obtain ⟨_, _, rfl⟩ := exec_decCancel_frame h
    exact ⟨rfl, rfl, rfl, rfl, rfl, rfl, rfl, fun _ => rfl, nofun, nofun, fun _ => rfl⟩
  | rxByte | rxEos => cases hrx
  | nop | crcInit | crcByte | encStart | encByte => cases hdec

/-- Settles O49: the frames of the two events, and the buffer by the one byte RX_BYTE may store. -/
theorem rxEventsFrame : Obligations.RxEventsFrame := by
  unfold Obligations.RxEventsFrame
  intro i s t hrx hwf h
  cases i with
  | rxEos =>
    obtain ⟨_, _, rfl⟩ := exec_rxEos_frame h
    exact ⟨rfl, rfl, rfl, rfl, rfl, rfl, rfl, rfl, rfl, rfl, fun _ => ⟨rfl, rfl⟩, nofun⟩
  | rxByte d =>
    have hbuf := exec_rxByte_buf h
    obtain ⟨_, _, rfl⟩ := exec_rxByte_frame h
    refine ⟨rfl, rfl, rfl, rfl, rfl, rfl, rfl, rfl, rfl, rfl, nofun, ?_⟩
    rintro _ ⟨⟩
    refine ⟨rfl, ?_⟩
    rcases hbuf with ⟨hm, hrem, _, hstore⟩ | ⟨hno, hkeep⟩
    · refine ⟨fun _ => ⟨?_, fun j hj => ?_⟩, fun hno => absurd ⟨hm, hrem⟩ hno⟩
      · rw [hstore, Memory.read_write hwf, if_pos rfl]
      · rw [hstore, Memory.read_write hwf, if_neg hj]
    · exact ⟨fun hb => absurd hb hno, fun _ j => by rw [hkeep]⟩
  | nop | crcInit | crcByte | encStart | encByte | decSetv | decArm | decCancel => cases hrx

end Sys2Proof.Machine
end

section
/-! PROOFS. From operations to events (10_state.md R24 to R27): which operation an event runs, which fields
an operation writes, and so which events write a field. -/

namespace Sys2Proof.Machine

/-! ### The operation an event runs -/

/-- The event runs the operation: a command word its own, an offer RX_BYTE, the end of stream RX_EOS. -/
def Event.Runs (e : Event) (i : Instr) : Prop :=
  e.cmdInstr = some i ∨ (e = .rxOffer ∧ ∃ d, i = .rxByte d) ∨ (e = .rxEos ∧ i = .rxEos)

/-- An event but reset runs its operation, an offer with the byte off the link, or leaves the sub-blocks
and TX alone. -/
theorem takeEvent_runs {e : Event} {s t : State} (hrst : e ≠ .rst) (h : takeEvent e s = .next t) :
    (∃ (i : Instr) (l : List Byte), e.Runs i ∧ exec i { s with link := l } = .next t) ∨
    (t.crcAcc = s.crcAcc ∧ t.enc = s.enc ∧ t.dec = s.dec ∧ t.tx = s.tx) := by
  rcases takeEvent_next h with ⟨w, i, rfl, hw, h⟩ | ⟨w, r, _, _, rfl⟩ | ⟨ri, _, rfl⟩ |
    ⟨_, _, rfl⟩ | ⟨d, l, rfl, _, h⟩ | ⟨rfl, h⟩ | ⟨rfl, _⟩ | ⟨l, _, rfl⟩
  · exact .inl ⟨i, s.link, .inl (congrArg Decoded.instr? hw), h⟩
  · exact .inr ⟨rfl, rfl, rfl, rfl⟩
  · exact .inr ⟨rfl, rfl, rfl, rfl⟩
  · exact .inr ⟨rfl, rfl, rfl, rfl⟩
  · exact .inl ⟨_, l, .inr (.inl ⟨rfl, d, rfl⟩), h⟩
  · exact .inl ⟨_, s.link, .inr (.inr ⟨rfl, rfl⟩), h⟩
  · exact absurd rfl hrst
  · exact .inr ⟨rfl, rfl, rfl, rfl⟩

/-- Only a command word runs an operation that is no RX event. -/
theorem Event.Runs.cmdInstr {e : Event} {i : Instr} (h : e.Runs i) (hrx : i.isRx = false) :
    e.cmdInstr = some i := by
  rcases h with h | ⟨_, d, rfl⟩ | ⟨_, rfl⟩
  · exact h
  · cases hrx
  · cases hrx

theorem Event.isRx_of_cmdInstr {e : Event} {i : Instr} (h : e.cmdInstr = some i) :
    i.isRx = false := by
  cases e with
  | cmd w =>
    cases hw : decodeCmd w with
    | instr j =>
      obtain rfl : j = i := by simpa [Event.cmdInstr, hw, Decoded.instr?] using h
      exact isRx_of_decodeCmd hw
    | reject r => simp [Event.cmdInstr, hw, Decoded.instr?] at h
  | rd | rxOffer | rxEos | rst | reopen => cases h

/-- Only an offer runs RX_BYTE. -/
theorem Event.Runs.eq_rxOffer {e : Event} {d : Byte} (h : e.Runs (.rxByte d)) : e = .rxOffer := by
  rcases h with h | ⟨he, _⟩ | ⟨_, hi⟩
  · cases Event.isRx_of_cmdInstr h
  · exact he
  · cases hi

theorem Event.Runs.eq_rxEos {e : Event} (h : e.Runs .rxEos) : e = .rxEos := by
  rcases h with h | ⟨_, _, hi⟩ | ⟨he, _⟩
  · cases Event.isRx_of_cmdInstr h
  · cases hi
  · exact he

/-- The kinds of an event are its operation's. -/
theorem Event.Runs.kinds {e : Event} {i : Instr} (h : e.Runs i) :
    e.isCrcWord = i.isCrc ∧ e.isEncWord = i.isEnc ∧ e.isDecEvent = i.isDec := by
  rcases h with h | ⟨rfl, d, rfl⟩ | ⟨rfl, rfl⟩
  · cases e with
    | cmd w =>
      have hw : (decodeCmd w).instr? = some i := h
      simp [Event.isCrcWord, Event.isEncWord, Event.isDecEvent, Event.cmdInstr, hw]
    | rd | rxOffer | rxEos | rst | reopen => cases h
  · exact ⟨rfl, rfl, rfl⟩
  · exact ⟨rfl, rfl, rfl⟩

/-! ### The fields an operation writes -/

/-- The encoder's header fields are written by ENC_START only. -/
theorem sendPayload_header (d : Byte) (s : State) :
    (sendPayload d s).enc.addr = s.enc.addr ∧ (sendPayload d s).enc.cmd = s.enc.cmd ∧
    (sendPayload d s).enc.len = s.enc.len := by
  unfold sendPayload
  rcases closeFrame_cases (emit [d]
    { s with enc := { s.enc with crc := crcByte s.enc.crc d, rem := s.enc.rem - 1 } })
    with ⟨_, h⟩ | ⟨_, h⟩ <;> rw [h] <;> exact ⟨rfl, rfl, rfl⟩

theorem exec_encByte_header {d : Byte} {s t : State} (h : exec (.encByte d) s = .next t) :
    t.enc.addr = s.enc.addr ∧ t.enc.cmd = s.enc.cmd ∧ t.enc.len = s.enc.len := by
  simp only [exec] at h
  rcases execEncByte_cases d s with ⟨_, e⟩ | ⟨_, _, e⟩ | ⟨_, _, e⟩ <;> rw [e] at h <;> cases h
  · exact ⟨rfl, rfl, rfl⟩
  · exact sendPayload_header d s

theorem exec_crcAcc {i : Instr} {s t : State} (hi : i.isCrc = false) (h : exec i s = .next t) :
    t.crcAcc = s.crcAcc := by
  cases hdec : i.isDec with
  | true =>
    obtain ⟨_, _, _, rfl⟩ := exec_isDec_frame hdec h
    rfl
  | false =>
    obtain ⟨_, _, _, _, _, hcrc, _⟩ := crcAndEncoderWordsFrame i s t hdec h
    exact hcrc hi

theorem exec_enc {i : Instr} {s t : State} (hi : i.isEnc = false) (h : exec i s = .next t) :
    t.enc = s.enc := by
  cases hdec : i.isDec with
  | true =>
    obtain ⟨_, _, _, rfl⟩ := exec_isDec_frame hdec h
    rfl
  | false =>
    obtain ⟨_, _, _, _, _, _, henc⟩ := crcAndEncoderWordsFrame i s t hdec h
    exact (henc hi).1

theorem exec_dec {i : Instr} {s t : State} (hi : i.isDec = false) (h : exec i s = .next t) :
    t.dec = s.dec :=
  (crcAndEncoderWordsFrame i s t hi h).1

/-- The written-by columns of the encoder's and the decoder's rows, for operations. -/
theorem exec_fields {i : Instr} {s t : State} (h : exec i s = .next t) :
    ((∀ a c n, i ≠ .encStart a c n) →
      t.enc.addr = s.enc.addr ∧ t.enc.cmd = s.enc.cmd ∧ t.enc.len = s.enc.len) ∧
    ((∀ ea ec, i ≠ .decArm ea ec) →
      t.dec.expAddr = s.dec.expAddr ∧ t.dec.expCmd = s.dec.expCmd) ∧
    ((∀ ea ec, i ≠ .decArm ea ec) → (∀ d, i ≠ .rxByte d) →
      t.dec.hcnt = s.dec.hcnt ∧ t.dec.obsLen = s.dec.obsLen ∧ t.dec.obsAddr = s.dec.obsAddr ∧
      t.dec.obsCmd = s.dec.obsCmd ∧ t.dec.plen = s.dec.plen ∧ t.dec.rem = s.dec.rem ∧
      t.dec.crc = s.dec.crc ∧ t.dec.rxcrc = s.dec.rxcrc) ∧
    ((∀ ea ec, i ≠ .decArm ea ec) → i ≠ .decCancel → (∀ d, i ≠ .rxByte d) → i ≠ .rxEos →
      t.dec.mode = s.dec.mode ∧ t.dec.err = s.dec.err) ∧
    ((∀ d, i ≠ .rxByte d) → t.dec.buf = s.dec.buf) ∧
    (i ≠ .rxEos → t.dec.rxClosed = s.dec.rxClosed) := by
  cases i with
  | nop | crcInit | crcByte =>
    cases h
    simp
  | encStart =>
    obtain ⟨_, _, _, rfl⟩ := exec_isEnc_frame rfl h
    simp
  | encByte =>
    obtain ⟨haddr, hcmd, hlen⟩ := exec_encByte_header h
    obtain ⟨_, _, _, rfl⟩ := exec_isEnc_frame rfl h
    exact ⟨fun _ => ⟨haddr, hcmd, hlen⟩, by simp⟩
  | decSetv =>
    obtain ⟨_, _, _, rfl⟩ := exec_decSetv_frame h
    simp
  | decArm =>
    obtain ⟨_, _, rfl⟩ := exec_decArm_frame h
    simp
  | decCancel =>
    obtain ⟨_, _, rfl⟩ := exec_decCancel_frame h
    simp
  | rxByte =>
    obtain ⟨_, _, rfl⟩ := exec_rxByte_frame h
    simp
  | rxEos =>
    obtain ⟨_, _, rfl⟩ := exec_rxEos_frame h
    simp

/-- Settles O52: an event writes what its operation writes. -/
theorem fieldsWrittenOnlyByTheirEvents : Obligations.FieldsWrittenOnlyByTheirEvents := by
  unfold Obligations.FieldsWrittenOnlyByTheirEvents
  intro s t e es h hrst
  have hval := takeEvent_validator (s := { s with events := es }) h hrst
  rcases takeEvent_runs (s := { s with events := es }) hrst h with
    ⟨i, l, hi, hx⟩ | ⟨hcrc, henc, hdec, _⟩
  · obtain ⟨hcrcWord, hencWord, hdecEvent⟩ := hi.kinds
    obtain ⟨hheader, hexp, hreceived, hmode, hbuf, hclosed⟩ := exec_fields hx
    have harm (hne : ∀ ea ec, e.cmdInstr ≠ some (.decArm ea ec)) : ∀ ea ec, i ≠ .decArm ea ec := by
      rintro ea ec rfl
      exact hne ea ec (hi.cmdInstr rfl)
    have hstart (hne : ∀ a c n, e.cmdInstr ≠ some (.encStart a c n)) :
        ∀ a c n, i ≠ .encStart a c n := by
      rintro a c n rfl
      exact hne a c n (hi.cmdInstr rfl)
    have hcancel (hne : e.cmdInstr ≠ some .decCancel) : i ≠ .decCancel := by
      rintro rfl
      exact hne (hi.cmdInstr rfl)
    have hbyte (hne : e ≠ .rxOffer) : ∀ d, i ≠ .rxByte d := by
      rintro d rfl
      exact hne hi.eq_rxOffer
    have heos (hne : e ≠ .rxEos) : i ≠ .rxEos := by
      rintro rfl
      exact hne hi.eq_rxEos
    rw [hcrcWord, hencWord, hdecEvent]
    exact ⟨fun hne => (exec_crcAcc hne hx).trans rfl, fun hne => (exec_enc hne hx).trans rfl,
      fun hne => (exec_dec hne hx).trans rfl, fun hne => hheader (hstart hne),
      fun hne => hexp (harm hne), fun hne hne' => hreceived (harm hne) (hbyte hne'), hval,
      fun hne h1 h2 h3 => hmode (harm hne) (hcancel h1) (hbyte h2) (heos h3),
      fun hne => hbuf (hbyte hne), fun hne => hclosed (heos hne)⟩
  · simp [hcrc, henc, hdec]

/-! ### What surrounds the block -/

theorem exec_rdLog {i : Instr} {s t : State} (h : exec i s = .next t) : t.rdLog = s.rdLog := by
  cases hdec : i.isDec with
  | true =>
    obtain ⟨_, _, _, rfl⟩ := exec_isDec_frame hdec h
    rfl
  | false =>
    obtain ⟨_, _, hlog, _⟩ := crcAndEncoderWordsFrame i s t hdec h
    exact hlog

/-- The link's bytes change by RX_BYTE only. -/
theorem exec_link {i : Instr} {s t : State} (hi : ∀ d, i ≠ .rxByte d) (h : exec i s = .next t) :
    t.link = s.link := by
  cases i with
  | nop | crcInit | crcByte =>
    cases h
    rfl
  | encStart | encByte =>
    obtain ⟨_, _, _, rfl⟩ := exec_isEnc_frame rfl h
    rfl
  | decSetv =>
    obtain ⟨_, _, _, rfl⟩ := exec_decSetv_frame h
    rfl
  | decArm =>
    obtain ⟨_, _, rfl⟩ := exec_decArm_frame h
    rfl
  | decCancel =>
    obtain ⟨_, _, rfl⟩ := exec_decCancel_frame h
    rfl
  | rxByte d => exact absurd rfl (hi d)
  | rxEos =>
    obtain ⟨_, _, rfl⟩ := exec_rxEos_frame h
    rfl

theorem takeEvent_rdLog {e : Event} {s t : State} (he : ∀ ri, e ≠ .rd ri)
    (h : takeEvent e s = .next t) : t.rdLog = s.rdLog := by
  rcases takeEvent_next h with ⟨w, i, _, _, h⟩ | ⟨w, r, _, _, rfl⟩ | ⟨ri, rfl, _⟩ |
    ⟨_, _, rfl⟩ | ⟨d, l, _, _, h⟩ | ⟨_, h⟩ | ⟨_, rfl⟩ | ⟨l, _, rfl⟩
  · exact exec_rdLog h
  · rfl
  · exact absurd rfl (he ri)
  · rfl
  · exact exec_rdLog (s := { s with link := l }) h
  · exact exec_rdLog h
  · rfl
  · rfl

theorem takeEvent_link {e : Event} {s t : State} (hoffer : e ≠ .rxOffer) (hopen : ∀ l, e ≠ .reopen l)
    (h : takeEvent e s = .next t) : t.link = s.link := by
  rcases takeEvent_next h with ⟨w, i, _, hw, h⟩ | ⟨w, r, _, _, rfl⟩ | ⟨ri, _, rfl⟩ |
    ⟨_, _, rfl⟩ | ⟨d, l, rfl, _, _⟩ | ⟨_, h⟩ | ⟨_, rfl⟩ | ⟨l, rfl, _⟩
  · refine exec_link ?_ h
    rintro d rfl
    cases isRx_of_decodeCmd hw
  · rfl
  · rfl
  · rfl
  · exact absurd rfl hoffer
  · exact exec_link (by simp) h
  · rfl
  · exact absurd rfl (hopen l)

/-- Settles O25, field by field. -/
theorem surroundingFieldsFrame : Obligations.SurroundingFieldsFrame := by
  unfold Obligations.SurroundingFieldsFrame
  intro s t e es h
  rw [step_cons] at h
  refine ⟨takeEvent_events h, fun he => (takeEvent_rdLog he h).trans rfl,
    fun hoffer hopen => (takeEvent_link hoffer hopen h).trans rfl, ?_,
    fun he => (takeEvent_tx_of_not_isEncWord he h).trans rfl⟩
  rintro l rfl
  cases h
  rfl

end Sys2Proof.Machine
end

section
/-! PROOFS. What the decoder becomes by each of its operations but RX_BYTE, as a function of what it was
(42_decoder.md R141, R143, R144, R151). -/

namespace Sys2Proof.Machine

theorem exec_decSetv_dec {vk : BitVec 2} {vs : Byte} {s t : State}
    (h : exec (.decSetv vk vs) s = .next t) :
    t.dec = if readPending s.dec then s.dec
      else (ValKind.ofBits vk).elim s.dec fun k => { s.dec with vkind := k, vsize := vs } := by
  simp only [exec] at h
  rcases execDecSetv_cases vk vs s with ⟨hk, e⟩ | ⟨_, hp, e⟩ | ⟨hp, k, hk, e⟩ <;>
    cases e.symm.trans h
  · rw [hk]
    exact (ite_self _).symm
  · rw [if_pos hp]
    rfl
  · rw [if_neg (by simp [hp]), hk]
    rfl

/-- The decoder DEC_ARM leaves: waiting for a header, or in ERROR when the stream has ended. -/
def Dec.armed (ea ec : Byte) (d : Dec) : Dec :=
  { mode := if d.rxClosed then .error else .hdr, err := if d.rxClosed then .transport else .noError,
    hcnt := 0, expAddr := ea, expCmd := ec, vkind := d.vkind, vsize := d.vsize, obsLen := 0,
    obsAddr := 0, obsCmd := 0, plen := 0, rem := 0, crc := 0xFFFF, rxcrc := 0x0000, buf := d.buf,
    rxClosed := d.rxClosed }

theorem exec_decArm_dec {ea ec : Byte} {s t : State} (h : exec (.decArm ea ec) s = .next t) :
    t.dec = if rxReady s.dec then s.dec else s.dec.armed ea ec := by
  cases hr : rxReady s.dec with
  | true =>
    cases (exec_decArm_of_ready hr ea ec).symm.trans h
    rfl
  | false =>
    cases (exec_decArm_of_not_ready hr ea ec).symm.trans h
    rfl

/-- The decoder after an error is raised in a read. -/
def Dec.failed (e : DecErr) (d : Dec) : Dec := { d with mode := .error, err := e }

theorem exec_decCancel_dec {s t : State} (h : exec .decCancel s = .next t) :
    t.dec = if readPending s.dec then s.dec.failed .cancelled else s.dec := by
  cases hp : readPending s.dec with
  | true =>
    cases (exec_decCancel_of_pending hp).symm.trans h
    rfl
  | false =>
    cases (exec_decCancel_of_not_pending hp).symm.trans h
    rfl

theorem exec_rxEos_dec {s t : State} (h : exec .rxEos s = .next t) :
    t.dec = { (if readPending s.dec then s.dec.failed .transport else s.dec) with
      rxClosed := true } := by
  cases hp : readPending s.dec with
  | true =>
    cases (exec_rxEos_of_pending hp).symm.trans h
    rfl
  | false =>
    cases (exec_rxEos_of_not_pending hp).symm.trans h
    rfl

end Sys2Proof.Machine
end

section
/-! PROOFS. The three sub-blocks share no state (60_exceptions.md R193): an operation in two states that
agree on a sub-block leaves them in agreement on it. -/

namespace Sys2Proof.Machine

/-! ### The CRC generator -/

theorem exec_crcAcc_congr {i : Instr} {s s' t t' : State} (hs : exec i s = .next s')
    (ht : exec i t = .next t') (h : s.crcAcc = t.crcAcc) : s'.crcAcc = t'.crcAcc := by
  cases hi : i.isCrc with
  | false => rw [exec_crcAcc hi hs, exec_crcAcc hi ht, h]
  | true =>
    cases i with
    | crcInit =>
      cases hs
      cases ht
      rfl
    | crcByte d =>
      cases hs
      cases ht
      exact congrArg (crcByte · d) h
    | nop | encStart | encByte | decSetv | decArm | decCancel | rxByte | rxEos => cases hi

/-! ### The encoder -/

/-- From `s` to `s'` and from `t` to `t'` the same bytes are emitted, and the encoders end alike. -/
def sameEmission (s s' t t' : State) : Prop :=
  s'.enc = t'.enc ∧ ∃ bs : List Byte, s'.tx = s.tx ++ bs ∧ t'.tx = t.tx ++ bs

theorem sameEmission_of_quiet {s s' t t' : State} (henc : s'.enc = t'.enc) (hs : s'.tx = s.tx)
    (ht : t'.tx = t.tx) : sameEmission s s' t t' :=
  ⟨henc, [], by rw [hs, List.append_nil], by rw [ht, List.append_nil]⟩

theorem sameEmission_trans {s s' s'' t t' t'' : State} (h : sameEmission s s' t t')
    (h' : sameEmission s' s'' t' t'') : sameEmission s s'' t t'' := by
  obtain ⟨_, bs, hs, ht⟩ := h
  obtain ⟨henc, cs, hs', ht'⟩ := h'
  exact ⟨henc, bs ++ cs, by rw [hs', hs, List.append_assoc], by rw [ht', ht, List.append_assoc]⟩

theorem closeFrame_congr {s t : State} (h : s.enc = t.enc) :
    sameEmission s (closeFrame s) t (closeFrame t) := by
  by_cases hr : s.enc.rem = 0
  · rw [closeFrame_of_zero hr, closeFrame_of_zero (h ▸ hr), ← h]
    exact ⟨rfl, _, rfl, rfl⟩
  · rw [closeFrame_of_ne_zero hr, closeFrame_of_ne_zero (h ▸ hr), ← h]
    exact sameEmission_of_quiet rfl rfl rfl

theorem openFrame_congr {s t : State} (h : s.enc = t.enc) (a c n : Byte) :
    sameEmission s (openFrame a c n s) t (openFrame a c n t) := by
  unfold openFrame
  rw [h]
  refine sameEmission_trans ?_ (closeFrame_congr ?_)
  · exact ⟨rfl, _, rfl, rfl⟩
  · rfl

theorem sendPayload_congr {s t : State} (h : s.enc = t.enc) (d : Byte) :
    sameEmission s (sendPayload d s) t (sendPayload d t) := by
  unfold sendPayload
  rw [h]
  refine sameEmission_trans ?_ (closeFrame_congr ?_)
  · exact ⟨rfl, _, rfl, rfl⟩
  · rfl

theorem exec_enc_congr {i : Instr} {s s' t t' : State} (hs : exec i s = .next s')
    (ht : exec i t = .next t') (h : s.enc = t.enc) : sameEmission s s' t t' := by
  cases i with
  | encStart a c n =>
    rcases execEncStart_cases a c n s with ⟨hm, e⟩ | ⟨hm, hn, e⟩ | ⟨hm, hn, e⟩ <;>
      cases e.symm.trans hs <;> rw [h] at hm
    · cases (exec_encStart_of_body hm a c n).symm.trans ht
      exact sameEmission_of_quiet h rfl rfl
    · cases (exec_encStart_of_gt hm hn a c).symm.trans ht
      exact sameEmission_of_quiet h rfl rfl
    · cases (exec_encStart_of_le hm hn a c).symm.trans ht
      exact openFrame_congr h a c n
  | encByte d =>
    rcases execEncByte_cases d s with ⟨hm, e⟩ | ⟨_, _, e⟩ | ⟨hm, hr, e⟩ <;>
      cases e.symm.trans hs <;> rw [h] at hm
    · cases (exec_encByte_of_idle hm d).symm.trans ht
      exact sameEmission_of_quiet h rfl rfl
    · rw [h] at hr
      cases (exec_encByte_of_body hm hr d).symm.trans ht
      exact sendPayload_congr h d
  | nop | crcInit | crcByte | decSetv | decArm | decCancel | rxByte | rxEos =>
    refine sameEmission_of_quiet ?_ (exec_tx_of_not_isEnc rfl hs) (exec_tx_of_not_isEnc rfl ht)
    rw [exec_enc rfl hs, exec_enc rfl ht, h]

/-! ### The decoder, with the bytes at the link -/

theorem checkHeader_congr {s t : State} (h : s.dec = t.dec) :
    (checkHeader s).dec = (checkHeader t).dec := by
  unfold checkHeader raiseDecError
  rw [h]
  split_ifs <;> rfl

theorem checkFrame_congr {s t : State} (h : s.dec = t.dec) :
    (checkFrame s).dec = (checkFrame t).dec := by
  unfold checkFrame raiseDecError
  rw [h]
  split_ifs
  · rfl
  · rfl
  · exact h

theorem recordHeader_congr {s t : State} (h : s.dec = t.dec) (d : Byte) :
    (recordHeader d s).dec = (recordHeader d t).dec := by
  unfold recordHeader
  rw [h]

theorem recordBody_congr {s t : State} (h : s.dec = t.dec) (d : Byte) :
    (recordBody d s).dec = (recordBody d t).dec := by
  unfold recordBody
  rw [h]

theorem checkHeader_link (s : State) : (checkHeader s).link = s.link := by
  obtain ⟨_, h⟩ := checkHeader_frame s
  rw [h]

theorem checkFrame_link (s : State) : (checkFrame s).link = s.link := by
  obtain ⟨_, h⟩ := checkFrame_frame s
  rw [h]

theorem exec_rxByte_congr {d : Byte} {s s' t t' : State} (hs : exec (.rxByte d) s = .next s')
    (ht : exec (.rxByte d) t = .next t') (h : s.dec = t.dec) (hl : s.link = t.link) :
    s'.dec = t'.dec ∧ s'.link = t'.link := by
  rcases exec_rxByte_next hs with ⟨hm, rfl⟩ | ⟨hm, rfl⟩ | ⟨hm, h3, h2, rfl⟩ | ⟨hm, h2, rfl⟩ |
    ⟨hm, h1, hle, hidx, rfl⟩ <;> rw [h] at hm
  · cases (exec_rxByte_of_not_ready hm d).symm.trans ht
    exact ⟨h, congrArg (d :: ·) hl⟩
  · cases (exec_rxByte_of_error hm d).symm.trans ht
    exact ⟨h, hl⟩
  · rw [exec_rxByte_of_hdr hm] at ht
    rcases rxHeader_next ht with ⟨_, _, rfl⟩ | ⟨h2', _⟩
    · exact ⟨recordHeader_congr h d, hl⟩
    · exact absurd (h ▸ h2') h2
  · rw [exec_rxByte_of_hdr hm] at ht
    rcases rxHeader_next ht with ⟨_, h2', _⟩ | ⟨_, rfl⟩
    · exact absurd (h ▸ h2) h2'
    · rw [checkHeader_link, checkHeader_link]
      exact ⟨checkHeader_congr (recordHeader_congr h d), hl⟩
  · rw [h] at h1 hle hidx
    cases (exec_rxByte_of_body hm h1 hle hidx d).symm.trans ht
    rw [checkFrame_link, checkFrame_link]
    exact ⟨checkFrame_congr (recordBody_congr h d), hl⟩

/-- The other operations reach the decoder only, not the link. -/
theorem exec_dec_congr_of_not_rxByte {i : Instr} {s s' t t' : State} (hi : ∀ d, i ≠ .rxByte d)
    (hs : exec i s = .next s') (ht : exec i t = .next t') (h : s.dec = t.dec) : s'.dec = t'.dec := by
  cases i with
  | nop | crcInit | crcByte | encStart | encByte => rw [exec_dec rfl hs, exec_dec rfl ht, h]
  | decSetv => rw [exec_decSetv_dec hs, exec_decSetv_dec ht, h]
  | decArm => rw [exec_decArm_dec hs, exec_decArm_dec ht, h]
  | decCancel => rw [exec_decCancel_dec hs, exec_decCancel_dec ht, h]
  | rxByte d => exact absurd rfl (hi d)
  | rxEos => rw [exec_rxEos_dec hs, exec_rxEos_dec ht, h]

theorem exec_dec_congr {i : Instr} {s s' t t' : State} (hs : exec i s = .next s')
    (ht : exec i t = .next t') (h : s.dec = t.dec) (hl : s.link = t.link) :
    s'.dec = t'.dec ∧ s'.link = t'.link := by
  by_cases hi : ∃ d, i = .rxByte d
  · obtain ⟨d, rfl⟩ := hi
    exact exec_rxByte_congr hs ht h hl
  · have hi' := not_exists.1 hi
    exact ⟨exec_dec_congr_of_not_rxByte hi' hs ht h,
      (exec_link hi' hs).trans (hl.trans (exec_link hi' ht).symm)⟩

/-! ### Events -/

/-- A command word that carries out no operation is illegal. -/
theorem takeCmd_of_no_cmdInstr {w : Word} (h : (Event.cmd w).cmdInstr = none) (s : State) :
    takeCmd w s = .next (illegalWord s) := by
  have hw : (decodeCmd w).instr? = none := h
  unfold takeCmd
  cases hd : decodeCmd w with
  | instr i =>
    rw [hd] at hw
    cases hw
  | reject r => rfl

/-- An event that carries out no command's operation, and is not reset, leaves the CRC generator, the
encoder and TX alone. -/
theorem takeEvent_quiet {e : Event} {s t : State} (hrst : e ≠ .rst) (he : e.cmdInstr = none)
    (h : takeEvent e s = .next t) : t.crcAcc = s.crcAcc ∧ t.enc = s.enc ∧ t.tx = s.tx := by
  rcases takeEvent_runs hrst h with ⟨i, l, hi, hx⟩ | ⟨hcrc, henc, _, htx⟩
  · rcases hi with hi | ⟨_, d, rfl⟩ | ⟨_, rfl⟩
    · rw [he] at hi
      cases hi
    · exact ⟨(exec_crcAcc rfl hx).trans rfl, (exec_enc rfl hx).trans rfl,
        (exec_tx_of_not_isEnc rfl hx).trans rfl⟩
    · exact ⟨(exec_crcAcc rfl hx).trans rfl, (exec_enc rfl hx).trans rfl,
        (exec_tx_of_not_isEnc rfl hx).trans rfl⟩
  · exact ⟨hcrc, henc, htx⟩

theorem takeEvent_crcAcc_congr {e : Event} {s s' t t' : State} (hs : takeEvent e s = .next s')
    (ht : takeEvent e t = .next t') (h : s.crcAcc = t.crcAcc) : s'.crcAcc = t'.crcAcc := by
  by_cases hrst : e = .rst
  · subst hrst
    cases hs
    cases ht
    rfl
  cases he : e.cmdInstr with
  | some i =>
    rw [takeEvent_of_cmdInstr he] at hs ht
    exact exec_crcAcc_congr hs ht h
  | none => rw [(takeEvent_quiet hrst he hs).1, (takeEvent_quiet hrst he ht).1, h]

theorem takeEvent_enc_congr {e : Event} {s s' t t' : State} (hs : takeEvent e s = .next s')
    (ht : takeEvent e t = .next t') (h : s.enc = t.enc) : sameEmission s s' t t' := by
  by_cases hrst : e = .rst
  · subst hrst
    cases hs
    cases ht
    exact sameEmission_of_quiet rfl rfl rfl
  cases he : e.cmdInstr with
  | some i =>
    rw [takeEvent_of_cmdInstr he] at hs ht
    exact exec_enc_congr hs ht h
  | none =>
    obtain ⟨_, henc, htx⟩ := takeEvent_quiet hrst he hs
    obtain ⟨_, henc', htx'⟩ := takeEvent_quiet hrst he ht
    exact sameEmission_of_quiet (by rw [henc, henc', h]) htx htx'

/-- An offer gives both decoders the same byte, since the links hold the same bytes. -/
theorem takeRxOffer_dec_congr {s s' t t' : State} (hs : takeRxOffer s = .next s')
    (ht : takeRxOffer t = .next t') (h : s.dec = t.dec) (hl : s.link = t.link) :
    s'.dec = t'.dec ∧ s'.link = t'.link := by
  unfold takeRxOffer at hs ht
  rw [← hl] at ht
  cases hlink : s.link with
  | nil =>
    rw [hlink] at hs ht
    cases hs
    cases ht
    exact ⟨h, hl⟩
  | cons d l =>
    rw [hlink] at hs ht
    exact exec_dec_congr (s := { s with link := l }) (t := { t with link := l }) hs ht h rfl

theorem takeEvent_dec_congr {e : Event} {s s' t t' : State} (hs : takeEvent e s = .next s')
    (ht : takeEvent e t = .next t') (h : s.dec = t.dec) (hl : s.link = t.link) :
    s'.dec = t'.dec ∧ s'.link = t'.link := by
  cases he : e.cmdInstr with
  | some i =>
    rw [takeEvent_of_cmdInstr he] at hs ht
    exact exec_dec_congr hs ht h hl
  | none =>
    cases e with
    | cmd w =>
      cases (takeCmd_of_no_cmdInstr he s).symm.trans hs
      cases (takeCmd_of_no_cmdInstr he t).symm.trans ht
      exact ⟨h, hl⟩
    | rd =>
      cases hs
      cases ht
      exact ⟨h, hl⟩
    | rxOffer => exact takeRxOffer_dec_congr hs ht h hl
    | rxEos => exact exec_dec_congr (i := .rxEos) hs ht h hl
    | rst =>
      cases hs
      cases ht
      exact ⟨rfl, hl⟩
    | reopen =>
      cases hs
      cases ht
      exact ⟨h, rfl⟩

/-- Settles O51, sub-block by sub-block. -/
theorem subBlocksShareNoState : Obligations.SubBlocksShareNoState := by
  unfold Obligations.SubBlocksShareNoState
  intro s s' t t' e es fs hs ht
  rw [step_cons] at hs ht
  have hcrc := takeEvent_crcAcc_congr hs ht
  have henc := takeEvent_enc_congr hs ht
  have hdec := takeEvent_dec_congr hs ht
  exact ⟨hcrc, henc, hdec⟩

end Sys2Proof.Machine
end

section
/-! PROOFS. The moves between the decoder's modes (10_state.md R26), and the states in which an operation
stops (log entry 5). -/

namespace Sys2Proof.Machine

/-! ### Modes -/

/-- `rx_ready` is 0 in IDLE and DONE only (R150). -/
theorem mode_of_not_ready {d : Dec} (h : rxReady d = false) : d.mode = .idle ∨ d.mode = .done := by
  cases hm : d.mode <;> simp [rxReady, hm] at h ⊢

/-- The header's checks end in BODY, or in ERROR with one of the four codes of R147. -/
theorem checkHeader_mode (s : State) :
    (checkHeader s).dec.mode = .body ∨ ((checkHeader s).dec.mode = .error ∧
      ((checkHeader s).dec.err = .addr ∨ (checkHeader s).dec.err = .cmd ∨
        (checkHeader s).dec.err = .len ∨ (checkHeader s).dec.err = .size)) := by
  rcases checkHeader_cases s with
    ⟨_, h⟩ | ⟨_, _, h⟩ | ⟨_, _, _, h⟩ | ⟨_, _, _, _, h⟩ | ⟨_, _, _, _, h⟩ <;> rw [h] <;> simp

/-- The frame's check leaves the mode, or ends in DONE, or in ERROR with CHECKSUM. -/
theorem checkFrame_mode (s : State) :
    (checkFrame s).dec.mode = s.dec.mode ∨ (checkFrame s).dec.mode = .done ∨
      ((checkFrame s).dec.mode = .error ∧ (checkFrame s).dec.err = .checksum) := by
  rcases checkFrame_cases s with ⟨_, h⟩ | ⟨_, _, h⟩ | ⟨_, _, h⟩ <;> rw [h] <;> simp

/-- The moves an RX byte makes. -/
theorem exec_rxByte_mode {d : Byte} {s t : State} (h : exec (.rxByte d) s = .next t)
    (hm : t.dec.mode ≠ s.dec.mode) :
    (s.dec.mode = .hdr ∧ (t.dec.mode = .body ∨ (t.dec.mode = .error ∧
      (t.dec.err = .addr ∨ t.dec.err = .cmd ∨ t.dec.err = .len ∨ t.dec.err = .size)))) ∨
    (s.dec.mode = .body ∧
      (t.dec.mode = .done ∨ (t.dec.mode = .error ∧ t.dec.err = .checksum))) := by
  rcases exec_rxByte_next h with ⟨_, rfl⟩ | ⟨_, rfl⟩ | ⟨_, _, _, rfl⟩ | ⟨hs, _, rfl⟩ |
    ⟨hs, _, _, _, rfl⟩
  · exact absurd rfl hm
  · exact absurd rfl hm
  · exact absurd rfl hm
  · exact .inl ⟨hs, checkHeader_mode _⟩
  · rcases checkFrame_mode (recordBody d s) with hsame | hend
    · exact absurd hsame hm
    · exact .inr ⟨hs, hend⟩

/-- Settles O45: the event runs an operation of the decoder, and each moves the mode as it may. -/
theorem decoderModeMoves : Obligations.DecoderModeMoves := by
  unfold Obligations.DecoderModeMoves
  intro s t e es h hrst hm
  rcases takeEvent_runs (s := { s with events := es }) hrst h with ⟨i, l, hi, hx⟩ | ⟨_, _, hdec, _⟩
  · cases i with
    | nop | crcInit | crcByte | encStart | encByte => exact absurd (congrArg Dec.mode (exec_dec rfl hx)) hm
    | decSetv =>
      obtain ⟨_, _, _, rfl⟩ := exec_decSetv_frame hx
      exact absurd rfl hm
    | decArm ea ec =>
      have hdec := exec_decArm_dec hx
      split at hdec
      · exact absurd (congrArg Dec.mode hdec) hm
      · rename_i hr
        refine .inl ⟨mode_of_not_ready (Bool.eq_false_iff.2 hr), ⟨ea, ec, hi.cmdInstr rfl⟩, ?_⟩
        rw [hdec, Dec.armed]
        cases s.dec.rxClosed <;> simp
    | decCancel =>
      have hdec := exec_decCancel_dec hx
      split at hdec
      · rename_i hp
        rw [hdec]
        exact .inr (.inr (.inr ⟨(readPending_iff _).1 hp, rfl, .inr ⟨hi.cmdInstr rfl, rfl⟩⟩))
      · exact absurd (congrArg Dec.mode hdec) hm
    | rxByte d =>
      rcases exec_rxByte_mode hx hm with ⟨hs, ht⟩ | ⟨hs, ht⟩
      · exact .inr (.inl ⟨hs, hi.eq_rxOffer, ht⟩)
      · exact .inr (.inr (.inl ⟨hs, hi.eq_rxOffer, ht⟩))
    | rxEos =>
      have hdec := exec_rxEos_dec hx
      split at hdec
      · rename_i hp
        rw [hdec]
        exact .inr (.inr (.inr ⟨(readPending_iff _).1 hp, rfl, .inl ⟨hi.eq_rxEos, rfl⟩⟩))
      · exact absurd (congrArg Dec.mode hdec) hm
  · exact absurd (congrArg Dec.mode hdec) hm

/-! ### Stops -/

/-- RX_BYTE in BODY, by its counts. -/
theorem rxBody_cases (d : Byte) (s : State) :
    ((s.dec.rem = 0 ∨ s.dec.plen.toNat + 2 < s.dec.rem.toNat) ∧
      rxBody d s = .fault .decRemOutOfRange) ∨
    (2 < s.dec.rem.toNat ∧ 251 ≤ bodyIndex s.dec ∧ rxBody d s = .fault .bufIndexOutOfRange) ∨
    rxBody d s = .next (checkFrame (recordBody d s)) := by
  unfold rxBody
  split
  · rename_i hrem
    exact .inl ⟨hrem.imp_left fun h => BitVec.eq_of_toNat_eq h, rfl⟩
  · split
    · rename_i hidx
      exact .inr (.inl ⟨hidx.1, hidx.2, rfl⟩)
    · exact .inr (.inr rfl)

/-- RX_BYTE in HDR, by its count. -/
theorem rxHeader_cases (d : Byte) (s : State) :
    (s.dec.hcnt = 3 ∧ rxHeader d s = .fault .decHcntFull) ∨ ∃ t, rxHeader d s = .next t := by
  unfold rxHeader
  split
  · exact .inl ⟨‹_›, rfl⟩
  · split <;> exact .inr ⟨_, rfl⟩

/-- Settles O59: ENC_BYTE and RX_BYTE stop on their counts, and every other operation goes on. -/
theorem stopsOnlyOnCountsOutOfRange : Obligations.StopsOnlyOnCountsOutOfRange := by
  unfold Obligations.StopsOnlyOnCountsOutOfRange
  intro i s
  cases i with
  | nop | crcInit | crcByte => exact .inl ⟨_, rfl⟩
  | encStart a c n =>
    rcases execEncStart_cases a c n s with ⟨_, e⟩ | ⟨_, _, e⟩ | ⟨_, _, e⟩ <;> exact .inl ⟨_, e⟩
  | encByte d =>
    rcases execEncByte_cases d s with ⟨_, e⟩ | ⟨hm, hr, e⟩ | ⟨_, _, e⟩
    · exact .inl ⟨_, e⟩
    · exact .inr (.inl ⟨d, rfl, hm, hr, e⟩)
    · exact .inl ⟨_, e⟩
  | decSetv vk vs =>
    rcases execDecSetv_cases vk vs s with ⟨_, e⟩ | ⟨_, _, e⟩ | ⟨_, _, _, e⟩ <;> exact .inl ⟨_, e⟩
  | decArm ea ec =>
    rcases execDecArm_cases ea ec s with ⟨_, e⟩ | ⟨_, _, e⟩ | ⟨_, _, e⟩ <;> exact .inl ⟨_, e⟩
  | decCancel =>
    rcases execDecCancel_cases s with ⟨_, e⟩ | ⟨_, e⟩ <;> exact .inl ⟨_, e⟩
  | rxByte d =>
    rcases execRxByte_cases d s with ⟨_, e⟩ | ⟨_, e⟩ | ⟨hm, e⟩ | ⟨hm, e⟩
    · exact .inl ⟨_, e⟩
    · exact .inl ⟨_, e⟩
    · rcases rxHeader_cases d s with ⟨h3, hf⟩ | ⟨t, ht⟩
      · exact .inr (.inr (.inl ⟨d, rfl, hm, h3, e.trans hf⟩))
      · exact .inl ⟨t, e.trans ht⟩
    · rcases rxBody_cases d s with ⟨hrem, hf⟩ | ⟨hrem, hidx, hf⟩ | ht
      · exact .inr (.inr (.inr (.inl ⟨d, rfl, hm, hrem, e.trans hf⟩)))
      · exact .inr (.inr (.inr (.inr ⟨d, rfl, hm, hrem, hidx, e.trans hf⟩)))
      · exact .inl ⟨_, e.trans ht⟩
  | rxEos =>
    rcases execRxEos_cases s with ⟨_, e⟩ | ⟨_, e⟩ <;> exact .inl ⟨_, e⟩

end Sys2Proof.Machine
end

section
/-! PROOFS. The invariant of 10_state.md R47: every event keeps it, and under it every event goes on. -/

namespace Sys2Proof.Machine

/-! ### The decoder's part, mode by mode -/

/-- The clauses of R47 that speak of the decoder, with the buffer's canonical form. -/
abbrev decInv (d : Dec) : Prop :=
  decIdleInv d ∧ decHdrInv d ∧ decBodyInv d ∧ decDoneInv d ∧ decErrInv d ∧ d.buf.wf = true

theorem inv_iff (s : State) : s.Inv ↔ encInv s.enc ∧ decInv s.dec := Iff.rfl

theorem decInv_of_hdr {d : Dec} (hm : d.mode = .hdr) (he : d.err = .noError)
    (hc : d.hcnt.toNat ≤ 2) (hwf : d.buf.wf = true) : decInv d := by
  simp [decInv, decIdleInv, decHdrInv, decBodyInv, decDoneInv, decErrInv, hm, he, hc, hwf]

theorem decInv_of_body {d : Dec} (hm : d.mode = .body) (he : d.err = .noError) (hc : d.hcnt = 3)
    (hlen : d.plen.toNat + 4 = d.obsLen.toNat) (h1 : 1 ≤ d.rem.toNat)
    (hle : d.rem.toNat ≤ d.plen.toNat + 2) (haddr : d.obsAddr = d.expAddr)
    (hcmd : d.obsCmd = d.expCmd) (hwf : d.buf.wf = true) : decInv d :=
  ⟨by simp [decIdleInv, hm], by simp [decHdrInv, hm], fun _ => ⟨hc, hlen, h1, hle, haddr, hcmd⟩,
    by simp [decDoneInv, hm], by simp [decErrInv, hm, he], hwf⟩

theorem decInv_of_done {d : Dec} (hm : d.mode = .done) (he : d.err = .noError) (hrem : d.rem = 0)
    (hcrc : d.crc = 0) (hlen : d.plen.toNat + 4 = d.obsLen.toNat) (hwf : d.buf.wf = true) :
    decInv d :=
  ⟨by simp [decIdleInv, hm], by simp [decHdrInv, hm], by simp [decBodyInv, hm],
    fun _ => ⟨hrem, hcrc, hlen⟩, by simp [decErrInv, hm, he], hwf⟩

theorem decInv_of_error {d : Dec} (hm : d.mode = .error) (he : d.err ≠ .noError)
    (hwf : d.buf.wf = true) : decInv d := by
  simp [decInv, decIdleInv, decHdrInv, decBodyInv, decDoneInv, decErrInv, hm, he, hwf]

theorem err_of_decInv {d : Dec} (h : decInv d) (hm : d.mode ≠ .error) : d.err = .noError := by
  obtain ⟨_, _, _, _, herr, _⟩ := h
  by_contra he
  exact hm (herr.2 he)

theorem wf_of_decInv {d : Dec} (h : decInv d) : d.buf.wf = true := by
  obtain ⟨_, _, _, _, _, hwf⟩ := h
  exact hwf

theorem decInv_failed {d : Dec} (h : decInv d) {e : DecErr} (he : e ≠ .noError) :
    decInv (d.failed e) :=
  decInv_of_error rfl he (wf_of_decInv h :)

/-- The validator and `rx_closed` are free in every mode. -/
theorem decInv_settings {d : Dec} (h : decInv d) (k : ValKind) (v : Byte) (c : Bool) :
    decInv { d with vkind := k, vsize := v, rxClosed := c } := by
  obtain ⟨hidle, hrest⟩ := h
  exact ⟨fun hm => congrArg (fun x : Dec => { x with vkind := k, vsize := v, rxClosed := c }) (hidle hm),
    hrest⟩

theorem decInv_armed {d : Dec} (h : decInv d) (ea ec : Byte) : decInv (d.armed ea ec) := by
  cases hc : d.rxClosed with
  | true => exact decInv_of_error (by simp [Dec.armed, hc]) (by simp [Dec.armed, hc]) (wf_of_decInv h :)
  | false =>
    exact decInv_of_hdr (by simp [Dec.armed, hc]) (by simp [Dec.armed, hc]) (Nat.zero_le 2)
      (wf_of_decInv h :)

/-! ### RX_BYTE -/

theorem decInv_recordHeader {d : Byte} {s : State} (h : decInv s.dec) (hm : s.dec.mode = .hdr)
    (h3 : s.dec.hcnt ≠ 3) (h2 : s.dec.hcnt ≠ 2) : decInv (recordHeader d s).dec := by
  have hcount : ∀ c : BitVec 2, c ≠ 3 → c ≠ 2 → (c + 1).toNat ≤ 2 := by decide
  have he := err_of_decInv h (by simp [hm])
  exact decInv_of_hdr hm he (hcount _ h3 h2) (wf_of_decInv h :)

/-- The checks on a complete header, which is free of an error so far. -/
theorem decInv_checkHeader {s : State} (hc : s.dec.hcnt = 3) (he : s.dec.err = .noError)
    (hwf : s.dec.buf.wf = true) : decInv (checkHeader s).dec := by
  rcases checkHeader_cases s with
    ⟨_, h⟩ | ⟨_, _, h⟩ | ⟨_, _, _, h⟩ | ⟨_, _, _, _, h⟩ | ⟨haddr, hcmd, hlen, _, h⟩ <;> rw [h]
  pick_goal 5 -- an accepted header
  · have hplen := payloadSize_toNat hlen
    have hrem := bodySize_toNat (Nat.le_of_add_right_le (k := 2) hlen)
    exact decInv_of_body rfl he hc (show (payloadSize _).toNat + 4 = s.dec.obsLen.toNat by omega)
      (show 1 ≤ (bodySize _).toNat by omega)
      (show (bodySize _).toNat ≤ (payloadSize _).toNat + 2 by omega) haddr hcmd hwf
  all_goals exact decInv_of_error rfl nofun hwf

theorem decInv_checkFrame {d : Byte} {s : State} (h : decInv s.dec) (hm : s.dec.mode = .body)
    (hidx : 2 < s.dec.rem.toNat → bodyIndex s.dec < 251) :
    decInv (checkFrame (recordBody d s)).dec := by
  have he := err_of_decInv h (by simp [hm])
  have hwf : (recordBody d s).dec.buf.wf = true := by
    rw [recordBody_dec_buf]
    split
    · exact Memory.write_wf (wf_of_decInv h) (hidx ‹_›)
    · exact wf_of_decInv h
  obtain ⟨_, _, hbody, _⟩ := h
  obtain ⟨hc, hlen, h1, hle, haddr, hcmd⟩ := hbody hm
  rcases checkFrame_cases (recordBody d s) with ⟨hr, hx⟩ | ⟨hr, hcrc, hx⟩ | ⟨_, _, hx⟩ <;> rw [hx]
  · have hrem : (s.dec.rem - 1).toNat = s.dec.rem.toNat - 1 := pred_toNat (by bv_omega)
    rw [recordBody_dec_rem] at hr
    exact decInv_of_body hm he hc hlen (show 1 ≤ (s.dec.rem - 1).toNat by bv_omega)
      (show (s.dec.rem - 1).toNat ≤ s.dec.plen.toNat + 2 by omega) haddr hcmd hwf
  · exact decInv_of_done rfl he hr hcrc hlen hwf
  · exact decInv_of_error rfl nofun hwf

theorem exec_rxByte_decInv {d : Byte} {s t : State} (h : exec (.rxByte d) s = .next t)
    (hinv : decInv s.dec) : decInv t.dec := by
  rcases exec_rxByte_next h with ⟨_, rfl⟩ | ⟨_, rfl⟩ | ⟨hm, h3, h2, rfl⟩ | ⟨hm, h2, rfl⟩ |
    ⟨hm, _, _, hidx, rfl⟩
  · exact hinv
  · exact hinv
  · exact decInv_recordHeader hinv hm h3 h2
  · have he := err_of_decInv hinv (by simp [hm])
    exact decInv_checkHeader (by rw [recordHeader_dec_hcnt, h2]; rfl) he (wf_of_decInv hinv :)
  · exact decInv_checkFrame hinv hm hidx

/-! ### Operations and events -/

theorem exec_decInv {i : Instr} {s t : State} (h : exec i s = .next t) (hinv : decInv s.dec) :
    decInv t.dec := by
  cases i with
  | nop | crcInit | crcByte | encStart | encByte =>
    rw [exec_dec rfl h]
    exact hinv
  | decSetv =>
    obtain ⟨k, v, _, rfl⟩ := exec_decSetv_frame h
    exact decInv_settings hinv k v s.dec.rxClosed
  | decArm ea ec =>
    rw [exec_decArm_dec h]
    split
    · exact hinv
    · exact decInv_armed hinv ea ec
  | decCancel =>
    rw [exec_decCancel_dec h]
    split
    · exact decInv_failed hinv nofun
    · exact hinv
  | rxByte => exact exec_rxByte_decInv h hinv
  | rxEos =>
    rw [exec_rxEos_dec h]
    split
    · exact decInv_settings (decInv_failed (e := .transport) hinv nofun) s.dec.vkind s.dec.vsize true
    · exact decInv_settings hinv s.dec.vkind s.dec.vsize true

theorem exec_encInv {i : Instr} {s t : State} (h : exec i s = .next t) (hinv : encInv s.enc) :
    encInv t.enc := by
  cases hi : i.isEnc with
  | true =>
    obtain ⟨t', ht', hinv'⟩ := exec_isEnc_encInv hi hinv
    cases ht'.symm.trans h
    exact hinv'
  | false =>
    rw [exec_enc hi h]
    exact hinv

theorem reset_inv : State.reset.Inv := by decide

theorem takeEvent_inv {e : Event} {s t : State} (h : takeEvent e s = .next t) (hinv : s.Inv) :
    t.Inv := by
  rw [inv_iff] at hinv ⊢
  by_cases hrst : e = .rst
  · subst hrst
    cases h
    exact reset_inv
  · rcases takeEvent_runs hrst h with ⟨i, l, _, hx⟩ | ⟨_, henc, hdec, _⟩
    · exact ⟨exec_encInv hx hinv.1, exec_decInv hx hinv.2⟩
    · rw [henc, hdec]
      exact hinv

/-- Under the invariant no count is out of its range, so no operation stops. -/
theorem exec_progress {s : State} (hinv : s.Inv) (i : Instr) : ∃ t : State, exec i s = .next t := by
  obtain ⟨henc, _, hhdr, hbody, _⟩ := hinv
  rcases stopsOnlyOnCountsOutOfRange i s with h | ⟨d, _, hm, hr, _⟩ | ⟨d, _, hm, hc, _⟩ |
    ⟨d, _, hm, hrem, _⟩ | ⟨d, _, hm, hrem, hidx, _⟩
  · exact h
  · have howed := (henc.2 hm).1
    rw [hr] at howed
    exact absurd howed (by decide)
  · have hcount := hhdr hm
    rw [hc] at hcount
    exact absurd hcount (by decide)
  · obtain ⟨_, _, h1, hle, _⟩ := hbody hm
    rcases hrem with hrem | hrem
    · rw [hrem] at h1
      exact absurd h1 (by decide)
    · exact absurd hle (Nat.not_le.2 hrem)
  · obtain ⟨_, hlen, _, _⟩ := hbody hm
    have hmax := s.dec.obsLen.isLt
    omega

theorem takeEvent_progress {s : State} (hinv : s.Inv) (e : Event) :
    ∃ t : State, takeEvent e s = .next t := by
  cases e with
  | cmd w =>
    cases hw : (Event.cmd w).cmdInstr with
    | some i =>
      rw [takeEvent_of_cmdInstr hw]
      exact exec_progress hinv i
    | none => exact ⟨_, takeCmd_of_no_cmdInstr hw s⟩
  | rxOffer =>
    simp only [takeEvent, takeRxOffer]
    cases s.link with
    | nil => exact ⟨s, rfl⟩
    | cons d l => exact exec_progress (s := { s with link := l }) hinv (.rxByte d)
  | rxEos => exact exec_progress hinv .rxEos
  | rd | rst | reopen => exact ⟨_, rfl⟩

/-! ### Steps -/

/-- A step that goes on keeps the state, or takes the first event to come. -/
theorem step_next {s t : State} (h : step s = .next t) :
    t = s ∨ ∃ (e : Event) (es : List Event), takeEvent e { s with events := es } = .next t := by
  cases hes : s.events with
  | nil =>
    cases (step_idle hes).symm.trans h
    exact .inl rfl
  | cons e es => exact .inr ⟨e, es, (step_of_events hes).symm.trans h⟩

/-- Settles O54: the one event a step takes keeps the invariant. -/
theorem stepKeepsInvariant : Obligations.StepKeepsInvariant := by
  unfold Obligations.StepKeepsInvariant
  intro s t hinv h
  rcases step_next h with rfl | ⟨e, es, he⟩
  · exact hinv
  · exact takeEvent_inv he hinv

/-- Settles O58: the event to come goes on, and keeps the invariant. -/
theorem stepNeverStopsUnderInvariant : Obligations.StepNeverStopsUnderInvariant := by
  unfold Obligations.StepNeverStopsUnderInvariant
  intro s hinv
  have hgo : ∃ t, step s = .next t := by
    cases hes : s.events with
    | nil => exact ⟨s, step_idle hes⟩
    | cons e es =>
      rw [step_of_events hes]
      exact takeEvent_progress (s := { s with events := es }) hinv e
  obtain ⟨t, ht⟩ := hgo
  exact ⟨t, ht, stepKeepsInvariant s t hinv ht⟩

/-- Settles O53, clause by clause; no frame is open. -/
theorem invariantHoldsAtReset : Obligations.InvariantHoldsAtReset :=
  ⟨reset_inv, by decide, nofun⟩

end Sys2Proof.Machine
end

section
/-! PROOFS. The bytes received (10_state.md R26, 42_decoder.md R145, R146, R149): the decoder's fields hold
them, `dec_crc` is their CRC, and in DONE they are one well-formed frame. -/

namespace Sys2Proof.Machine

/-! ### The bytes received, by what is still to come -/

theorem receivedFrame_of_two_le {d : Dec} (h : 2 ≤ d.rem.toNat) :
    receivedFrame d = [d.obsLen, d.obsAddr, d.obsCmd] ++
      d.buf.slice 0 (d.plen.toNat + 2 - d.rem.toNat) := by
  rw [receivedFrame, if_pos h, List.append_nil, Nat.min_eq_right (by omega)]

theorem receivedFrame_of_one {d : Dec} (h : d.rem.toNat = 1) :
    receivedFrame d = [d.obsLen, d.obsAddr, d.obsCmd] ++ d.buf.slice 0 d.plen.toNat ++
      [lo8 d.rxcrc] := by
  rw [receivedFrame, if_neg (by omega), if_pos h, Nat.min_eq_left (by omega)]

theorem receivedFrame_of_zero {d : Dec} (h : d.rem = 0) :
    receivedFrame d = [d.obsLen, d.obsAddr, d.obsCmd] ++ d.buf.slice 0 d.plen.toNat ++
      [lo8 d.rxcrc, hi8 d.rxcrc] := by
  have h0 : d.rem.toNat = 0 := by rw [h]; rfl
  rw [receivedFrame, if_neg (by omega), if_neg (by omega), Nat.min_eq_left (by omega)]

/-- A slice with its next byte written. -/
theorem Memory.slice_write_snoc {m : Memory} (hwf : m.wf = true) (k : Nat) (v : Byte) :
    (m.write k v).slice 0 (k + 1) = m.slice 0 k ++ [v] := by
  have hkeep : (m.write k v).slice 0 k = m.slice 0 k := Memory.slice_congr fun j _ hj => by
    rw [Memory.read_write hwf, if_neg (by omega)]
  rw [Memory.slice_snoc, hkeep, Nat.zero_add, Memory.read_write hwf, if_pos rfl]

/-- A body byte is recorded as the last of the bytes received. -/
theorem receivedFrame_recordBody {s : State} (hwf : s.dec.buf.wf = true) (h1 : 1 ≤ s.dec.rem.toNat)
    (hle : s.dec.rem.toNat ≤ s.dec.plen.toNat + 2) (d : Byte) :
    receivedFrame (recordBody d s).dec = receivedFrame s.dec ++ [d] := by
  have hpred : (recordBody d s).dec.rem.toNat = s.dec.rem.toNat - 1 := pred_toNat (by bv_omega)
  obtain hrem | hrem | hrem : 2 < s.dec.rem.toNat ∨ s.dec.rem.toNat = 2 ∨ s.dec.rem.toNat = 1 := by
    omega
  · have hnext : s.dec.plen.toNat + 2 - (s.dec.rem.toNat - 1) = bodyIndex s.dec + 1 := by
      rw [bodyIndex]
      omega
    rw [receivedFrame_of_two_le (by omega), receivedFrame_of_two_le hrem.le, hpred,
      recordBody_dec_plen, hnext, recordBody_dec_buf, if_pos hrem, Memory.slice_write_snoc hwf,
      List.append_assoc]
    rfl
  · rw [receivedFrame_of_one (by omega), receivedFrame_of_two_le hrem.ge, hrem, recordBody_dec_buf,
      recordBody_dec_rxcrc, if_neg (by omega), if_neg (by omega), if_pos hrem, setLo8, lo8_append]
    rfl
  · have hzero : (recordBody d s).dec.rem = 0 := BitVec.eq_of_toNat_eq (by rw [hpred, hrem]; rfl)
    rw [receivedFrame_of_zero hzero, receivedFrame_of_one hrem, recordBody_dec_buf,
      recordBody_dec_rxcrc, if_neg (by omega), if_neg (by omega), if_neg (by omega), setHi8, lo8_append,
      hi8_append]
    simp

/-! ### The frame invariant, by the header bytes received -/

/-- No header byte yet. -/
theorem decFrameInv_of_zero {d : Dec} (hc : d.hcnt = 0) (he : headerError d.err = false)
    (hsum : d.err ≠ .checksum) (hplen : d.plen = 0) (hrem : d.rem = 0) (hrx : d.rxcrc = 0)
    (hlen : d.obsLen = 0) (haddr : d.obsAddr = 0) (hcmd : d.obsCmd = 0) (hcrc : d.crc = crc16 []) :
    decFrameInv d := by
  simp [decFrameInv, *]

/-- The length byte. -/
theorem decFrameInv_of_one {d : Dec} (hc : d.hcnt = 1) (he : headerError d.err = false)
    (hsum : d.err ≠ .checksum) (hplen : d.plen = 0) (hrem : d.rem = 0) (hrx : d.rxcrc = 0)
    (haddr : d.obsAddr = 0) (hcmd : d.obsCmd = 0) (hcrc : d.crc = crc16 [d.obsLen]) :
    decFrameInv d := by
  simp [decFrameInv, *]

/-- The length and the address byte. -/
theorem decFrameInv_of_two {d : Dec} (hc : d.hcnt = 2) (he : headerError d.err = false)
    (hsum : d.err ≠ .checksum) (hplen : d.plen = 0) (hrem : d.rem = 0) (hrx : d.rxcrc = 0)
    (hcmd : d.obsCmd = 0) (hcrc : d.crc = crc16 [d.obsLen, d.obsAddr]) : decFrameInv d := by
  simp [decFrameInv, *]

/-- A complete header that failed a check. -/
theorem decFrameInv_of_headerError {d : Dec} (hc : d.hcnt = 3) (he : headerError d.err = true)
    (hplen : d.plen = 0) (hrem : d.rem = 0) (hcrc : d.crc = crc16 [d.obsLen, d.obsAddr, d.obsCmd]) :
    decFrameInv d := by
  have hsum : d.err ≠ .checksum := fun h => by simp [h, headerError] at he
  simp [decFrameInv, *]

/-- A complete header that was accepted, and the bytes after it. -/
theorem decFrameInv_of_accepted {d : Dec} (hc : d.hcnt = 3) (he : headerError d.err = false)
    (hcrc : d.crc = crc16 (receivedFrame d)) (hsum : d.err = .checksum → d.rem = 0 ∧ d.crc ≠ 0) :
    decFrameInv d := by
  exact ⟨fun h => absurd hc h, by simp [hc], by simp [hc], by simp [hc], by simp [he],
    fun _ _ => hcrc, fun h => ⟨hc, hsum h⟩⟩

/-- An error that a read ends with from outside leaves the bytes received as they were. -/
theorem decFrameInv_failed {d : Dec} {e : DecErr} (h : decFrameInv d) (hd : d.err = .noError)
    (he : headerError e = false) (hsum : e ≠ .checksum) : decFrameInv (d.failed e) := by
  obtain ⟨hpartial, h0, h1, h2, _, h3, _⟩ := h
  refine ⟨hpartial, h0, h1, h2, ?_, fun hc _ => h3 hc (by rw [hd]; rfl), fun hbad => absurd hbad hsum⟩
  intro hbad
  exact absurd (he.symm.trans hbad) nofun

theorem decFrameInv_armed (ea ec : Byte) (d : Dec) : decFrameInv (d.armed ea ec) := by
  cases hc : d.rxClosed <;>
    exact decFrameInv_of_zero rfl (by simp [Dec.armed, hc, headerError]) (by simp [Dec.armed, hc])
      rfl rfl rfl rfl rfl rfl rfl

/-! ### RX_BYTE -/

theorem decFrameInv_recordHeader {d : Byte} {s : State} (hm : s.dec.mode = .hdr)
    (hinv : decInv s.dec) (h : decFrameInv s.dec) (hc3 : s.dec.hcnt ≠ 3) (hc2 : s.dec.hcnt ≠ 2) :
    decFrameInv (recordHeader d s).dec := by
  have herr : s.dec.err = .noError := err_of_decInv hinv (by simp [hm])
  obtain ⟨hpartial, h0, h1, _⟩ := h
  obtain ⟨hplen, hrem, hrx⟩ := hpartial hc3
  have hcount : ∀ c : BitVec 2, c ≠ 3 → c ≠ 2 → c = 0 ∨ c = 1 := by decide
  rcases hcount _ hc3 hc2 with hc | hc
  · obtain ⟨_, haddr, hcmd, hcrc⟩ := h0 hc
    have hnew : (recordHeader d s).dec.crc = crc16 [(recordHeader d s).dec.obsLen] := by
      rw [recordHeader_dec_crc, recordHeader_dec_obsLen, if_pos hc, hcrc]
      rfl
    exact decFrameInv_of_one (by simp [hc]) (by simp [herr, headerError]) (by simp [herr]) hplen hrem
      hrx (by simp [hc, haddr]) (by simp [hc, hcmd]) hnew
  · obtain ⟨_, hcmd, hcrc⟩ := h1 hc
    have hnew : (recordHeader d s).dec.crc
        = crc16 [(recordHeader d s).dec.obsLen, (recordHeader d s).dec.obsAddr] := by
      rw [recordHeader_dec_crc, recordHeader_dec_obsLen, if_neg (by simp [hc]),
        recordHeader_dec_obsAddr, if_pos hc, hcrc]
      rfl
    exact decFrameInv_of_two (by simp [hc]) (by simp [herr, headerError]) (by simp [herr]) hplen hrem
      hrx (by simp [hc, hcmd]) hnew

/-- An accepted header is what has been received: no body byte has come yet. -/
theorem receivedFrame_of_accepted {d : Dec} (hlen : 4 ≤ d.obsLen.toNat)
    (hplen : d.plen = payloadSize d.obsLen) (hrem : d.rem = bodySize d.obsLen) :
    receivedFrame d = [d.obsLen, d.obsAddr, d.obsCmd] := by
  have hp : d.plen.toNat = d.obsLen.toNat - 4 := by rw [hplen, payloadSize_toNat hlen]
  have hr : d.rem.toNat = d.obsLen.toNat - 2 := by rw [hrem, bodySize_toNat (by omega)]
  rw [receivedFrame_of_two_le (by omega), show d.plen.toNat + 2 - d.rem.toNat = 0 by omega]
  rfl

/-- The checks on a complete header whose CRC is in `dec_crc`. -/
theorem decFrameInv_checkHeader {s : State} (hc : s.dec.hcnt = 3) (he : s.dec.err = .noError)
    (hplen : s.dec.plen = 0) (hrem : s.dec.rem = 0)
    (hcrc : s.dec.crc = crc16 [s.dec.obsLen, s.dec.obsAddr, s.dec.obsCmd]) :
    decFrameInv (checkHeader s).dec := by
  rcases checkHeader_cases s with
    ⟨_, h⟩ | ⟨_, _, h⟩ | ⟨_, _, _, h⟩ | ⟨_, _, _, _, h⟩ | ⟨_, _, hlen, _, h⟩ <;> rw [h]
  pick_goal 5 -- an accepted header
  · refine decFrameInv_of_accepted hc (by simp [he, headerError]) ?_ (by simp [he])
    have hbytes := receivedFrame_of_accepted (d := { s.dec with
      mode := .body, plen := payloadSize s.dec.obsLen, rem := bodySize s.dec.obsLen }) hlen rfl rfl
    exact hcrc.trans (congrArg crc16 hbytes.symm)
  all_goals exact decFrameInv_of_headerError hc rfl hplen hrem hcrc

/-- The mode and the code are no part of the bytes received. -/
theorem receivedFrame_checkFrame (s : State) :
    receivedFrame (checkFrame s).dec = receivedFrame s.dec := by
  obtain ⟨_, _, h⟩ := checkFrame_dec s
  rw [h]
  rfl

theorem decFrameInv_checkFrame {s : State} (hc : s.dec.hcnt = 3) (he : s.dec.err = .noError)
    (hcrc : s.dec.crc = crc16 (receivedFrame s.dec)) : decFrameInv (checkFrame s).dec := by
  rcases checkFrame_cases s with ⟨_, h⟩ | ⟨_, _, h⟩ | ⟨hrem, hres, h⟩ <;> rw [h]
  · exact decFrameInv_of_accepted hc (by simp [he, headerError]) hcrc (by simp [he])
  · exact decFrameInv_of_accepted hc (by simp [he, headerError]) hcrc (by simp [he])
  · exact decFrameInv_of_accepted hc rfl hcrc fun _ => ⟨hrem, hres⟩

/-- In BODY and DONE the header is complete and accepted, and `dec_crc` is the CRC of all that came. -/
theorem crc_of_accepted {d : Dec} (hc : d.hcnt = 3) (he : d.err = .noError) (h : decFrameInv d) :
    d.crc = crc16 (receivedFrame d) := by
  obtain ⟨_, _, _, _, _, hall, _⟩ := h
  exact hall hc (by rw [he]; rfl)

theorem exec_rxByte_decFrameInv {d : Byte} {s t : State} (h : exec (.rxByte d) s = .next t)
    (hinv : decInv s.dec) (hframe : decFrameInv s.dec) : decFrameInv t.dec := by
  rcases exec_rxByte_next h with ⟨_, rfl⟩ | ⟨_, rfl⟩ | ⟨hm, h3, h2, rfl⟩ | ⟨hm, h2, rfl⟩ |
    ⟨hm, h1, hle, _, rfl⟩
  · exact hframe
  · exact hframe
  · exact decFrameInv_recordHeader hm hinv hframe h3 h2
  · have he := err_of_decInv hinv (by simp [hm])
    obtain ⟨hpartial, _, _, htwo, _⟩ := hframe
    obtain ⟨hplen, hrem, _⟩ := hpartial (by simp [h2])
    obtain ⟨_, hcrc⟩ := htwo h2
    refine decFrameInv_checkHeader (by rw [recordHeader_dec_hcnt, h2]; rfl) he hplen hrem ?_
    rw [recordHeader_dec_crc, recordHeader_dec_obsLen, if_neg (by simp [h2]),
      recordHeader_dec_obsAddr, if_neg (by simp [h2]), recordHeader_dec_obsCmd, if_pos h2, hcrc]
    rfl
  · have he := err_of_decInv hinv (by simp [hm])
    have hwf := wf_of_decInv hinv
    obtain ⟨_, _, hbody, _⟩ := hinv
    obtain ⟨hc, _⟩ := hbody hm
    refine decFrameInv_checkFrame hc he ?_
    rw [recordBody_dec_crc, receivedFrame_recordBody hwf h1 hle, crc16_append,
      crc_of_accepted hc he hframe]
    rfl

/-! ### Operations and events -/

theorem exec_decFrameInv {i : Instr} {s t : State} (h : exec i s = .next t) (hinv : decInv s.dec)
    (hframe : decFrameInv s.dec) : decFrameInv t.dec := by
  have herr (hp : readPending s.dec = true) : s.dec.err = .noError := by
    refine err_of_decInv hinv fun hm => ?_
    rw [readPending_of_error hm] at hp
    cases hp
  cases i with
  | nop | crcInit | crcByte | encStart | encByte =>
    rw [exec_dec rfl h]
    exact hframe
  | decSetv =>
    obtain ⟨_, _, _, rfl⟩ := exec_decSetv_frame h
    exact hframe
  | decArm ea ec =>
    rw [exec_decArm_dec h]
    split
    · exact hframe
    · exact decFrameInv_armed ea ec s.dec
  | decCancel =>
    rw [exec_decCancel_dec h]
    split
    · exact decFrameInv_failed hframe (herr ‹_›) rfl nofun
    · exact hframe
  | rxByte => exact exec_rxByte_decFrameInv h hinv hframe
  | rxEos =>
    rw [exec_rxEos_dec h]
    split
    · have hfailed := decFrameInv_failed (e := .transport) hframe (herr ‹_›) rfl nofun
      exact hfailed
    · exact hframe

theorem reset_decFrameInv : decFrameInv State.reset.dec := by decide

theorem takeEvent_decFrameInv {e : Event} {s t : State} (h : takeEvent e s = .next t)
    (hinv : decInv s.dec) (hframe : decFrameInv s.dec) : decFrameInv t.dec := by
  by_cases hrst : e = .rst
  · subst hrst
    cases h
    exact reset_decFrameInv
  · rcases takeEvent_runs hrst h with ⟨i, l, _, hx⟩ | ⟨_, _, hdec, _⟩
    · exact exec_decFrameInv hx hinv hframe
    · rw [hdec]
      exact hframe

/-- Settles O55: the one event a step takes keeps what the fields say of the bytes received. -/
theorem stepKeepsReceivedFrame : Obligations.StepKeepsReceivedFrame := by
  unfold Obligations.StepKeepsReceivedFrame
  intro s t hinv hframe h
  rcases step_next h with rfl | ⟨e, es, he⟩
  · exact hframe
  · exact takeEvent_decFrameInv he hinv.2 hframe

/-! ### DONE -/

/-- A residue of 0 after one or two header bytes would need a length byte that no accepted header has. -/
theorem hcnt_of_done {d : Dec} (hinv : decInv d) (hframe : decFrameInv d) (hm : d.mode = .done) :
    d.hcnt = 3 := by
  obtain ⟨_, _, _, hdone, _⟩ := hinv
  obtain ⟨_, hcrc, hlen⟩ := hdone hm
  obtain ⟨hpartial, h0, h1, h2, _⟩ := hframe
  by_contra hc3
  obtain ⟨hplen, _, _⟩ := hpartial hc3
  have hfour : d.obsLen = 4 := BitVec.eq_of_toNat_eq (by rw [← hlen, hplen]; rfl)
  have hcount : ∀ c : BitVec 2, c ≠ 3 → c = 0 ∨ c = 1 ∨ c = 2 := by decide
  rcases hcount _ hc3 with hc | hc | hc
  · obtain ⟨hzero, _⟩ := h0 hc
    rw [hfour] at hzero
    cases hzero
  · obtain ⟨_, _, hone⟩ := h1 hc
    rw [hcrc, hfour] at hone
    exact absurd hone (by decide)
  · obtain ⟨_, htwo⟩ := h2 hc
    rw [hcrc] at htwo
    obtain ⟨hlow, _⟩ := (crc16_residue_iff (m := [])).1 htwo.symm
    rw [hfour] at hlow
    exact absurd hlow (by decide)

/-- R74's three conditions on the bytes of a frame. -/
theorem frameWf_cons_iff {len : Byte} {rest : List Byte} :
    frameWf (len :: rest) = true ↔
      5 ≤ rest.length + 1 ∧ len.toNat = rest.length ∧ crc16 (len :: rest) = 0 := by
  simp [frameWf, and_assoc]

/-- Settles O56: the residue is 0, which the CRC of the header and the payload alone gives. -/
theorem doneHoldsAWellFormedFrame : Obligations.DoneHoldsAWellFormedFrame := by
  unfold Obligations.DoneHoldsAWellFormedFrame
  intro s hinv hframe hm h
  obtain ⟨_, hdec⟩ := (inv_iff s).1 hinv
  have hcrc := crc_of_accepted (hcnt_of_done hdec hframe hm) (err_of_decInv hdec (by simp [hm])) hframe
  obtain ⟨_, _, _, hdone, _⟩ := hdec
  obtain ⟨hrem, hres, hlen⟩ := hdone hm
  have hbytes : receivedFrame s.dec = h ++ [lo8 s.dec.rxcrc, hi8 s.dec.rxcrc] :=
    receivedFrame_of_zero hrem
  have hpayload : (donePayload s).length + 4 = s.dec.obsLen.toNat := by
    rw [donePayload, Memory.slice_length, hlen]
  have hresidue : crc16 (receivedFrame s.dec) = 0 := hcrc.symm.trans hres
  rw [hbytes] at hresidue ⊢
  refine ⟨rfl, frameWf_cons_iff.2 ⟨by simp, by simp; omega, hresidue⟩, ?_, by simp [h]; omega⟩
  obtain ⟨hlow, hhigh⟩ := crc16_residue_iff.1 hresidue
  rw [← hi8_append_lo8 s.dec.rxcrc, hlow, hhigh, hi8_append_lo8]

end Sys2Proof.Machine
end

section
/-! PROOFS. An open frame on TX (10_state.md R25, R60), and the bytes of a whole one (41_encoder.md R122,
R126). -/

namespace Sys2Proof.Machine

/-! ### The open frame -/

/-- What is said of the open frame depends on the encoder and TX only. -/
theorem encFrameInv_of_eq {s t : State} (h : encFrameInv s) (henc : t.enc = s.enc)
    (htx : t.tx = s.tx) : encFrameInv t := by
  unfold encFrameInv
  rw [henc, htx]
  exact h

/-- A frame that is not open has nothing said of it. -/
theorem encFrameInv_of_idle {s : State} (h : s.enc.mode = .idle) : encFrameInv s := by
  intro hm
  rw [h] at hm
  cases hm

/-- ENC_START puts the header last on TX. -/
theorem openFrame_encFrameInv {n : Byte} (hn : n.toNat ≤ 251) (a c : Byte) (s : State) :
    encFrameInv (openFrame a c n s) := by
  by_cases h0 : n = 0
  · subst h0
    rw [openFrame_zero]
    exact encFrameInv_of_idle rfl
  · rw [openFrame_of_ne_zero h0]
    refine fun _ => ⟨s.tx, [], rfl, ?_, rfl⟩
    rw [List.length_nil, Nat.zero_add]
    exact (lenByte_toNat hn).symm

/-- ENC_BYTE puts its byte after the payload so far, or completes the frame. -/
theorem sendPayload_encFrameInv {s : State} (hm : s.enc.mode = .body) (hr : s.enc.rem ≠ 0)
    (h : encFrameInv s) (d : Byte) : encFrameInv (sendPayload d s) := by
  by_cases h1 : s.enc.rem = 1
  · rw [sendPayload_of_one h1]
    exact encFrameInv_of_idle rfl
  · rw [sendPayload_of_two_le hm (by bv_omega)]
    obtain ⟨before, p, htx, hlen, hcrc⟩ := h hm
    have hpred := pred_toNat hr
    refine fun _ => ⟨before, p ++ [d], by simp [htx], ?_, ?_⟩
    · show (p ++ [d]).length + (s.enc.rem - 1).toNat + 4 = s.enc.len.toNat
      rw [List.length_append, List.length_singleton, hpred]
      bv_omega
    · show crcByte s.enc.crc d = crc16 ((s.enc.len :: s.enc.addr :: s.enc.cmd :: p) ++ [d])
      rw [crc16_append, ← hcrc]
      rfl

theorem exec_encFrameInv {i : Instr} {s t : State} (h : exec i s = .next t) (hf : encFrameInv s) :
    encFrameInv t := by
  cases i with
  | encStart a c n =>
    rcases execEncStart_cases a c n s with ⟨_, e⟩ | ⟨_, _, e⟩ | ⟨_, hn, e⟩ <;> cases e.symm.trans h
    · exact hf
    · exact hf
    · exact openFrame_encFrameInv hn a c s
  | encByte d =>
    rcases execEncByte_cases d s with ⟨_, e⟩ | ⟨_, _, e⟩ | ⟨hm, hr, e⟩ <;> cases e.symm.trans h
    · exact hf
    · exact sendPayload_encFrameInv hm hr hf d
  | nop | crcInit | crcByte | decSetv | decArm | decCancel | rxByte | rxEos =>
    exact encFrameInv_of_eq hf (exec_enc rfl h) (exec_tx_of_not_isEnc rfl h)

theorem takeEvent_encFrameInv {e : Event} {s t : State} (h : takeEvent e s = .next t)
    (hf : encFrameInv s) : encFrameInv t := by
  by_cases hrst : e = .rst
  · subst hrst
    cases h
    exact encFrameInv_of_idle rfl
  · rcases takeEvent_runs hrst h with ⟨i, l, _, hx⟩ | ⟨_, henc, _, htx⟩
    · exact exec_encFrameInv hx hf
    · exact encFrameInv_of_eq hf henc htx

/-- Settles O57: the one event a step takes keeps the open frame last on TX. -/
theorem stepKeepsOpenFrameOnTx : Obligations.StepKeepsOpenFrameOnTx := by
  unfold Obligations.StepKeepsOpenFrameOnTx
  intro s t _ hf h
  rcases step_next h with rfl | ⟨e, es, he⟩
  · exact hf
  · exact takeEvent_encFrameInv he hf

/-! ### The whole frame -/

/-- Where `Encode` is defined, and the frame it gives, with its length byte as a number. -/
theorem encodeFrame_some {a c : Byte} {p f : List Byte} (h : encodeFrame a c p = some f) :
    p.length ≤ 251 ∧ ∃ len : Byte, len.toNat = p.length + 4 ∧
      f = len :: a :: c :: (p ++ [lo8 (crc16 (len :: a :: c :: p)), hi8 (crc16 (len :: a :: c :: p))]) := by
  rcases Nat.lt_or_ge 251 p.length with hgt | hle
  · rw [encodeFrame_of_gt hgt] at h
    cases h
  · rw [encodeFrame_of_le hle] at h
    cases h
    exact ⟨hle, _, lenByte_payloadCount_toNat hle, rfl⟩

theorem encodeFrame_residue {a c : Byte} {p f : List Byte} (h : encodeFrame a c p = some f) :
    crc16 f = 0 := by
  obtain ⟨_, len, _, rfl⟩ := encodeFrame_some h
  exact crcZeroResidue (len :: a :: c :: p)

theorem encodeFrame_length {a c : Byte} {p f : List Byte} (h : encodeFrame a c p = some f) :
    f.length = p.length + 5 := by
  obtain ⟨_, len, _, rfl⟩ := encodeFrame_some h
  simp

/-- Settles O37: the length byte counts the other bytes, and the CRC leaves residue 0. -/
theorem encodedFrameIsWellFormed : Obligations.EncodedFrameIsWellFormed := by
  unfold Obligations.EncodedFrameIsWellFormed
  intro a c p f h
  have hres := encodeFrame_residue h
  refine ⟨hres, ?_⟩
  obtain ⟨_, len, hlen, rfl⟩ := encodeFrame_some h
  exact frameWf_cons_iff.2 ⟨by simp, by simp [hlen], hres⟩

/-- `Decode` on a header and at least as many bytes as its length byte counts (R152). -/
theorem decodeFrame_of_complete {len : Byte} {body : List Byte} (hlen : len.toNat = body.length + 2)
    (hbody : 2 ≤ body.length) (addr cmd ea ec : Byte) (vk : ValKind) (vs : Byte) (rest : List Byte)
    (closed : Bool) :
    decodeFrame ea ec vk vs (len :: addr :: cmd :: (body ++ rest)) closed =
      if addr ≠ ea then .error .addr
      else if cmd ≠ ec then .error .cmd
      else if acceptsSize vk vs (body.length - 2) = false then .error .size
      else if crc16 (len :: addr :: cmd :: body) ≠ 0 then .error .checksum
      else .done (body.take (body.length - 2)) (body.length + 3) := by
  have htake : (len :: addr :: cmd :: (body ++ rest)).take (len.toNat + 1)
      = len :: addr :: cmd :: body := by
    rw [hlen]
    simp
  have hpayload : (body ++ rest).take (body.length - 2) = body.take (body.length - 2) :=
    List.take_append_of_le_length (Nat.sub_le _ _)
  have hsize : len.toNat - 4 = body.length - 2 := by omega
  unfold decodeFrame
  dsimp only
  rw [htake, hsize, hpayload, hlen, if_neg (by omega : ¬ body.length + 2 < 4),
    if_neg (by simp : ¬ (body ++ rest).length + 3 < body.length + 2 + 1)]
  simp

/-- Settles O42: the frame's length byte counts its payload and CRC, and its residue is 0. -/
theorem decodeOfEncodedFrame : Obligations.DecodeOfEncodedFrame := by
  unfold Obligations.DecodeOfEncodedFrame
  intro a c ea ec p f rest vk vs closed h
  have hres := encodeFrame_residue h
  obtain ⟨_, len, hlen, rfl⟩ := encodeFrame_some h
  rw [List.cons_append, List.cons_append, List.cons_append,
    decodeFrame_of_complete (by simp [hlen]) (by simp), if_neg (not_not_intro hres)]
  have hlength : ∀ x y : Byte, (p ++ [x, y]).length = p.length + 2 := by simp
  rw [hlength, Nat.add_sub_cancel, List.take_left' rfl]
  cases acceptsSize vk vs p.length <;> rfl

end Sys2Proof.Machine
end

section
/-! PROOFS. SEND (30_encoding.md R81) and the stream law of the encoder (41_encoder.md R124): the encoder's
words alone emit the frame, and other events in between change nothing of that. -/

namespace Sys2Proof.Machine

/-! ### The encoder's words alone -/

/-- A command of a known effect is taken and the run goes on with the rest. -/
theorem runAll_command {i : Instr} {s t : State} {es : List Event} (hwf : i.wf = true)
    (hrx : i.isRx = false) (h : exec i { s with events := es } = .next t) :
    runAll { s with events := .cmd (encode i) :: es } = runAll { t with events := es } :=
  runAll_cons ((takeEvent_encode hwf hrx _).trans h)

/-- A payload byte that is not the last. -/
theorem runAll_encByte_of_two_le {s : State} (hm : s.enc.mode = .body) (hr : 2 ≤ s.enc.rem.toNat)
    (d : Byte) (es : List Event) :
    runAll { s with events := .cmd (encode (.encByte d)) :: es } = runAll { s with
      enc := { s.enc with crc := crcByte s.enc.crc d, rem := s.enc.rem - 1 },
      tx := s.tx ++ [d], result := .ok, events := es } :=
  runAll_command rfl rfl (exec_encByte_of_two_le (s := { s with events := es }) hm hr d)

/-- The bytes an open frame still owes are emitted, and after the last one the CRC of all the frame has. -/
theorem runAll_encBytes (es : List Event) (b : Byte) (p : List Byte) :
    ∀ s : State, s.enc.mode = .body → s.enc.rem.toNat = p.length + 1 → ∃ e : Enc, e.mode = .idle ∧
      runAll { s with events := cmdEvents ((b :: p).map .encByte) ++ es } = runAll { s with
        enc := e, result := .ok, events := es,
        tx := s.tx ++ (b :: p ++ [lo8 (crcFold s.enc.crc (b :: p)), hi8 (crcFold s.enc.crc (b :: p))]) } := by
  induction p generalizing b with
  | nil =>
    intro s hm hr
    have hone : s.enc.rem = 1 := BitVec.eq_of_toNat_eq hr
    exact ⟨_, rfl, runAll_command (i := .encByte b) rfl rfl
      (exec_encByte_of_one (s := { s with events := es }) hm hone b)⟩
  | cons b' p ih =>
    intro s hm hr
    rw [List.length_cons] at hr
    have hpred : (s.enc.rem - 1).toNat = s.enc.rem.toNat - 1 := pred_toNat (by bv_omega)
    obtain ⟨e, he, hrun⟩ := ih b' { s with
      enc := { s.enc with crc := crcByte s.enc.crc b, rem := s.enc.rem - 1 },
      tx := s.tx ++ [b], result := .ok } hm (by rw [hpred]; omega)
    refine ⟨e, he, (runAll_encByte_of_two_le hm (by omega) b _).trans (hrun.trans ?_)⟩
    simp only [List.append_assoc]
    rfl

/-- SEND from an IDLE encoder emits the frame and leaves the encoder IDLE; nothing but the encoder, TX and
the answer changes. -/
theorem runAll_send {s : State} {a c : Byte} {p f : List Byte} (hm : s.enc.mode = .idle)
    (hf : encodeFrame a c p = some f) (es : List Event) : ∃ e : Enc, e.mode = .idle ∧
      runAll { s with events := cmdEvents (Pseudo.send a c p).expand ++ es } = runAll { s with
        enc := e, result := .ok, events := es, tx := s.tx ++ f } := by
  obtain ⟨hp, _⟩ := encodeFrame_some hf
  cases (encodeFrame_of_le hp a c).symm.trans hf
  cases p with
  | nil =>
    exact ⟨_, rfl, runAll_command (i := .encStart a c 0) rfl rfl
      (exec_encStart_zero (s := { s with events := es }) hm a c)⟩
  | cons b p =>
    have hn := payloadCount_toNat hp
    have h1 : 1 ≤ (payloadCount (b :: p)).toNat := by rw [hn]; simp
    obtain ⟨e, he, hrun⟩ := runAll_encBytes es b p { s with
      enc := { mode := .body, addr := a, cmd := c, len := lenByte (payloadCount (b :: p)),
               rem := payloadCount (b :: p), crc := crc16 [lenByte (payloadCount (b :: p)), a, c] },
      tx := s.tx ++ [lenByte (payloadCount (b :: p)), a, c], result := .ok } rfl hn
    refine ⟨e, he, (runAll_command (i := .encStart a c (payloadCount (b :: p))) rfl rfl
      (exec_encStart_of_payload (s := { s with events := _ ++ es }) hm h1 (hn ▸ hp) a c)).trans
      (hrun.trans ?_)⟩
    simp only [List.append_assoc]
    rfl

/-- Settles O40: CRC_SEQ and SEND by their words' runs, RECV and RECV_NEXT by their expansions. -/
theorem pseudoInstructionEffects : Obligations.PseudoInstructionEffects := by
  unfold Obligations.PseudoInstructionEffects
  refine ⟨runAll_crcSeq, fun s a c p hm hp => ?_, fun _ _ _ _ => rfl, fun _ _ => rfl⟩
  have hf := encodeFrame_of_le hp a c
  obtain ⟨e, _, hrun⟩ := runAll_send hm hf []
  rw [List.append_nil] at hrun
  exact ⟨_, _, hrun, hf, rfl⟩

/-! ### Other events in between -/

/-- A run that goes through has taken its first event. -/
theorem runAll_cons_next {s t : State} {e : Event} {es : List Event}
    (h : runAll { s with events := e :: es } = .next t) :
    ∃ u : State, takeEvent e { s with events := es } = .next u ∧
      runAll { u with events := es } = .next t := by
  cases htake : takeEvent e { s with events := es } with
  | next u => exact ⟨u, rfl, (runAll_cons htake).symm.trans h⟩
  | fault r =>
    have hstop : runAll { s with events := e :: es } = .fault r := by
      simp only [runAll, List.length_cons, runSteps, step_cons, htake]
    cases hstop.symm.trans h
  | refused r =>
    have hstop : runAll { s with events := e :: es } = .refused r := by
      simp only [runAll, List.length_cons, runSteps, step_cons, htake]
    cases hstop.symm.trans h

/-- Events other than the encoder's words and reset do not matter to the encoder and TX: a run over all
events ends with them as a run over the encoder's words alone does. -/
theorem runAll_encWords (es : List Event) : ∀ s u v : State, s.Inv → s.enc = u.enc → s.tx = u.tx →
    (∀ e ∈ es, e ≠ .rst) →
    runAll { u with events := es.filter Event.isEncWord } = .next v →
    ∃ t : State, runAll { s with events := es } = .next t ∧ t.enc = v.enc ∧ t.tx = v.tx := by
  induction es with
  | nil =>
    intro s u v _ henc htx _ hrun
    cases hrun
    exact ⟨_, runAll_nil s, henc, htx⟩
  | cons e es ih =>
    intro s u v hinv henc htx hrst hrun
    obtain ⟨hne, hrest⟩ := List.forall_mem_cons.1 hrst
    obtain ⟨s', hs'⟩ := takeEvent_progress (s := { s with events := es }) hinv e
    have hinv' : s'.Inv := takeEvent_inv hs' hinv
    cases he : e.isEncWord with
    | true =>
      rw [List.filter_cons_of_pos he] at hrun
      obtain ⟨u', hu', hrun'⟩ := runAll_cons_next hrun
      obtain ⟨henc', bs, hstx, hutx⟩ := takeEvent_enc_congr hs' hu' henc
      have htx' : s'.tx = u'.tx := by rw [hstx, hutx]; exact congrArg (· ++ bs) htx
      obtain ⟨t, ht, hend⟩ := ih s' u' v hinv' henc' htx' hrest hrun'
      exact ⟨t, (runAll_cons hs').trans ht, hend⟩
    | false =>
      rw [List.filter_cons_of_neg (by simp [he])] at hrun
      obtain ⟨_, hquiet, _⟩ := fieldsWrittenOnlyByTheirEvents s s' e es hs' hne
      have htx' := takeEvent_tx_of_not_isEncWord he hs'
      obtain ⟨t, ht, hend⟩ := ih s' u v hinv' ((hquiet he).trans henc) (htx'.trans htx) hrest hrun
      exact ⟨t, (runAll_cons hs').trans ht, hend⟩

/-- Settles O39: the words alone are SEND's, and the events in between do not matter. -/
theorem encoderStreamLaw : Obligations.EncoderStreamLaw := by
  unfold Obligations.EncoderStreamLaw
  intro s a c p es hinv hm hp hrst hwords
  have hf := encodeFrame_of_le hp a c
  obtain ⟨e, he, hsend⟩ := runAll_send hm hf []
  have hexpand : es.filter Event.isEncWord = cmdEvents (Pseudo.send a c p).expand := hwords
  rw [List.append_nil, ← hexpand] at hsend
  obtain ⟨t, ht, henc, htx⟩ := runAll_encWords es s s _ hinv rfl rfl hrst hsend
  exact ⟨t, _, ht, hf, htx, henc ▸ he⟩

end Sys2Proof.Machine
end

section
/-! PROOFS. Runs of offers (42_decoder.md R145, R149, R150): those the decoder does not take, and those of the
bytes after an accepted header. -/

namespace Sys2Proof.Machine

/-! ### One offer, and offers that the decoder does not take -/

theorem runAll_offer {s t : State} {d : Byte} {l : List Byte} {es : List Event}
    (h : exec (.rxByte d) { s with link := l, events := es } = .next t) :
    runAll { s with link := d :: l, events := .rxOffer :: es } = runAll { t with events := es } :=
  runAll_cons (s := { s with link := d :: l }) h

/-- In ERROR the offered bytes are dropped. -/
theorem runAll_offers_of_error (bs l : List Byte) (es : List Event) : ∀ s : State,
    s.dec.mode = .error →
    runAll { s with link := bs ++ l, events := List.replicate bs.length Event.rxOffer ++ es }
      = runAll { s with link := l, events := es } := by
  induction bs with
  | nil => exact fun _ _ => rfl
  | cons b bs ih =>
    intro s hm
    exact (runAll_offer (exec_rxByte_of_error
      (s := { s with link := bs ++ l, events := List.replicate bs.length Event.rxOffer ++ es }) hm b)).trans
      (ih s hm)

/-- In DONE they stay at the link. -/
theorem runAll_offers_of_done (n : Nat) (es : List Event) (s : State) (hm : s.dec.mode = .done) :
    runAll { s with events := List.replicate n Event.rxOffer ++ es } = runAll { s with events := es } := by
  have hready := rxReady_eq_false (.inr hm)
  induction n with
  | zero => rfl
  | succ n ih =>
    have htake : takeEvent .rxOffer { s with events := List.replicate n Event.rxOffer ++ es }
        = .next { s with events := List.replicate n Event.rxOffer ++ es } := by
      cases hl : s.link with
      | nil => simp only [takeEvent, takeRxOffer]
      | cons d l =>
        simp only [takeEvent, takeRxOffer]
        exact exec_rxByte_of_not_ready
          (s := { s with link := l, events := List.replicate n Event.rxOffer ++ es }) hready d
    exact (runAll_cons htake).trans ih

/-- After the end of a frame the offered bytes stay at the link or are dropped. -/
theorem runAll_offers_after {s : State} (h : s.dec.mode = .done ∨ s.dec.mode = .error) (bs l : List Byte)
    (es : List Event) :
    runAll { s with link := bs ++ l, events := List.replicate bs.length Event.rxOffer ++ es }
      = runAll { s with link := if s.dec.mode = .done then bs ++ l else l, events := es } := by
  rcases h with hm | hm
  · rw [if_pos hm]
    exact runAll_offers_of_done bs.length es { s with link := bs ++ l } hm
  · rw [if_neg (by simp [hm])]
    exact runAll_offers_of_error bs l es s hm

/-! ### The body -/

/-- A decoder in BODY that has received `f` of its frame and awaits `n` more bytes. -/
structure Dec.Receiving (f : List Byte) (n : Nat) (d : Dec) : Prop where
  mode : d.mode = .body
  inv : decInv d
  frame : decFrameInv d
  received : receivedFrame d = f
  owed : d.rem.toNat = n

/-- A decoder that has received the whole frame `f` and checked its residue. -/
structure Dec.Checked (f : List Byte) (d : Dec) : Prop where
  outcome : (crc16 f = 0 ∧ d.mode = .done) ∨ (crc16 f ≠ 0 ∧ d.mode = .error ∧ d.err = .checksum)
  inv : decInv d
  received : receivedFrame d = f
  owed : d.rem = 0

theorem Dec.Receiving.one_le {f : List Byte} {n : Nat} {d : Dec} (h : d.Receiving f n) : 1 ≤ n := by
  obtain ⟨_, _, hbody, _⟩ := h.inv
  obtain ⟨_, _, hone, _⟩ := hbody h.mode
  rw [← h.owed]
  exact hone

/-- A byte takes a receiving decoder to the check of its frame, with the invariants kept. -/
theorem Dec.Receiving.exec_rxByte {f : List Byte} {n : Nat} {s : State} (h : s.dec.Receiving f n)
    (b : Byte) :
    exec (.rxByte b) s = .next (checkFrame (recordBody b s)) ∧
    decInv (checkFrame (recordBody b s)).dec ∧ decFrameInv (checkFrame (recordBody b s)).dec ∧
    receivedFrame (recordBody b s).dec = f ++ [b] ∧ (recordBody b s).dec.rem.toNat = n - 1 := by
  obtain ⟨_, _, hbody, _⟩ := h.inv
  obtain ⟨_, hlen, h1, hle, _⟩ := hbody h.mode
  have hmax := s.dec.obsLen.isLt
  have hidx : 2 < s.dec.rem.toNat → bodyIndex s.dec < 251 := by
    rw [bodyIndex]
    omega
  have hexec := exec_rxByte_of_body h.mode h1 hle hidx b
  refine ⟨hexec, exec_decInv hexec h.inv, exec_decFrameInv hexec h.inv h.frame, ?_, ?_⟩
  · rw [receivedFrame_recordBody (wf_of_decInv h.inv) h1 hle, h.received]
  · rw [recordBody_dec_rem, pred_toNat (by bv_omega), h.owed]

/-- A byte that is not the last keeps the decoder receiving. -/
theorem Dec.Receiving.next {f : List Byte} {n : Nat} {s : State} (h : s.dec.Receiving f (n + 2))
    (b : Byte) : exec (.rxByte b) s = .next { s with dec := (recordBody b s).dec } ∧
      (recordBody b s).dec.Receiving (f ++ [b]) (n + 1) := by
  obtain ⟨hexec, hinv, hframe, hbytes, hrem⟩ := h.exec_rxByte b
  rw [checkFrame_of_ne_zero (by bv_omega)] at hexec hinv hframe
  exact ⟨hexec, h.mode, hinv, hframe, hbytes, hrem⟩

/-- A receiving decoder's CRC is that of the bytes it has. -/
theorem Dec.Receiving.crc {f : List Byte} {n : Nat} {d : Dec} (h : d.Receiving f n) :
    d.crc = crc16 f := by
  obtain ⟨_, _, hbody, _⟩ := h.inv
  obtain ⟨hc, _⟩ := hbody h.mode
  rw [← h.received]
  exact crc_of_accepted hc (err_of_decInv h.inv (by simp [h.mode])) h.frame

/-- The frame's check writes the decoder only. -/
theorem checkFrame_eq (s : State) : checkFrame s = { s with dec := (checkFrame s).dec } := by
  obtain ⟨_, h⟩ := checkFrame_frame s
  rw [h]

/-- The last byte completes the frame. -/
theorem Dec.Receiving.last {f : List Byte} {s : State} (h : s.dec.Receiving f 1) (b : Byte) :
    exec (.rxByte b) s = .next { s with dec := (checkFrame (recordBody b s)).dec } ∧
      (checkFrame (recordBody b s)).dec.Checked (f ++ [b]) := by
  obtain ⟨hexec, hinv, _, hbytes, hrem⟩ := h.exec_rxByte b
  have hzero : (recordBody b s).dec.rem = 0 := BitVec.eq_of_toNat_eq hrem
  have hcrc : (recordBody b s).dec.crc = crc16 (f ++ [b]) := by
    rw [recordBody_dec_crc, h.crc, crc16_append]
    rfl
  refine ⟨hexec.trans (congrArg _ (checkFrame_eq _)), ?_, hinv,
    (receivedFrame_checkFrame _).trans hbytes, ?_⟩
  · rw [← hcrc]
    rcases checkFrame_cases (recordBody b s) with ⟨hr, _⟩ | ⟨_, hres, hx⟩ | ⟨_, hres, hx⟩
    · exact absurd hzero hr
    · exact .inl ⟨hres, by rw [hx]⟩
    · exact .inr ⟨hres, by rw [hx]; exact ⟨rfl, rfl⟩⟩
  · obtain ⟨_, _, hx⟩ := checkFrame_dec (recordBody b s)
    rw [hx]
    exact hzero

/-- Fewer bytes than the frame still owes leave the decoder receiving. -/
theorem runAll_partialBody (bs l : List Byte) (es : List Event) : ∀ (f : List Byte) (n : Nat) (s : State),
    s.dec.Receiving f (bs.length + n + 1) → ∃ d : Dec, d.Receiving (f ++ bs) (n + 1) ∧
      runAll { s with link := bs ++ l, events := List.replicate bs.length Event.rxOffer ++ es }
        = runAll { s with dec := d, link := l, events := es } := by
  induction bs with
  | nil =>
    intro f n s h
    rw [List.length_nil, Nat.zero_add] at h
    exact ⟨s.dec, (List.append_nil f).symm ▸ h, rfl⟩
  | cons b bs ih =>
    intro f n s h
    have hn : (b :: bs).length + n + 1 = bs.length + n + 2 := by simp; omega
    rw [hn] at h
    obtain ⟨hexec, hnext⟩ := Dec.Receiving.next
      (s := { s with link := bs ++ l, events := List.replicate bs.length Event.rxOffer ++ es }) h b
    obtain ⟨d, hd, hrun⟩ := ih (f ++ [b]) n { s with dec := _ } hnext
    rw [List.append_assoc] at hd
    exact ⟨d, hd, (runAll_offer hexec).trans hrun⟩

/-- As many bytes as it owes complete the frame. -/
theorem runAll_wholeBody {f bs : List Byte} {s : State} (h : s.dec.Receiving f bs.length) (l : List Byte)
    (es : List Event) : ∃ d : Dec, d.Checked (f ++ bs) ∧
      runAll { s with link := bs ++ l, events := List.replicate bs.length Event.rxOffer ++ es }
        = runAll { s with dec := d, link := l, events := es } := by
  rcases List.eq_nil_or_concat' bs with rfl | ⟨init, b, rfl⟩
  · exact absurd h.one_le (by simp)
  · rw [List.length_append, List.length_singleton] at h
    obtain ⟨d, hd, hrun⟩ := runAll_partialBody init (b :: l) (Event.rxOffer :: es) f 0 s h
    obtain ⟨hexec, hlast⟩ := Dec.Receiving.last
      (s := { s with dec := d, link := l, events := es }) hd b
    rw [List.append_assoc] at hlast
    refine ⟨_, hlast, ?_⟩
    have hsplit : List.replicate (init ++ [b]).length Event.rxOffer ++ es
        = List.replicate init.length Event.rxOffer ++ .rxOffer :: es := by
      rw [List.length_append, List.length_singleton, List.replicate_succ', List.append_assoc]
      rfl
    rw [hsplit, List.append_assoc]
    exact hrun.trans (runAll_offer (s := { s with dec := d }) hexec)

end Sys2Proof.Machine
end

section
/-! PROOFS. The decoder over a whole stream (42_decoder.md R145, R152): DEC_ARM and the offers end as `Decode`
says of a stream that is still open. -/

namespace Sys2Proof.Machine

/-! ### The header -/

/-- The decoder of `d` with the three header bytes recorded and none of the checks made. -/
def Dec.withHeader (len addr cmd : Byte) (d : Dec) : Dec :=
  { d with crc := crcFold d.crc [len, addr, cmd], obsLen := len, obsAddr := addr, obsCmd := cmd,
           hcnt := 3 }

theorem runAll_firstByte {s : State} (hm : s.dec.mode = .hdr) (hc : s.dec.hcnt = 0) (len : Byte)
    (l : List Byte) (es : List Event) :
    runAll { s with link := len :: l, events := .rxOffer :: es } = runAll { s with
      dec := { s.dec with crc := crcByte s.dec.crc len, obsLen := len, hcnt := 1 },
      link := l, events := es } :=
  runAll_offer (exec_rxByte_first (s := { s with link := l, events := es }) hm hc len)

theorem runAll_secondByte {s : State} (hm : s.dec.mode = .hdr) (hc : s.dec.hcnt = 1) (addr : Byte)
    (l : List Byte) (es : List Event) :
    runAll { s with link := addr :: l, events := .rxOffer :: es } = runAll { s with
      dec := { s.dec with crc := crcByte s.dec.crc addr, obsAddr := addr, hcnt := 2 },
      link := l, events := es } :=
  runAll_offer (exec_rxByte_second (s := { s with link := l, events := es }) hm hc addr)

/-- The header's checks write the decoder only, and look at the decoder only. -/
theorem checkHeader_eq_of_dec_eq {s t : State} (h : s.dec = t.dec) :
    checkHeader s = { s with dec := (checkHeader t).dec } := by
  rw [← checkHeader_congr h]
  obtain ⟨_, hx⟩ := checkHeader_frame s
  rw [hx]

theorem runAll_thirdByte {s : State} (hm : s.dec.mode = .hdr) (hc : s.dec.hcnt = 2) (cmd : Byte)
    (l : List Byte) (es : List Event) :
    runAll { s with link := cmd :: l, events := .rxOffer :: es } = runAll { s with
      dec := (checkHeader { s with
        dec := { s.dec with crc := crcByte s.dec.crc cmd, obsCmd := cmd, hcnt := 3 } }).dec,
      link := l, events := es } := by
  have hexec := exec_rxByte_third (s := { s with link := l, events := es }) hm hc cmd
  rw [checkHeader_eq_of_dec_eq (s := { s with link := l, events := es, dec := _ })
    (t := { s with dec := _ }) rfl] at hexec
  exact runAll_offer hexec

/-- Three offers to an armed decoder record the header and check it. -/
theorem runAll_header {s : State} (hm : s.dec.mode = .hdr) (hc : s.dec.hcnt = 0) (len addr cmd : Byte)
    (l : List Byte) (es : List Event) :
    runAll { s with link := len :: addr :: cmd :: l, events := .rxOffer :: .rxOffer :: .rxOffer :: es }
      = runAll { s with dec := (checkHeader { s with dec := s.dec.withHeader len addr cmd }).dec,
                        link := l, events := es } := by
  rw [runAll_firstByte hm hc]
  refine (runAll_secondByte (s := { s with dec := { s.dec with
    crc := crcByte s.dec.crc len, obsLen := len, hcnt := 1 } }) hm rfl addr (cmd :: l) _).trans ?_
  exact runAll_thirdByte (s := { s with dec := { s.dec with
    crc := crcByte (crcByte s.dec.crc len) addr, obsLen := len, obsAddr := addr, hcnt := 2 } })
    hm rfl cmd l es

/-- A complete header either fails, with the code `Decode` gives whatever follows, or is accepted, and the
decoder receives the bytes its length byte counts. -/
theorem checkHeader_armed {s : State} {d : Dec} {ea ec len addr cmd : Byte}
    (hs : s.dec = (d.armed ea ec).withHeader len addr cmd) (hclosed : d.rxClosed = false)
    (hwf : d.buf.wf = true) :
    ((checkHeader s).dec.mode = .error ∧ ∀ (rest : List Byte) (closed : Bool),
      decodeFrame ea ec d.vkind d.vsize (len :: addr :: cmd :: rest) closed
        = .error (checkHeader s).dec.err) ∨
    (addr = ea ∧ cmd = ec ∧ 4 ≤ len.toNat ∧ acceptsSize d.vkind d.vsize (len.toNat - 4) = true ∧
      (checkHeader s).dec.Receiving [len, addr, cmd] (len.toNat - 2)) := by
  have herr : s.dec.err = .noError := by simp [hs, Dec.withHeader, Dec.armed, hclosed]
  have hc : s.dec.hcnt = 3 := by rw [hs]; rfl
  have hinv : decInv (checkHeader s).dec := decInv_checkHeader hc herr (by rw [hs]; exact hwf)
  have hframe : decFrameInv (checkHeader s).dec := by
    refine decFrameInv_checkHeader hc herr ?_ ?_ ?_ <;> rw [hs] <;> rfl
  rcases checkHeader_cases s with
    ⟨haddr, h⟩ | ⟨haddr, hcmd, h⟩ | ⟨haddr, hcmd, hlen, h⟩ | ⟨haddr, hcmd, hlen, hsize, h⟩ |
    ⟨haddr, hcmd, hlen, hsize, h⟩ <;> simp only [hs, Dec.withHeader, Dec.armed] at haddr
  · exact .inl ⟨by rw [h]; rfl, fun rest closed => by simp [h, decodeFrame, haddr]⟩
  all_goals simp only [hs, Dec.withHeader, Dec.armed] at hcmd
  · exact .inl ⟨by rw [h]; rfl, fun rest closed => by simp [h, decodeFrame, haddr, hcmd]⟩
  all_goals simp only [hs, Dec.withHeader, Dec.armed] at hlen
  · exact .inl ⟨by rw [h]; rfl, fun rest closed => by simp [h, decodeFrame, haddr, hcmd, hlen]⟩
  all_goals simp only [hs, Dec.withHeader, Dec.armed, payloadSize_toNat hlen] at hsize
  · exact .inl ⟨by rw [h]; rfl, fun rest closed => by
      simp [h, decodeFrame, haddr, hcmd, Nat.not_lt.2 hlen, hsize]⟩
  · refine .inr ⟨haddr, hcmd, hlen, hsize, by rw [h], hinv, hframe, ?_, ?_⟩
    · have hbytes := receivedFrame_of_accepted (d := (checkHeader s).dec) (by rw [h, hs]; exact hlen)
        (by rw [h]) (by rw [h])
      rw [hbytes, h, hs]
      rfl
    · rw [h, hs]
      exact bodySize_toNat (show 2 ≤ len.toNat by omega)

/-! ### The whole stream -/

/-- How a decoder that was offered `offered` ends when `Decode` says `o`: it is `d`, and the link holds
`held`, where `l` came behind the bytes offered. -/
def DecodeOutcome.Describes (o : DecodeOutcome) (offered l : List Byte) (d : Dec) (held : List Byte) :
    Prop :=
  match o with
  | .done p k => d.mode = .done ∧ d.plen.toNat = p.length ∧ p.length ≤ 251 ∧
      d.buf.slice 0 d.plen.toNat = p ∧ held = offered.drop k ++ l
  | .error e => d.mode = .error ∧ d.err = e
  | .pending => d.mode = .hdr ∨ d.mode = .body

/-- The payload of a checked frame is what stands between its header and its CRC. -/
theorem Dec.Checked.payload {len addr cmd : Byte} {body : List Byte} {d : Dec}
    (h : d.Checked (len :: addr :: cmd :: body)) :
    d.plen.toNat + 2 = body.length ∧ d.buf.slice 0 d.plen.toNat = body.take (body.length - 2) := by
  have hbytes := h.received
  rw [receivedFrame_of_zero h.owed] at hbytes
  simp only [List.cons_append, List.nil_append, List.cons.injEq] at hbytes
  obtain ⟨_, _, _, rfl⟩ := hbytes
  constructor
  · simp
  · simp [List.take_left']

/-- A checked frame ends the decoding as its residue says. -/
theorem Dec.Checked.describes {len addr cmd : Byte} {vk : ValKind} {vs : Byte} {body : List Byte}
    {d : Dec} (h : d.Checked (len :: addr :: cmd :: body)) (hlen : len.toNat = body.length + 2)
    (hsize : acceptsSize vk vs (len.toNat - 4) = true) (rest l : List Byte) :
    (decodeFrame addr cmd vk vs (len :: addr :: cmd :: (body ++ rest)) false).Describes
      (len :: addr :: cmd :: (body ++ rest)) l d (if d.mode = .done then rest ++ l else l) := by
  obtain ⟨hplen, hpayload⟩ := h.payload
  have hmax := len.isLt
  have htaken : (body.take (body.length - 2)).length = d.plen.toNat := by
    rw [List.length_take]
    omega
  rw [show len.toNat - 4 = body.length - 2 by omega] at hsize
  rw [decodeFrame_of_complete hlen (by omega), if_neg (not_not_intro rfl), if_neg (not_not_intro rfl),
    if_neg (by simp [hsize])]
  rcases h.outcome with ⟨hres, hm⟩ | ⟨hres, hm, herr⟩
  · rw [if_neg (not_not_intro hres), if_pos hm]
    exact ⟨hm, htaken.symm, by omega, hpayload, by simp⟩
  · rw [if_pos hres]
    exact ⟨hm, herr⟩

/-- With fewer bytes than the length byte counts, an accepted header is all `Decode` can tell (R152). -/
theorem decodeFrame_of_short {len addr cmd : Byte} {vk : ValKind} {vs : Byte} {rest : List Byte}
    (hshort : rest.length + 2 < len.toNat) (hlen : 4 ≤ len.toNat)
    (hsize : acceptsSize vk vs (len.toNat - 4) = true) (closed : Bool) :
    decodeFrame addr cmd vk vs (len :: addr :: cmd :: rest) closed = shortRead closed := by
  have h : rest.length + 3 < len.toNat + 1 := by omega
  simp [decodeFrame, Nat.not_lt.2 hlen, hsize, h]

/-- A decoder with an accepted header is offered the bytes after it: too few, or the frame and more. -/
theorem runAll_acceptedHeader {len addr cmd : Byte} {vk : ValKind} {vs : Byte} {s : State}
    (h : s.dec.Receiving [len, addr, cmd] (len.toNat - 2)) (hlen : 4 ≤ len.toNat)
    (hsize : acceptsSize vk vs (len.toNat - 4) = true) (rest l : List Byte) (es : List Event) :
    ∃ (d : Dec) (held : List Byte),
      runAll { s with link := rest ++ l, events := List.replicate rest.length Event.rxOffer ++ es }
        = runAll { s with dec := d, link := held, events := es } ∧
      (decodeFrame addr cmd vk vs (len :: addr :: cmd :: rest) false).Describes
        (len :: addr :: cmd :: rest) l d held := by
  rcases Nat.lt_or_ge (rest.length + 2) len.toNat with hshort | hlong
  · have howed : len.toNat - 2 = rest.length + (len.toNat - 3 - rest.length) + 1 := by omega
    rw [howed] at h
    obtain ⟨d, hd, hrun⟩ := runAll_partialBody rest l es _ _ s h
    refine ⟨d, l, hrun, ?_⟩
    rw [decodeFrame_of_short hshort hlen hsize]
    exact .inr hd.mode
  · obtain ⟨body, tail, rfl, hlength⟩ : ∃ body tail, rest = body ++ tail ∧
        len.toNat = body.length + 2 := by
      refine ⟨_, _, (List.take_append_drop (len.toNat - 2) rest).symm, ?_⟩
      rw [List.length_take]
      omega
    rw [show len.toNat - 2 = body.length by omega] at h
    obtain ⟨d, hd, hrun⟩ := runAll_wholeBody h (tail ++ l) (List.replicate tail.length Event.rxOffer ++ es)
    have hafter := runAll_offers_after (s := { s with dec := d })
      (hd.outcome.imp (fun hdone => hdone.2) (fun herror => herror.2.1)) tail l es
    refine ⟨d, _, ?_, hd.describes hlength hsize tail l⟩
    rw [List.length_append, List.replicate_add, List.append_assoc, List.append_assoc]
    exact hrun.trans hafter

/-- An armed decoder is offered a header and the bytes after it. -/
theorem runAll_armedHeader {s : State} {d : Dec} {ea ec : Byte} (hs : s.dec = d.armed ea ec)
    (hclosed : d.rxClosed = false) (hwf : d.buf.wf = true) (len addr cmd : Byte) (rest l : List Byte)
    (es : List Event) : ∃ (d' : Dec) (held : List Byte),
      runAll { s with link := len :: addr :: cmd :: (rest ++ l),
                      events := List.replicate (len :: addr :: cmd :: rest).length Event.rxOffer ++ es }
        = runAll { s with dec := d', link := held, events := es } ∧
      (decodeFrame ea ec d.vkind d.vsize (len :: addr :: cmd :: rest) false).Describes
        (len :: addr :: cmd :: rest) l d' held := by
  have hm : s.dec.mode = .hdr := by simp [hs, Dec.armed, hclosed]
  have hheader := runAll_header hm (by rw [hs]; rfl) len addr cmd (rest ++ l)
    (List.replicate rest.length Event.rxOffer ++ es)
  rcases checkHeader_armed (s := { s with dec := s.dec.withHeader len addr cmd }) (by rw [hs]) hclosed
    hwf with ⟨herr, hdecode⟩ | ⟨rfl, rfl, hlen, hsize, hbody⟩
  · refine ⟨_, l, hheader.trans (runAll_offers_of_error rest l es { s with dec := _ } herr), ?_⟩
    rw [hdecode]
    exact ⟨herr, rfl⟩
  · obtain ⟨d', held, hrun, hdesc⟩ :=
      runAll_acceptedHeader (s := { s with dec := _ }) hbody hlen hsize rest l es
    exact ⟨d', held, hheader.trans hrun, hdesc⟩

/-- An armed decoder that is offered any byte stream. -/
theorem runAll_armedOffers {s : State} {d : Dec} {ea ec : Byte} (hs : s.dec = d.armed ea ec)
    (hclosed : d.rxClosed = false) (hwf : d.buf.wf = true) (bytes l : List Byte) (es : List Event) :
    ∃ (d' : Dec) (held : List Byte),
      runAll { s with link := bytes ++ l, events := List.replicate bytes.length Event.rxOffer ++ es }
        = runAll { s with dec := d', link := held, events := es } ∧
      (decodeFrame ea ec d.vkind d.vsize bytes false).Describes bytes l d' held := by
  have hm : s.dec.mode = .hdr := by simp [hs, Dec.armed, hclosed]
  have hc : s.dec.hcnt = 0 := by rw [hs]; rfl
  match bytes with
  | [] => exact ⟨s.dec, l, rfl, .inl hm⟩
  | [len] => exact ⟨_, l, runAll_firstByte hm hc len l es, .inl hm⟩
  | [len, addr] =>
    refine ⟨_, l, (runAll_firstByte hm hc len (addr :: l) (.rxOffer :: es)).trans
      (runAll_secondByte (s := { s with dec := { s.dec with
        crc := crcByte s.dec.crc len, obsLen := len, hcnt := 1 } }) hm rfl addr l es), .inl hm⟩
  | len :: addr :: cmd :: rest => exact runAll_armedHeader hs hclosed hwf len addr cmd rest l es

/-- DEC_ARM and the offers, from IDLE or DONE on an open stream. -/
theorem runAll_decode {s : State} (hm : s.dec.mode = .idle ∨ s.dec.mode = .done)
    (hclosed : s.dec.rxClosed = false) (hwf : s.dec.buf.wf = true) (ea ec : Byte)
    (bytes l : List Byte) (es : List Event) : ∃ (d : Dec) (held : List Byte),
      runAll { s with
          link := bytes ++ l,
          events := .cmd (encode (.decArm ea ec)) :: (List.replicate bytes.length Event.rxOffer ++ es) }
        = runAll { s with dec := d, result := .ok, link := held, events := es } ∧
      (decodeFrame ea ec s.dec.vkind s.dec.vsize bytes false).Describes bytes l d held := by
  have harm := exec_decArm_of_not_ready
    (s := { s with link := bytes ++ l, events := List.replicate bytes.length Event.rxOffer ++ es })
    (rxReady_eq_false hm) ea ec
  obtain ⟨d, held, hrun, hdesc⟩ := runAll_armedOffers
    (s := { s with dec := s.dec.armed ea ec, result := .ok }) rfl hclosed hwf bytes l es
  exact ⟨d, held, (runAll_command (s := { s with link := bytes ++ l }) rfl rfl harm).trans hrun, hdesc⟩

end Sys2Proof.Machine
end

section
/-! PROOFS. The decoder law (42_decoder.md R153) and the loopback of a sent frame (R124, R154): the offers, and
the end of the stream when it comes. -/

namespace Sys2Proof.Machine

/-! ### The end of the stream -/

/-- What `Decode` says of a stream that has ended, from what it says of the open one: more bytes cannot
come (R152). -/
def DecodeOutcome.atEnd : DecodeOutcome → DecodeOutcome
  | .done p k => .done p k
  | .error e => .error e
  | .pending => .error .transport

theorem decodeFrame_closed (ea ec : Byte) (vk : ValKind) (vs : Byte) (bytes : List Byte) :
    decodeFrame ea ec vk vs bytes true = (decodeFrame ea ec vk vs bytes false).atEnd := by
  unfold decodeFrame
  split
  · split_ifs <;> rfl
  · rfl

/-- RX_EOS makes of a described decoder one described for the ended stream. -/
theorem DecodeOutcome.Describes.rxEos {o : DecodeOutcome} {offered l held : List Byte} {s t : State}
    (h : o.Describes offered l s.dec held) (hx : exec .rxEos s = .next t) :
    o.atEnd.Describes offered l t.dec held := by
  rw [exec_rxEos_dec hx]
  cases o with
  | done p k =>
    have hp : readPending s.dec = false := readPending_eq_false (.inr (.inl h.1))
    rw [if_neg (by simp [hp])]
    exact h
  | error e =>
    rw [if_neg (by simp [readPending_of_error h.1])]
    exact h
  | pending =>
    rw [if_pos ((readPending_iff s.dec).2 h)]
    exact ⟨rfl, rfl⟩

/-- RX_EOS goes through in every state. -/
theorem exec_rxEos_goes_on (s : State) : ∃ t : State, exec .rxEos s = .next t := by
  rcases execRxEos_cases s with ⟨_, h⟩ | ⟨_, h⟩ <;> exact ⟨_, h⟩

/-- The stream's end, if it comes, after the offers. -/
theorem runAll_streamEnd {ea ec : Byte} {vk : ValKind} {vs : Byte} {bytes l : List Byte} {s : State}
    (h : (decodeFrame ea ec vk vs bytes false).Describes bytes l s.dec s.link) (closed : Bool) :
    ∃ t : State, runAll { s with events := if closed then [.rxEos] else [] } = .next t ∧
      (decodeFrame ea ec vk vs bytes closed).Describes bytes l t.dec t.link := by
  cases closed with
  | false => exact ⟨_, runAll_nil s, h⟩
  | true =>
    obtain ⟨t, hx⟩ := exec_rxEos_goes_on { s with events := [] }
    refine ⟨_, (runAll_cons (e := .rxEos) hx).trans (runAll_nil t), ?_⟩
    rw [decodeFrame_closed]
    have hlink : t.link = s.link := (exec_link (i := .rxEos) (by simp) hx).trans rfl
    have hend := h.rxEos (s := { s with events := [] }) hx
    rw [← hlink] at hend
    exact hend

/-! ### The statements -/

/-- The payload window of a DONE decoder reads the payload, byte by byte (R42). -/
theorem payloadWindow_of_done {s : State} {p : List Byte} (hm : s.dec.mode = .done)
    (hplen : s.dec.plen.toNat = p.length) (hmax : p.length ≤ 251) (hp : donePayload s = p) (i : Nat)
    (h : i < p.length) : readReg s (BitVec.ofNat 9 (0x100 + i)) = (p[i]'h).setWidth 32 := by
  rw [payloadWindowReads s i (by omega), if_pos ⟨hm, by omega⟩]
  subst hp
  simp only [donePayload]
  rw [Memory.slice_getElem, Nat.zero_add]

/-- Settles O41: the run up to the stream's end, and the end itself, leave what `Decode` describes. -/
theorem decoderLaw : Obligations.DecoderLaw := by
  unfold Obligations.DecoderLaw
  intro s ea ec bytes closed hm hclosed hwf
  obtain ⟨d, held, hrun, hdesc⟩ :=
    runAll_decode hm hclosed hwf ea ec bytes [] (if closed then [.rxEos] else [])
  obtain ⟨t, hend, hdesc'⟩ := runAll_streamEnd
    (s := { s with dec := d, result := .ok, link := held }) hdesc closed
  rw [List.append_nil] at hrun
  refine ⟨t, hrun.trans hend, ?_⟩
  cases ho : decodeFrame ea ec s.dec.vkind s.dec.vsize bytes closed with
  | done p k =>
    rw [ho] at hdesc'
    obtain ⟨hmode, hplen, hmax, hp, hlink⟩ := hdesc'
    rw [List.append_nil] at hlink
    exact ⟨hmode, hplen, hp, payloadWindow_of_done hmode hplen hmax hp, hlink⟩
  | error e =>
    rw [ho] at hdesc'
    exact hdesc'
  | pending =>
    rw [ho] at hdesc'
    exact hdesc'

/-- Settles O43: SEND's run leaves the decoder alone; the reopened link then holds a frame that `Decode`
accepts. -/
theorem loopbackDeliversThePayload : Obligations.LoopbackDeliversThePayload := by
  unfold Obligations.LoopbackDeliversThePayload
  intro s a c p f rest hinv henc hm hclosed hf hsize
  obtain ⟨e, _, hsend⟩ := runAll_send henc hf (.reopen (f ++ rest) ::
    .cmd (encode (.decArm a c)) :: List.replicate f.length Event.rxOffer)
  obtain ⟨d, held, hrun, hdesc⟩ := runAll_decode (s := { s with enc := e, result := .ok, tx := s.tx ++ f })
    hm hclosed (wf_of_decInv hinv.2) a c f rest []
  have hdecode := decodeOfEncodedFrame a c a c p f [] s.dec.vkind s.dec.vsize false hf
  rw [List.append_nil, if_neg (not_not_intro rfl), if_neg (not_not_intro rfl), if_pos hsize] at hdecode
  rw [hdecode] at hdesc
  obtain ⟨hmode, _, _, hp, hheld⟩ := hdesc
  rw [List.drop_of_length_le (encodeFrame_length hf).le, List.nil_append] at hheld
  have hreopen := runAll_cons (e := .reopen (f ++ rest))
    (s := { s with enc := e, result := .ok, tx := s.tx ++ f })
    (es := .cmd (encode (.decArm a c)) :: List.replicate f.length Event.rxOffer) rfl
  rw [List.append_nil] at hrun
  have hend := runAll_nil { s with enc := e, dec := d, result := .ok, tx := s.tx ++ f, link := held }
  refine ⟨_, hsend.trans (hreopen.trans (hrun.trans hend)), ?_⟩
  exact ⟨rfl, hmode, hp, hheld⟩

end Sys2Proof.Machine
end
